-- ==== Sys2Proof/Word.lean ====
section
/-! DEFINITION. The bit-vector widths the spec names (00_scope.md R7): u8, u16, u32. -/

namespace Sys2Proof

/-- u8: protocol values, buffer bytes (00_scope.md R5). -/
abbrev Byte := BitVec 8

/-- u16: the flash address (00_scope.md R5). -/
abbrev Half := BitVec 16

/-- 32-bit host registers and bus data (00_scope.md R5). -/
abbrev Word := BitVec 32

end Sys2Proof
end

