-- ==== Sys2Proof/Config.lean ====
section
/-! DEFINITION. The constants of the protocol (00_scope.md R6, 30_encoding.md R82, R95-R98), the parameters of the
block (00_scope.md R5), and the free values, which have no body: nothing in Lean can evaluate one. -/

namespace Sys2Proof.Config

/-! ## Wire instruction codes (30_encoding.md R82) -/

def insDataRead : BitVec 2 := 0b00#2
def insDataWrite : BitVec 2 := 0b01#2
def insAddressRead : BitVec 2 := 0b10#2
def insAddressWrite : BitVec 2 := 0b11#2

/-- The 2-bit field after the instruction code of a data frame, always 0 (30_encoding.md R100). -/
def reservedField : BitVec 2 := 0b00#2

/-! ## Flash-programming command codes (30_encoding.md R95) -/

def cmdGetVersion : Byte := 0x01
def cmdGetDerivative : Byte := 0x02
def cmdDeviceErase : Byte := 0x03
def cmdBlockRead : Byte := 0x06
def cmdBlockWrite : Byte := 0x07
def cmdPageErase : Byte := 0x08
def cmdDirectRead : Byte := 0x09
def cmdDirectWrite : Byte := 0x0A
def cmdIndirectRead : Byte := 0x0B
def cmdIndirectWrite : Byte := 0x0C

/-! ## Target register addresses (30_encoding.md R96) -/

def addrDeviceId : Byte := 0x00
def addrDeviceRevision : Byte := 0x01
def addrFlashControl : Byte := 0x02
def addrFlashKey : Byte := 0xB7

/-! ## Status byte and success byte (30_encoding.md R97) -/

def maskBusy : Byte := 0x80
def maskError : Byte := 0x40
def maskInputBusy : Byte := 0x02
def maskOutputReady : Byte := 0x01
def successByte : Byte := 0x0D

/-! ## Fixed byte sequences (30_encoding.md R98) -/

def key0 : Byte := 0x02
def key1 : Byte := 0x04
def key2 : Byte := 0x01
def arm0 : Byte := 0xDE
def arm1 : Byte := 0xAD
def arm2 : Byte := 0xA5
def directCount : Byte := 0x01

/-! ## Parameters with a value (00_scope.md R5) -/

def rstLowUs : Nat := 20
def rstHighUs : Nat := 2
def settleMs : Nat := 20
def bufSize : Nat := 256
/-- Stages of the C2D synchroniser; `State.sync` has one field for each. -/
def pSync : Nat := 2
def tlowReset : Byte := 32
def thighReset : Byte := 32
def usdivReset : Byte := 50
def fpdatReset : Byte := 0xB4

/-! ## OPEN parameters (00_scope.md R5, 20_memory.md R70): no step of the machine reads one -/

/-- `P_CLK_HZ`: frequency of `clk` in Hz. -/
opaque pClkHz : Nat
/-- `T_LOW_MIN` in picoseconds. -/
opaque tLowMin : Nat
/-- `T_LOW_MAX` in picoseconds. -/
opaque tLowMax : Nat
/-- `T_HIGH_MIN` in picoseconds. -/
opaque tHighMin : Nat
/-- `P_RESPONSE_BOUND`: used by no rule (70_reset_and_hazards.md R235). -/
opaque pResponseBound : Nat
/-- `P_BASE`: where the platform puts the register window. -/
opaque pBase : Nat

/-! ## Free values (93_implementation_defined.md U-1, U-2) -/

/-- The level of `c2d_i` in a cycle with C2D released whose input record gives none: a fresh draw for each value of the counter
`State.env.draws` (40_signal_byte.md R111, assumption log 1). -/
opaque freePin : Nat → Bool

/-- What a BUF byte that nothing has written reads as: a fresh draw at each read (93_implementation_defined.md U-1,
assumption log 2). -/
opaque freeByte : Nat → Byte

end Sys2Proof.Config
end

