-- ==== Sys2Proof/Syntax.lean ====
section
/-! DEFINITION. The instructions: one constructor per row of spec/opcode_table.json, at the three levels of encoding
of 30_encoding.md R80. -/

namespace Sys2Proof

/-- The instructions of the three levels. A host command is issued by a write to CMD; a wire instruction is issued by
the sequencer, one for each frame; a command code is issued by the sequencer as the first step of `command_init`.
The operands are those of 30_encoding.md R89 and of the frames of R83 and R85; fields an encoding ignores have no
place here. -/
inductive Instr
  /-- address write (41_transactions.md R130) -/
  | aw (addr : Byte)
  /-- address read (R131) -/
  | ar
  /-- data write (R132) -/
  | dw (value : Byte)
  /-- data read (R133) -/
  | dr
  /-- `wait_for_bit` (42_status_polling.md R141) -/
  | wfb (mask : Byte) (expected : Bool)
  /-- `ok_or_not` (R143) -/
  | okq
  /-- `command_init` (R149) -/
  | cinit (command : Byte)
  /-- write with busy wait (R145) -/
  | wrb (value : Byte)
  /-- read with ready (R147) -/
  | rdr
  /-- target reset pulse (43_flash_programming.md R162) -/
  | reset
  /-- initialise the programming interface (R163) -/
  | init
  /-- write an SFR (R164) -/
  | wsfr (addr value : Byte)
  /-- read an SFR (R165) -/
  | rsfr (addr : Byte)
  /-- direct write (R166) -/
  | wdir (addr value : Byte)
  /-- direct read (R167) -/
  | rdir (addr : Byte)
  /-- erase the device (R168) -/
  | erase
  /-- write a flash block (R169); size 0 means 256 -/
  | wblk (flashAddr : Half) (size : Byte)
  /-- read a flash block (R170); size 0 means 256 -/
  | rblk (flashAddr : Half) (size : Byte)
  /-- data-read frame (30_encoding.md R86) -/
  | c2Dr
  /-- data-write frame (R85) -/
  | c2Dw (value : Byte)
  /-- address-read frame (R84) -/
  | c2Ar
  /-- address-write frame (R83) -/
  | c2Aw (addr : Byte)
  /-- command code 0x01 (30_encoding.md R95, R101) -/
  | fpGetVersion
  /-- command code 0x02 -/
  | fpGetDerivative
  /-- command code 0x03 -/
  | fpDeviceErase
  /-- command code 0x06 -/
  | fpBlockRead
  /-- command code 0x07 -/
  | fpBlockWrite
  /-- command code 0x08 -/
  | fpPageErase
  /-- command code 0x09 -/
  | fpDirectRead
  /-- command code 0x0A -/
  | fpDirectWrite
  /-- command code 0x0B -/
  | fpIndirectRead
  /-- command code 0x0C -/
  | fpIndirectWrite
  deriving DecidableEq, Repr

end Sys2Proof
end

