-- ==== Sys2Proof/WellFormed.lean ====
section
/-! DEFINITION. Which instructions are well formed. Every operand value of every operation is legal but for one
combination (30_encoding.md R92). -/

namespace Sys2Proof

/-- Every operand combination is legal except WFB with mask 0x00 and expected bit 1 (30_encoding.md R92). -/
def WellFormed : Instr → Bool
  | .wfb mask expected => !(mask == 0x00#8 && expected)
  | .aw _ => true
  | .ar => true
  | .dw _ => true
  | .dr => true
  | .okq => true
  | .cinit _ => true
  | .wrb _ => true
  | .rdr => true
  | .reset => true
  | .init => true
  | .wsfr _ _ => true
  | .rsfr _ => true
  | .wdir _ _ => true
  | .rdir _ => true
  | .erase => true
  | .wblk _ _ => true
  | .rblk _ _ => true
  | .c2Dr => true
  | .c2Dw _ => true
  | .c2Ar => true
  | .c2Aw _ => true
  | .fpGetVersion => true
  | .fpGetDerivative => true
  | .fpDeviceErase => true
  | .fpBlockRead => true
  | .fpBlockWrite => true
  | .fpPageErase => true
  | .fpDirectRead => true
  | .fpDirectWrite => true
  | .fpIndirectRead => true
  | .fpIndirectWrite => true

end Sys2Proof
end

