-- ==== Sys2Proof/Decode.lean ====
section
/-! DEFINITION. Decoding at the three levels of encoding (30_encoding.md R80), total and rejecting by name, and after
it the encoder, written from the same tables. -/

namespace Sys2Proof

/-- Why an encoding names no instruction. -/
inductive DecodeError
  /-- an OP value outside the opcode map (30_encoding.md R91) -/
  | illegalOp
  /-- WFB with B = 0x00 and W[0] = 1 (30_encoding.md R92) -/
  | illegalOperand
  /-- a byte outside the table of command codes (30_encoding.md R95); `command_init` sends it all the same (R101) -/
  | unlistedCommand
  deriving DecidableEq, Repr

/-- An encoded instruction, at its level: a CMD word; a 2-bit wire instruction code with the byte its frame sends
(AR and DR send none and ignore it); a command byte. -/
inductive Encoding
  | hostCommand (w : Word)
  | wireFrame (ins : BitVec 2) (byte : Byte)
  | commandByte (code : Byte)
  deriving DecidableEq, Repr

/-! ## Fields of the CMD word (30_encoding.md R88) -/

def opField (w : Word) : Byte := w.extractLsb' 0 8
def bField (w : Word) : Byte := w.extractLsb' 8 8
def wField (w : Word) : Half := w.extractLsb' 16 16

/-- The CMD word with the given fields. -/
def cmdWord (op b : Byte) (w : Half) : Word := w ++ b ++ op

/-- W[7:0]: the data value of WSFR and WDIR, the low byte of a flash address. -/
def lowByte (w : Half) : Byte := w.extractLsb' 0 8

/-- W[15:8]: the high byte of a flash address. -/
def highByte (w : Half) : Byte := w.extractLsb' 8 8

/-- W[0]: the expected bit of WFB. -/
def expectedBit (w : Half) : Bool := w.getLsbD 0

/-! ## Decoding -/

/-- The opcode map (30_encoding.md R90) and the operand use of each operation (R89). The checks are those of the
decode step of 10_state.md R43, in its order. -/
def decodeCmd (w : Word) : Except DecodeError Instr :=
  match (opField w).toNat with
  | 0x01 => .ok (.aw (bField w))
  | 0x02 => .ok .ar
  | 0x03 => .ok (.dw (bField w))
  | 0x04 => .ok .dr
  | 0x08 =>
    if bField w == 0x00#8 && expectedBit (wField w) then .error .illegalOperand
    else .ok (.wfb (bField w) (expectedBit (wField w)))
  | 0x09 => .ok .okq
  | 0x0A => .ok (.cinit (bField w))
  | 0x0B => .ok (.wrb (bField w))
  | 0x0C => .ok .rdr
  | 0x10 => .ok .reset
  | 0x11 => .ok .init
  | 0x12 => .ok (.wsfr (bField w) (lowByte (wField w)))
  | 0x13 => .ok (.rsfr (bField w))
  | 0x14 => .ok (.wdir (bField w) (lowByte (wField w)))
  | 0x15 => .ok (.rdir (bField w))
  | 0x16 => .ok .erase
  | 0x17 => .ok (.wblk (wField w) (bField w))
  | 0x18 => .ok (.rblk (wField w) (bField w))
  | _ => .error .illegalOp

/-- The four wire instructions (30_encoding.md R82); every code is one. -/
def decodeWire (ins : BitVec 2) (byte : Byte) : Instr :=
  if ins == Config.insDataRead then .c2Dr
  else if ins == Config.insDataWrite then .c2Dw byte
  else if ins == Config.insAddressRead then .c2Ar
  else .c2Aw byte

/-- The table of command codes (30_encoding.md R95). -/
def decodeCommand (code : Byte) : Except DecodeError Instr :=
  match code.toNat with
  | 0x01 => .ok .fpGetVersion
  | 0x02 => .ok .fpGetDerivative
  | 0x03 => .ok .fpDeviceErase
  | 0x06 => .ok .fpBlockRead
  | 0x07 => .ok .fpBlockWrite
  | 0x08 => .ok .fpPageErase
  | 0x09 => .ok .fpDirectRead
  | 0x0A => .ok .fpDirectWrite
  | 0x0B => .ok .fpIndirectRead
  | 0x0C => .ok .fpIndirectWrite
  | _ => .error .unlistedCommand

/-- Decoding at every level. -/
def decode : Encoding → Except DecodeError Instr
  | .hostCommand w => decodeCmd w
  | .wireFrame ins byte => .ok (decodeWire ins byte)
  | .commandByte code => decodeCommand code

/-- Whether an encoding decodes. -/
def decodes (e : Encoding) : Bool :=
  match decode e with
  | .ok _ => true
  | .error _ => false

/-! ## Encoding (30_encoding.md R104, R82, R95) -/

/-- The W field of WFB: bit 0 is the expected bit, the others are written as 0 (30_encoding.md R99, R104). -/
def expectedField (e : Bool) : Half := if e then 0x0001#16 else 0x0000#16

/-- The W field of WSFR and WDIR: the value in W[7:0], W[15:8] written as 0. -/
def valueField (v : Byte) : Half := 0x00#8 ++ v

/-- The encoding of an instruction, with the fields it does not use written as 0. -/
def encode : Instr → Encoding
  | .aw a => .hostCommand (cmdWord 0x01 a 0)
  | .ar => .hostCommand (cmdWord 0x02 0 0)
  | .dw v => .hostCommand (cmdWord 0x03 v 0)
  | .dr => .hostCommand (cmdWord 0x04 0 0)
  | .wfb m e => .hostCommand (cmdWord 0x08 m (expectedField e))
  | .okq => .hostCommand (cmdWord 0x09 0 0)
  | .cinit c => .hostCommand (cmdWord 0x0A c 0)
  | .wrb v => .hostCommand (cmdWord 0x0B v 0)
  | .rdr => .hostCommand (cmdWord 0x0C 0 0)
  | .reset => .hostCommand (cmdWord 0x10 0 0)
  | .init => .hostCommand (cmdWord 0x11 0 0)
  | .wsfr a v => .hostCommand (cmdWord 0x12 a (valueField v))
  | .rsfr a => .hostCommand (cmdWord 0x13 a 0)
  | .wdir a v => .hostCommand (cmdWord 0x14 a (valueField v))
  | .rdir a => .hostCommand (cmdWord 0x15 a 0)
  | .erase => .hostCommand (cmdWord 0x16 0 0)
  | .wblk fa s => .hostCommand (cmdWord 0x17 s fa)
  | .rblk fa s => .hostCommand (cmdWord 0x18 s fa)
  | .c2Dr => .wireFrame Config.insDataRead 0
  | .c2Dw v => .wireFrame Config.insDataWrite v
  | .c2Ar => .wireFrame Config.insAddressRead 0
  | .c2Aw a => .wireFrame Config.insAddressWrite a
  | .fpGetVersion => .commandByte Config.cmdGetVersion
  | .fpGetDerivative => .commandByte Config.cmdGetDerivative
  | .fpDeviceErase => .commandByte Config.cmdDeviceErase
  | .fpBlockRead => .commandByte Config.cmdBlockRead
  | .fpBlockWrite => .commandByte Config.cmdBlockWrite
  | .fpPageErase => .commandByte Config.cmdPageErase
  | .fpDirectRead => .commandByte Config.cmdDirectRead
  | .fpDirectWrite => .commandByte Config.cmdDirectWrite
  | .fpIndirectRead => .commandByte Config.cmdIndirectRead
  | .fpIndirectWrite => .commandByte Config.cmdIndirectWrite

/-- The CMD word of an operation (30_encoding.md R104); 0, which selects nothing (R91), for an instruction of another
level. -/
def encodeCmd (i : Instr) : Word :=
  match encode i with
  | .hostCommand w => w
  | .wireFrame _ _ => 0
  | .commandByte _ => 0

/-! ## Words of the opcode table -/

/-- Which encoding a word of spec/opcode_table.json stands for. The table has rows of three formats, and gives an
instruction code of 2 bits, a command code of 8 bits, and 8 of the 32 bits of a CMD word. A word of fewer than 8 bits
is a wire instruction, one of more than 8 bits a CMD word. A word of exactly 8 bits is read as the first of these that
names an instruction: the OP byte of a CMD word, a command code, a wire instruction code (assumption log 6). -/
def tableEncoding (nbits w : Nat) : Option Encoding :=
  let wire : Option Encoding := if w < 4 then some (.wireFrame (BitVec.ofNat 2 w) 0) else none
  if nbits < 8 then wire
  else if 2 ^ 32 ≤ w then none
  else if nbits = 8 then
    if decodes (.hostCommand (BitVec.ofNat 32 w)) then some (.hostCommand (BitVec.ofNat 32 w))
    else if w < 256 && decodes (.commandByte (BitVec.ofNat 8 w)) then some (.commandByte (BitVec.ofNat 8 w))
    else wire
  else some (.hostCommand (BitVec.ofNat 32 w))

/-- The instruction the decoder reads from a word numbered as spec/opcode_table.json numbers it. -/
def decodeTableWord (nbits w : Nat) : Option Instr :=
  match tableEncoding nbits w with
  | none => none
  | some e => (decode e).toOption

end Sys2Proof
end

