-- ==== Sys2Proof/Machine/State.lean ====
section
/-! DEFINITION. The state of the block (10_state.md), as plain data. A state is what the registers hold during one
cycle of `clk`; the next state is what they hold during the next cycle. -/

namespace Sys2Proof.Machine

/-! ## Why a step may stop -/

/-- The block has no trap and no step that stops it (60_exceptions.md R208): no fault exists. A refused host access
records an error in STATUS and the machine goes on (R201); an unresponsive target is an infinite run (R203). -/
inductive Fault
  deriving DecidableEq, Repr

/-- Why the model gives an instruction no meaning. -/
inductive Refusal
  /-- An instruction the model does not cover: raised by no arm of `exec`. Safe: the model stops. -/
  | notModelled (mnemonic : String)
  deriving DecidableEq, Repr

/-- The outcome of a step or of an instruction. -/
abbrev Outcome := Host.Outcome

/-! ## Host-visible registers -/

/-- STATUS bits 9:0 (10_state.md R26); bits 19:16 mirror `State.lines` and `State.sync`. -/
structure Status where
  /-- an operation runs (R27) -/
  busy : Bool
  /-- an operation has finished (R28) -/
  done : Bool
  /-- success flag of the last finished operation (R29) -/
  ok : Bool
  /-- a host-interface error occurred (R30) -/
  err : Bool
  /-- code of the most recent host-interface error (R30) -/
  errCode : BitVec 4
  /-- which response check rejected (R31) -/
  fstage : BitVec 2
  deriving DecidableEq, Repr

/-- RESULT (10_state.md R35). -/
structure Result where
  data : Byte
  resp : Byte
  count : BitVec 9
  deriving DecidableEq, Repr

/-- TIMING (10_state.md R36). -/
structure Timing where
  tlow : Byte
  thigh : Byte
  usdiv : Byte
  deriving DecidableEq, Repr

/-- The operand fields latched at acceptance: CUR_OP, CUR_B, CUR_W (10_state.md R42). -/
structure Latched where
  op : Byte
  b : Byte
  w : Half
  deriving DecidableEq, Repr

/-- The block buffer (10_state.md R41) as pairs of index and byte, in one canonical form (`Memory.wf`). An index that
is not listed holds a byte nothing has written; reading it gives a free value (93_implementation_defined.md U-1). -/
abbrev Memory := List Host.Cell

/-! ## Sequencer -/

/-- The four elementary transactions (30_encoding.md R82). -/
inductive FrameKind
  | dataRead
  | dataWrite
  | addressRead
  | addressWrite
  deriving DecidableEq, Repr

/-- Which strobe of a frame is in progress (30_encoding.md R83-R86). The index of a data bit is `Sequencer.bitCount`. -/
inductive WirePos
  /-- the START strobe -/
  | start
  /-- INS[0], INS[1] -/
  | ins0
  | ins1
  /-- the reserved field of a data frame -/
  | rsv0
  | rsv1
  /-- a bit of the byte sent -/
  | dataOut
  /-- a strobe of the WAIT -/
  | wait
  /-- a bit of the byte received -/
  | dataIn
  /-- the STOP strobe -/
  | stop
  deriving DecidableEq, Repr

/-- The wire event in progress (10_state.md R24, 00_scope.md R9). -/
inductive Event
  | strobe (kind : FrameKind) (pos : WirePos)
  /-- the reset pulse (43_flash_programming.md R160) -/
  | pulse
  /-- the settle delay, `IDLE` (R161) -/
  | settle
  deriving DecidableEq, Repr

/-- PHASE (10_state.md R42). -/
inductive Phase
  | setup
  | low
  | high
  deriving DecidableEq, Repr

/-- What is still to do in the running operation: the steps of its pseudocode, in order. The list is the sequencer
position of 10_state.md R24 between two frames. -/
inductive SeqStep
  /-- one elementary frame, by its wire instruction code and the byte it sends -/
  | frame (ins : BitVec 2) (byte : Byte)
  /-- `command_init` of a command code (42_status_polling.md R148) -/
  | command (code : Byte)
  /-- `wait_for_bit` (R140): issue an address read, then test -/
  | poll (mask : Byte) (expected : Bool)
  /-- the test of `wait_for_bit` on the status byte just read -/
  | pollTest (mask : Byte) (expected : Bool)
  /-- `ok_or_not` (R142): issue a data read, then record the response -/
  | check
  /-- `ok_or_not` records the byte just read -/
  | checkRecord
  /-- `if ok_or_not() == 0: finish(0, 0x00, RESPV, 0, FST); stop_op` -/
  | stopIfRejected
  /-- the byte loop of WBLK, at index `i` (43_flash_programming.md R169) -/
  | sendBlock
  /-- the byte loop of RBLK, at index `i` (R170) -/
  | receiveBlock
  /-- `MemWrite(BUF, i, 1, ...)` of the byte just read -/
  | storeByte
  /-- `i <- i + 1` -/
  | nextIndex
  /-- the reset pulse (R160) -/
  | pulse
  /-- the settle delay (R161) -/
  | settle
  deriving DecidableEq, Repr

/-- Where the `data` argument of `finish` comes from. -/
inductive DataSource
  /-- 0x00 -/
  | zero
  /-- the byte the last frame read -/
  | frameByte
  /-- LAST_STATUS, the status byte that met the condition -/
  | status
  /-- LAST_RESP -/
  | response
  deriving DecidableEq, Repr

/-- The arguments of the `finish` that ends the operation when nothing is left to do. -/
structure Finish where
  /-- the `data` argument -/
  data : DataSource
  /-- `ok` is the result of the last `ok_or_not` (else 1) -/
  checked : Bool
  /-- `count` is `n` (else 0) -/
  counted : Bool
  deriving DecidableEq, Repr

/-- The internal state of the sequencer (10_state.md R42, 40_signal_byte.md R110). -/
structure Sequencer where
  todo : List SeqStep
  fin : Finish
  /-- the wire event in progress; none between operations -/
  event : Option Event
  /-- loop index `i` of block operations -/
  loopI : BitVec 9
  /-- normalised size `n` of block operations -/
  loopN : BitVec 9
  phase : Phase
  /-- phase down-counter: the cycles left in the LOW or HIGH phase, this one included -/
  count : BitVec 23
  /-- SHIFT: the byte being shifted out or in -/
  shift : Byte
  bitCount : BitVec 3
  /-- SAMPLE_LATCH -/
  sampleLatch : Bool
  lastStatus : Byte
  lastResp : Byte
  respValid : Bool
  /-- FST: how many `ok_or_not` the operation has run -/
  fst : BitVec 2
  deriving DecidableEq, Repr

/-- The line output registers (10_state.md R47): `c2ck_o`, `c2d_oe`, `c2d_o`. -/
structure Lines where
  c2ck : Bool
  oe : Bool
  c2d : Bool
  deriving DecidableEq, Repr

/-- The C2D input synchroniser with its `P_SYNC` = 2 stages, SYNC[0] and SYNC[1] (10_state.md R42). -/
structure Sync where
  first : Bool
  last : Bool
  deriving DecidableEq, Repr

/-! ## The outside world, and observations of it -/

/-- The inputs of one cycle (10_state.md R20). `c2di` is the level that the target gives C2D
where the block has released it; `none` leaves it open: it is then a free draw. -/
structure CycleInput where
  rstN : Bool
  psel : Bool
  penable : Bool
  pwrite : Bool
  paddr : BitVec 6
  pwdata : Word
  c2di : Option Bool
  deriving DecidableEq, Repr

/-- An event of a wire trace (00_scope.md R9). -/
inductive WireEvent
  /-- a strobe with C2D released whose sample is not used -/
  | z
  /-- a strobe with C2D driven -/
  | o (d : Bool)
  /-- a strobe with C2D released whose sample is used -/
  | i (b : Bool)
  /-- `PULSE(l, h)` -/
  | pulse (l h : Nat)
  /-- `IDLE(n)` -/
  | idle (n : Nat)
  deriving DecidableEq, Repr

/-- The model's own fields: no rule of the spec gives them to the block (assumption log 3, 4, 8). -/
structure Env where
  /-- the inputs of the coming cycles, this one first; after the last the host is silent and the pin is free -/
  inputs : List CycleInput
  /-- how many free values have been drawn -/
  draws : Nat
  /-- the wire events completed so far, oldest first; no step reads it -/
  trace : List WireEvent
  /-- what the last completed host read returned; no step reads it -/
  prdata : Word
  deriving DecidableEq, Repr

/-! ## State -/

/-- Everything the spec gives the block, and the model's own `env`. -/
structure State where
  /-- CTRL.IE (10_state.md R25) -/
  ie : Bool
  status : Status
  result : Result
  timing : Timing
  /-- DEVCFG.FPDAT (R37) -/
  fpdat : Byte
  /-- BUFPTR.PTR (R38) -/
  ptr : Byte
  /-- BUF (R41) -/
  buf : Memory
  cur : Latched
  seq : Sequencer
  lines : Lines
  sync : Sync
  env : Env
  deriving DecidableEq, Repr

/-- The sequencer when idle after reset (10_state.md R49; PHASE, SAMPLE_LATCH, RESP_VALID and the pending finish are
DESIGN CHOICE, assumption log 5). -/
def Sequencer.reset : Sequencer :=
  { todo := []
    fin := { data := .zero, checked := false, counted := false }
    event := none
    loopI := 0
    loopN := 0
    phase := .setup
    count := 0
    shift := 0
    bitCount := 0
    sampleLatch := false
    lastStatus := 0
    lastResp := 0
    respValid := false
    fst := 0 }

/-- The state right after reset (10_state.md R49). Nothing has written BUF: no index is listed. The host is silent. -/
def State.reset : State :=
  { ie := false
    status := { busy := false, done := false, ok := false, err := false, errCode := 0, fstage := 0 }
    result := { data := 0, resp := 0, count := 0 }
    timing := { tlow := Config.tlowReset, thigh := Config.thighReset, usdiv := Config.usdivReset }
    fpdat := Config.fpdatReset
    ptr := 0
    buf := []
    cur := { op := 0, b := 0, w := 0 }
    seq := Sequencer.reset
    lines := { c2ck := true, oe := false, c2d := false }
    sync := { first := false, last := false }
    env := { inputs := [], draws := 0, trace := [], prdata := 0 } }

end Sys2Proof.Machine
end

