-- ==== Sys2Proof/Machine/Operands.lean ====
section
/-! DEFINITION. Every operand form: the codes of the frames, the normalised block size, the register fields a host
write stores and a host read gives, the cycle counts of the wire events. -/

namespace Sys2Proof.Machine

/-! ## Wire frames -/

/-- The instruction code of a frame (30_encoding.md R82). -/
def frameCode : FrameKind → BitVec 2
  | .dataRead => Config.insDataRead
  | .dataWrite => Config.insDataWrite
  | .addressRead => Config.insAddressRead
  | .addressWrite => Config.insAddressWrite

/-- The steps "send this frame". -/
def addressWriteStep (a : Byte) : SeqStep := .frame Config.insAddressWrite a
def addressReadStep : SeqStep := .frame Config.insAddressRead 0
def dataWriteStep (v : Byte) : SeqStep := .frame Config.insDataWrite v
def dataReadStep : SeqStep := .frame Config.insDataRead 0

/-- What a strobe drives on C2D: `none` when it is released (30_encoding.md R83-R86, 40_signal_byte.md R121). Every
field goes least significant bit first (20_memory.md R64). -/
def driveBit (k : FrameKind) (shift : Byte) (bit : BitVec 3) : WirePos → Option Bool
  | .start => none
  | .ins0 => some ((frameCode k).getLsbD 0)
  | .ins1 => some ((frameCode k).getLsbD 1)
  | .rsv0 => some (Config.reservedField.getLsbD 0)
  | .rsv1 => some (Config.reservedField.getLsbD 1)
  | .dataOut => some (shift.getLsbD bit.toNat)
  | .wait => none
  | .dataIn => none
  | .stop => none

/-- `r[j] <- b` (40_signal_byte.md R116). -/
def setBit (v : Byte) (j : BitVec 3) (b : Bool) : Byte :=
  let m : Byte := 1#8 <<< j.toNat
  if b then v ||| m else v &&& ~~~m

/-! ## Block operations -/

/-- The normalised size of a block operation (30_encoding.md R93). -/
def blockSize (size : Byte) : BitVec 9 := if size == 0x00#8 then 256#9 else size.setWidth 9

/-- The buffer index of the loop index `i`: BUF has an 8-bit index (20_memory.md R60, R63). -/
def bufIndex (q : Sequencer) : Nat := (q.loopI.setWidth 8).toNat

/-! ## TIMING, as stored by a host write (10_state.md R36) -/

def legalTlow (v : Byte) : Byte := if v == 0#8 then 1#8 else v

/-- The least THIGH is `P_SYNC + 1`. -/
def legalThigh (v : Byte) : Byte := if v.toNat < Config.pSync + 1 then BitVec.ofNat 8 (Config.pSync + 1) else v

def legalUsdiv (v : Byte) : Byte := if v == 0#8 then 1#8 else v

/-- What a write of `w` to TIMING stores. -/
def timingOfWord (w : Word) : Timing :=
  { tlow := legalTlow (w.extractLsb' 0 8)
    thigh := legalThigh (w.extractLsb' 8 8)
    usdiv := legalUsdiv (w.extractLsb' 16 8) }

/-- TIMING as read: bits 31:24 are 0. -/
def timingWord (t : Timing) : Word := (0#8 ++ t.usdiv ++ t.thigh ++ t.tlow : BitVec 32)

/-- RESULT as read: bits 31:25 are 0 (10_state.md R35). -/
def resultWord (r : Result) : Word := (0#7 ++ r.count ++ r.resp ++ r.data : BitVec 32)

/-- A byte field at bits 7:0 as read. -/
def byteWord (v : Byte) : Word := v.setWidth 32

/-! ## Cycle counts -/

/-- Cycles of the LOW phase (40_signal_byte.md R110, 43_flash_programming.md R160). -/
def lowCycles (t : Timing) : Event → BitVec 23
  | .strobe _ _ => t.tlow.setWidth 23
  | .pulse => BitVec.ofNat 23 (Config.rstLowUs * t.usdiv.toNat)
  | .settle => 0

/-- Cycles of the HIGH phase; the whole of `IDLE` is one HIGH phase (43_flash_programming.md R161). -/
def highCycles (t : Timing) : Event → BitVec 23
  | .strobe _ _ => t.thigh.setWidth 23
  | .pulse => BitVec.ofNat 23 (Config.rstHighUs * t.usdiv.toNat)
  | .settle => BitVec.ofNat 23 (Config.settleMs * 1000 * t.usdiv.toNat)

/-! ## Host registers -/

/-- The registers of the window (10_state.md R23). -/
inductive HostReg
  | ctrl
  | status
  | cmd
  | result
  | timing
  | devcfg
  | bufptr
  | bufdata
  | reserved
  deriving DecidableEq, Repr

/-- The register at a byte offset; `paddr[1:0]` is ignored (10_state.md R22, R23, R40). -/
def hostReg (paddr : BitVec 6) : HostReg :=
  match paddr.toNat / 4 with
  | 0 => .ctrl
  | 1 => .status
  | 2 => .cmd
  | 3 => .result
  | 4 => .timing
  | 5 => .devcfg
  | 6 => .bufptr
  | 7 => .bufdata
  | _ => .reserved

/-- The offset of a register; the first reserved one for `reserved`. -/
def hostOffset : HostReg → BitVec 6
  | .ctrl => 0x00
  | .status => 0x04
  | .cmd => 0x08
  | .result => 0x0C
  | .timing => 0x10
  | .devcfg => 0x14
  | .bufptr => 0x18
  | .bufdata => 0x1C
  | .reserved => 0x20

/-- Where a register stands in the host's address map (20_memory.md R70). -/
def hostAddress (r : HostReg) : Nat := Config.pBase + (hostOffset r).toNat

end Sys2Proof.Machine
end

