-- ==== Sys2Proof/Machine/Flags.lean ====
section
/-! DEFINITION. Every flag computation: the error codes, STATUS at acceptance, at a HostError, at an acknowledgement
and at `finish`, STATUS as read, the interrupt request, the conditions the polling engine tests. -/

namespace Sys2Proof.Machine

/-! ## Host-interface errors (60_exceptions.md R201) -/

/-- The four errors a refused host access records. -/
inductive HostError
  | illegalOp
  | busyWrite
  | busyRead
  | illegalOperand
  deriving DecidableEq, Repr

/-- The code of an error, as STATUS.ERRCODE holds it. -/
def HostError.code : HostError → BitVec 4
  | .illegalOp => 1
  | .busyWrite => 2
  | .busyRead => 3
  | .illegalOperand => 4

/-- `raise HostError(code)` on STATUS: the latest error wins (10_state.md R30). -/
def statusRaise (e : HostError) (t : Status) : Status := { t with err := true, errCode := e.code }

/-- A host write to STATUS: write 1 to clear on bits 1 and 3, nothing else (10_state.md R33, R28, R30). -/
def statusAcknowledge (w : Word) (t : Status) : Status :=
  { t with
    done := t.done && !w.getLsbD 1
    err := t.err && !w.getLsbD 3
    errCode := if w.getLsbD 3 then 0 else t.errCode }

/-! ## Acceptance and finish -/

/-- STATUS at acceptance (10_state.md R43): ERR and ERRCODE stay (R30). -/
def statusAccept (t : Status) : Status := { t with busy := true, done := false, ok := false, fstage := 0 }

/-- STATUS at `finish` (10_state.md R44). -/
def statusFinish (ok : Bool) (fstage : BitVec 2) (t : Status) : Status :=
  { t with busy := false, done := true, ok := ok, fstage := fstage }

/-- The comparison of `ok_or_not`, exact on all 8 bits (42_status_polling.md R142). -/
def isSuccess (r : Byte) : Bool := r == Config.successByte

/-- The exit condition of `wait_for_bit`: `((s & m) != 0) == (e == 1)` (42_status_polling.md R140). -/
def pollMet (mask : Byte) (expected : Bool) (status : Byte) : Bool := ((status &&& mask) != 0#8) == expected

/-- RESPV: LAST_RESP if an `ok_or_not` ran, else 0x00 (42_status_polling.md). -/
def respv (q : Sequencer) : Byte := if q.respValid then q.lastResp else 0

/-- The `ok` argument of the `finish` that ends the operation. -/
def finishOk (q : Sequencer) : Bool := !q.fin.checked || isSuccess q.lastResp

/-- The `fstage` argument: 0, or FST when the last check rejected (10_state.md R31). -/
def finishStage (q : Sequencer) : BitVec 2 := if finishOk q then 0 else q.fst

/-- The `data` argument. -/
def finishData (q : Sequencer) : Byte :=
  match q.fin.data with
  | .zero => 0
  | .frameByte => q.shift
  | .status => q.lastStatus
  | .response => q.lastResp

/-- The `count` argument. -/
def finishCount (q : Sequencer) : BitVec 9 := if q.fin.counted then q.loopN else 0

/-! ## STATUS as read, and the interrupt -/

/-- A bit as a one-bit vector. -/
def bit (b : Bool) : BitVec 1 := BitVec.ofBool b

/-- STATUS as read (10_state.md R26, R32). -/
def statusWord (s : State) : Word :=
  (0#12 ++ bit s.sync.last ++ bit s.lines.c2d ++ bit s.lines.oe ++ bit s.lines.c2ck ++ 0#6 ++ s.status.fstage ++
    s.status.errCode ++ bit s.status.err ++ bit s.status.ok ++ bit s.status.done ++ bit s.status.busy : BitVec 32)

/-- `irq = CTRL.IE & (STATUS.DONE | STATUS.ERR)` (60_exceptions.md R205). -/
def irq (s : State) : Bool := s.ie && (s.status.done || s.status.err)

end Sys2Proof.Machine
end

