-- ==== Sys2Proof/Machine/Ops.lean ====
section
/-! DEFINITION. The operations the meanings share: the block buffer, raising a HostError and acknowledging it,
beginning a wire event, beginning a frame, `command_init`, acceptance of an operation, `finish`, reset. -/

namespace Sys2Proof.Machine

/-- Go on with the next state; stop with a fault or a refusal. -/
def andThen (x : Outcome State Fault Refusal) (f : State → Outcome State Fault Refusal) : Outcome State Fault Refusal :=
  match x with
  | .next s => f s
  | .fault r => .fault r
  | .refused r => .refused r

/-! ## BUF (10_state.md R41) -/

/-- The byte at an index, if something has written it. -/
def Memory.read : Memory → Nat → Option Byte
  | [], _ => none
  | (k, v) :: m, i => if k = i then some v else Memory.read m i

/-- Write a byte, keeping the indices rising. -/
def Memory.write : Memory → Nat → Byte → Memory
  | [], i, v => [(i, v)]
  | (k, u) :: m, i, v =>
    if i < k then (i, v) :: (k, u) :: m
    else if k = i then (i, v) :: m
    else (k, u) :: Memory.write m i v

/-- Every index of the list is at least `lo` and the indices strictly rise. -/
def Memory.risingFrom : Nat → Memory → Bool
  | _, [] => true
  | lo, (k, _) :: m => decide (lo ≤ k) && Memory.risingFrom (k + 1) m

/-- The canonical form: strictly rising indices, all of them below 256. An unlisted index reads as a free value, so no
byte value is left out of the list. -/
def Memory.wf (m : Memory) : Bool := Memory.risingFrom 0 m && m.all (fun c => decide (c.1 < Config.bufSize))

/-- `MemRead(BUF, i, 1)`: a byte nothing has written is a fresh free value (93_implementation_defined.md U-1). -/
def bufByte (s : State) (i : Nat) : Byte := (s.buf.read i).getD (Config.freeByte s.env.draws)

/-- A read of a byte nothing has written uses up one free value. -/
def drawForByte (i : Nat) (s : State) : State :=
  match s.buf.read i with
  | some _ => s
  | none => { s with env := { s.env with draws := s.env.draws + 1 } }

/-- `MemWrite(BUF, i, 1, v)`. -/
def setBufByte (i : Nat) (v : Byte) (s : State) : State := { s with buf := s.buf.write i v }

/-! ## Host-interface errors: the block's one exception mechanism (60_exceptions.md R201, R208, R209) -/

/-- `raise HostError(code)`: ERR and ERRCODE are written, nothing else changes; no state is saved, no mode changes and
the sequencer goes on (60_exceptions.md R201, R208). -/
def raiseHostError (e : HostError) (s : State) : State := { s with status := statusRaise e s.status }

/-- The return from an error: the host's acknowledgement by a write to STATUS (60_exceptions.md R209). -/
def acknowledge (w : Word) (s : State) : State := { s with status := statusAcknowledge w s.status }

/-! ## C2D -/

/-- The level of C2D: what the block drives, and while it has released the line the given level, which is the target's.
No other driver has a move (70_reset_and_hazards.md R230, 93_implementation_defined.md U-15, assumption log 15). -/
def c2dLevel (l : Lines) (released : Bool) : Bool := if l.oe then l.c2d else released

/-! ## Wire events -/

/-- Replace what is left to do. -/
def withTodo (t : List SeqStep) (s : State) : State := { s with seq := { s.seq with todo := t } }

/-- The SETUP cycle of a strobe of a frame (40_signal_byte.md R110): C2CK high, direction and, when driven, data
applied; a released line keeps `c2d_o` (10_state.md R47). -/
def beginStrobe (k : FrameKind) (p : WirePos) (s : State) : State :=
  let d := driveBit k s.seq.shift s.seq.bitCount p
  { s with
    seq := { s.seq with event := some (.strobe k p), phase := .setup, count := 0 }
    lines := { c2ck := true, oe := d.isSome, c2d := d.getD s.lines.c2d } }

/-- Begin a frame: the byte to send is in SHIFT (0 for a read), and the START strobe begins (40_signal_byte.md R117). -/
def beginFrame (k : FrameKind) (byte : Byte) (s : State) : State :=
  beginStrobe k .start { s with seq := { s.seq with shift := byte, bitCount := 0 } }

/-- `address_write(a)`, `address_read()`, `data_write(v)`, `data_read()` (41_transactions.md R130-R133). -/
def beginAddressWrite (a : Byte) (s : State) : State := beginFrame .addressWrite a s
def beginAddressRead (s : State) : State := beginFrame .addressRead 0 s
def beginDataWrite (v : Byte) (s : State) : State := beginFrame .dataWrite v s
def beginDataRead (s : State) : State := beginFrame .dataRead 0 s

/-- The SETUP cycle of the reset pulse (43_flash_programming.md R160). -/
def beginPulse (s : State) : State :=
  { s with
    seq := { s.seq with event := some .pulse, phase := .setup, count := 0 }
    lines := { s.lines with c2ck := true, oe := false } }

/-- The first cycle of `IDLE` (43_flash_programming.md R161): the lines idle for the counted cycles. -/
def beginSettle (s : State) : State :=
  { s with
    seq := { s.seq with event := some .settle, phase := .high, count := highCycles s.timing .settle }
    lines := { s.lines with c2ck := true, oe := false } }

/-! ## Helpers of the polling engine as steps (42_status_polling.md) -/

/-- `write_with_busy(v)` (R144). -/
def writeWithBusy (v : Byte) : List SeqStep := [dataWriteStep v, .poll Config.maskInputBusy false]

/-- `read_with_ready()` (R146). -/
def readWithReady : List SeqStep := [.poll Config.maskOutputReady true, dataReadStep]

/-- What `command_init(c)` does after its address write (R148). -/
def commandRest (c : Byte) : List SeqStep := writeWithBusy c ++ [.poll Config.maskOutputReady true, .check]

/-- `command_init(c)` (R148): the address write of DEVCFG.FPDAT begins, and the rest of the helper stands before what
the operation had left to do. -/
def commandInit (c : Byte) (s : State) : State :=
  beginAddressWrite s.fpdat (withTodo (commandRest c ++ s.seq.todo) s)

/-! ## Acceptance and finish -/

/-- CUR_OP, CUR_B, CUR_W of a CMD word (10_state.md R43). -/
def latchedOf (w : Word) : Latched := { op := opField w, b := bField w, w := wField w }

/-- The effect of acceptance (10_state.md R43): the operand fields are latched, the status flags and the per-operation
registers are cleared, and the operation's steps stand ready. `n` is the normalised size of a block operation. -/
def accepted (w : Word) (steps : List SeqStep) (fin : Finish) (n : BitVec 9) (s : State) : State :=
  { s with
    status := statusAccept s.status
    cur := latchedOf w
    seq :=
      { s.seq with
        todo := steps
        fin := fin
        event := none
        loopI := 0
        loopN := n
        lastStatus := 0
        lastResp := 0
        respValid := false
        fst := 0 } }

/-- The decode step of a CMD write that selects operation `i` (10_state.md R43): refused while busy, else accepted. -/
def acceptOp (i : Instr) (steps : List SeqStep) (fin : Finish) (n : BitVec 9) (s : State) :
    Outcome State Fault Refusal :=
  if s.status.busy then .next (raiseHostError .busyWrite s)
  else .next (accepted (encodeCmd i) steps fin n s)

/-- `finish(ok, data, resp, count, fstage)` (10_state.md R44): no line output changes; the sequencer is idle. -/
def finishWith (ok : Bool) (data resp : Byte) (count : BitVec 9) (fstage : BitVec 2) (s : State) : State :=
  { s with
    status := statusFinish ok fstage s.status
    result := { data := data, resp := resp, count := count }
    seq := { s.seq with todo := [], event := none } }

/-- The `finish` at the end of an operation's steps. -/
def finishOp (s : State) : State :=
  finishWith (finishOk s.seq) (finishData s.seq) (respv s.seq) (finishCount s.seq) (finishStage s.seq) s

/-- `finish(0, 0x00, RESPV, 0, FST); stop_op` (43_flash_programming.md). -/
def finishRejected (s : State) : State := finishWith false 0 (respv s.seq) 0 s.seq.fst s

/-! ## Reset (70_reset_and_hazards.md R220) -/

/-- A rising edge with `rst_n = 0`: every register takes its reset value and the sequencer is idle; BUF keeps what it
held (R220, R221), and so do the model's own fields. -/
def resetEdge (s : State) : State := { State.reset with buf := s.buf, env := s.env }

end Sys2Proof.Machine
end

