-- ==== Sys2Proof/Machine/Command.lean ====
section
/-! DEFINITION. The flash-programming command codes (30_encoding.md R95): the sequencer runs `command_init` of the code
(42_status_polling.md R148). No sequence of the block issues 0x01, 0x02, 0x08, 0x0B or 0x0C; a host issues them through
CINIT (30_encoding.md R101). -/

namespace Sys2Proof.Machine

/-- FP_GET_VERSION, 0x01. -/
def execFpGetVersion (s : State) : Outcome State Fault Refusal := .next (commandInit Config.cmdGetVersion s)

/-- FP_GET_DERIVATIVE, 0x02. -/
def execFpGetDerivative (s : State) : Outcome State Fault Refusal := .next (commandInit Config.cmdGetDerivative s)

/-- FP_DEVICE_ERASE, 0x03. -/
def execFpDeviceErase (s : State) : Outcome State Fault Refusal := .next (commandInit Config.cmdDeviceErase s)

/-- FP_BLOCK_READ, 0x06. -/
def execFpBlockRead (s : State) : Outcome State Fault Refusal := .next (commandInit Config.cmdBlockRead s)

/-- FP_BLOCK_WRITE, 0x07. -/
def execFpBlockWrite (s : State) : Outcome State Fault Refusal := .next (commandInit Config.cmdBlockWrite s)

/-- FP_PAGE_ERASE, 0x08. -/
def execFpPageErase (s : State) : Outcome State Fault Refusal := .next (commandInit Config.cmdPageErase s)

/-- FP_DIRECT_READ, 0x09. -/
def execFpDirectRead (s : State) : Outcome State Fault Refusal := .next (commandInit Config.cmdDirectRead s)

/-- FP_DIRECT_WRITE, 0x0A. -/
def execFpDirectWrite (s : State) : Outcome State Fault Refusal := .next (commandInit Config.cmdDirectWrite s)

/-- FP_INDIRECT_READ, 0x0B. -/
def execFpIndirectRead (s : State) : Outcome State Fault Refusal := .next (commandInit Config.cmdIndirectRead s)

/-- FP_INDIRECT_WRITE, 0x0C. -/
def execFpIndirectWrite (s : State) : Outcome State Fault Refusal := .next (commandInit Config.cmdIndirectWrite s)

end Sys2Proof.Machine
end

