-- ==== Sys2Proof/Machine/Flash.lean ====
section
/-! DEFINITION. The flash programming layer: RESET, INIT, WSFR, RSFR, WDIR, RDIR, ERASE, WBLK, RBLK
(43_flash_programming.md). -/

namespace Sys2Proof.Machine

/-- `if command_init(c) == 0: finish(0, 0x00, RESPV, 0, FST); stop_op`. -/
def commandOrStop (c : Byte) : List SeqStep := [.command c, .stopIfRejected]

/-- What WBLK and RBLK do before their byte loop (R169, R170): the address goes high byte first, the size byte as given
(30_encoding.md R93, R94). -/
def blockHeader (c : Byte) (flashAddr : Half) (size : Byte) : List SeqStep :=
  commandOrStop c ++ writeWithBusy (highByte flashAddr) ++ writeWithBusy (lowByte flashAddr) ++ writeWithBusy size ++
    [.poll Config.maskOutputReady true, .check, .stopIfRejected]

/-- RESET (R162): `reset(); finish(1, 0x00, 0x00, 0, 0)`. -/
def execReset (s : State) : Outcome State Fault Refusal :=
  acceptOp .reset [.pulse] { data := .zero, checked := false, counted := false } 0 s

/-- INIT (R163): the reset pulse, the key bytes to flash control by plain data writes, the settle delay. -/
def execInit (s : State) : Outcome State Fault Refusal :=
  acceptOp .init
    [.pulse, addressWriteStep Config.addrFlashControl, dataWriteStep Config.key0, dataWriteStep Config.key1,
      dataWriteStep Config.key2, .settle]
    { data := .zero, checked := false, counted := false } 0 s

/-- WSFR (R164): `address_write(CUR_B); data_write(CUR_W[7:0])`. -/
def execWsfr (a v : Byte) (s : State) : Outcome State Fault Refusal :=
  acceptOp (.wsfr a v) [addressWriteStep a, dataWriteStep v] { data := .zero, checked := false, counted := false } 0 s

/-- RSFR (R165): `address_write(CUR_B); d <- data_read()`. -/
def execRsfr (a : Byte) (s : State) : Outcome State Fault Refusal :=
  acceptOp (.rsfr a) [addressWriteStep a, dataReadStep] { data := .frameByte, checked := false, counted := false } 0 s

/-- WDIR (R166): address, count 1 and value with busy framing, unless the command is rejected. -/
def execWdir (a v : Byte) (s : State) : Outcome State Fault Refusal :=
  acceptOp (.wdir a v)
    (commandOrStop Config.cmdDirectWrite ++ writeWithBusy a ++ writeWithBusy Config.directCount ++ writeWithBusy v)
    { data := .zero, checked := false, counted := false } 0 s

/-- RDIR (R167): address and count 1, a poll for output-ready clear, then the byte. -/
def execRdir (a : Byte) (s : State) : Outcome State Fault Refusal :=
  acceptOp (.rdir a)
    (commandOrStop Config.cmdDirectRead ++ writeWithBusy a ++ writeWithBusy Config.directCount ++
      [.poll Config.maskOutputReady false] ++ readWithReady)
    { data := .frameByte, checked := false, counted := false } 0 s

/-- ERASE (R168): the arming bytes, then the second check. -/
def execErase (s : State) : Outcome State Fault Refusal :=
  acceptOp .erase
    (commandOrStop Config.cmdDeviceErase ++ writeWithBusy Config.arm0 ++ writeWithBusy Config.arm1 ++
      writeWithBusy Config.arm2 ++ [.poll Config.maskOutputReady true, .check])
    { data := .zero, checked := true, counted := false } 0 s

/-- WBLK (R169): the header, the bytes of BUF with busy framing, a last poll and no further check. -/
def execWblk (flashAddr : Half) (size : Byte) (s : State) : Outcome State Fault Refusal :=
  acceptOp (.wblk flashAddr size)
    (blockHeader Config.cmdBlockWrite flashAddr size ++ [.sendBlock, .poll Config.maskOutputReady true])
    { data := .zero, checked := false, counted := true } (blockSize size) s

/-- RBLK (R170): the header, then the bytes into BUF, no poll after the last. -/
def execRblk (flashAddr : Half) (size : Byte) (s : State) : Outcome State Fault Refusal :=
  acceptOp (.rblk flashAddr size) (blockHeader Config.cmdBlockRead flashAddr size ++ [.receiveBlock])
    { data := .zero, checked := false, counted := true } (blockSize size) s

end Sys2Proof.Machine
end

