-- ==== Sys2Proof/Machine/Polling.lean ====
section
/-! DEFINITION. The operations of the status polling engine: WFB, OKQ, CINIT, WRB, RDR (42_status_polling.md). -/

namespace Sys2Proof.Machine

/-- WFB (R141): `s <- wait_for_bit(CUR_B, CUR_W[0]); finish(1, s, 0x00, 0, 0)`; mask 0x00 with expected 1 raises
ILLEGAL_OPERAND (30_encoding.md R92), after the busy check (60_exceptions.md R207). -/
def execWfb (m : Byte) (e : Bool) (s : State) : Outcome State Fault Refusal :=
  if !s.status.busy && !WellFormed (.wfb m e) then .next (raiseHostError .illegalOperand s)
  else acceptOp (.wfb m e) [.poll m e] { data := .status, checked := false, counted := false } 0 s

/-- OKQ (R143): `ok <- ok_or_not(); finish(ok, LAST_RESP, LAST_RESP, 0, (ok == 1) ? 0 : FST)`. -/
def execOkq (s : State) : Outcome State Fault Refusal :=
  acceptOp .okq [.check] { data := .response, checked := true, counted := false } 0 s

/-- CINIT (R149): `ok <- command_init(CUR_B); finish(ok, LAST_RESP, LAST_RESP, 0, (ok == 1) ? 0 : FST)`. -/
def execCinit (c : Byte) (s : State) : Outcome State Fault Refusal :=
  acceptOp (.cinit c) [.command c] { data := .response, checked := true, counted := false } 0 s

/-- WRB (R145): `write_with_busy(CUR_B); finish(1, 0x00, 0x00, 0, 0)`. -/
def execWrb (v : Byte) (s : State) : Outcome State Fault Refusal :=
  acceptOp (.wrb v) (writeWithBusy v) { data := .zero, checked := false, counted := false } 0 s

/-- RDR (R147): `d <- read_with_ready(); finish(1, d, 0x00, 0, 0)`. -/
def execRdr (s : State) : Outcome State Fault Refusal :=
  acceptOp .rdr readWithReady { data := .frameByte, checked := false, counted := false } 0 s

end Sys2Proof.Machine
end

