-- ==== Sys2Proof/Machine/Transaction.lean ====
section
/-! DEFINITION. The transaction framing operations AW, AR, DW, DR (41_transactions.md). Each meaning is the decode step
of its CMD write (10_state.md R43): it leaves the steps of the operation's pseudocode to the sequencer. -/

namespace Sys2Proof.Machine

/-- AW (R130): `address_write(CUR_B); finish(1, 0x00, 0x00, 0, 0)`. -/
def execAw (a : Byte) (s : State) : Outcome State Fault Refusal :=
  acceptOp (.aw a) [addressWriteStep a] { data := .zero, checked := false, counted := false } 0 s

/-- AR (R131): `s <- address_read(); finish(1, s, 0x00, 0, 0)`. -/
def execAr (s : State) : Outcome State Fault Refusal :=
  acceptOp .ar [addressReadStep] { data := .frameByte, checked := false, counted := false } 0 s

/-- DW (R132): `data_write(CUR_B); finish(1, 0x00, 0x00, 0, 0)`. -/
def execDw (v : Byte) (s : State) : Outcome State Fault Refusal :=
  acceptOp (.dw v) [dataWriteStep v] { data := .zero, checked := false, counted := false } 0 s

/-- DR (R133): `d <- data_read(); finish(1, d, 0x00, 0, 0)`. -/
def execDr (s : State) : Outcome State Fault Refusal :=
  acceptOp .dr [dataReadStep] { data := .frameByte, checked := false, counted := false } 0 s

end Sys2Proof.Machine
end

