-- ==== Sys2Proof/Machine/Wire.lean ====
section
/-! DEFINITION. The wire instructions: the sequencer begins the frame (30_encoding.md R81-R86). The rest of the frame
follows strobe by strobe (Machine/Sequencer.lean). -/

namespace Sys2Proof.Machine

/-- C2_DR (R86): a data-read frame begins. -/
def execC2Dr (s : State) : Outcome State Fault Refusal := .next (beginDataRead s)

/-- C2_DW (R85): a data-write frame of `v` begins. -/
def execC2Dw (v : Byte) (s : State) : Outcome State Fault Refusal := .next (beginDataWrite v s)

/-- C2_AR (R84): an address-read frame begins. -/
def execC2Ar (s : State) : Outcome State Fault Refusal := .next (beginAddressRead s)

/-- C2_AW (R83): an address-write frame of `a` begins. -/
def execC2Aw (a : Byte) (s : State) : Outcome State Fault Refusal := .next (beginAddressWrite a s)

end Sys2Proof.Machine
end

