-- ==== Sys2Proof/Machine/Dispatch.lean ====
section
/-! DEFINITION. One arm per instruction. -/

namespace Sys2Proof.Machine

def exec (i : Instr) (s : State) : Host.Outcome State Fault Refusal :=
  match i with
  | .aw a => Sys2Proof.Machine.execAw a s
  | .ar => Sys2Proof.Machine.execAr s
  | .dw v => Sys2Proof.Machine.execDw v s
  | .dr => Sys2Proof.Machine.execDr s
  | .wfb m e => Sys2Proof.Machine.execWfb m e s
  | .okq => Sys2Proof.Machine.execOkq s
  | .cinit c => Sys2Proof.Machine.execCinit c s
  | .wrb v => Sys2Proof.Machine.execWrb v s
  | .rdr => Sys2Proof.Machine.execRdr s
  | .reset => Sys2Proof.Machine.execReset s
  | .init => Sys2Proof.Machine.execInit s
  | .wsfr a v => Sys2Proof.Machine.execWsfr a v s
  | .rsfr a => Sys2Proof.Machine.execRsfr a s
  | .wdir a v => Sys2Proof.Machine.execWdir a v s
  | .rdir a => Sys2Proof.Machine.execRdir a s
  | .erase => Sys2Proof.Machine.execErase s
  | .wblk fa n => Sys2Proof.Machine.execWblk fa n s
  | .rblk fa n => Sys2Proof.Machine.execRblk fa n s
  | .c2Dr => Sys2Proof.Machine.execC2Dr s
  | .c2Dw v => Sys2Proof.Machine.execC2Dw v s
  | .c2Ar => Sys2Proof.Machine.execC2Ar s
  | .c2Aw a => Sys2Proof.Machine.execC2Aw a s
  | .fpGetVersion => Sys2Proof.Machine.execFpGetVersion s
  | .fpGetDerivative => Sys2Proof.Machine.execFpGetDerivative s
  | .fpDeviceErase => Sys2Proof.Machine.execFpDeviceErase s
  | .fpBlockRead => Sys2Proof.Machine.execFpBlockRead s
  | .fpBlockWrite => Sys2Proof.Machine.execFpBlockWrite s
  | .fpPageErase => Sys2Proof.Machine.execFpPageErase s
  | .fpDirectRead => Sys2Proof.Machine.execFpDirectRead s
  | .fpDirectWrite => Sys2Proof.Machine.execFpDirectWrite s
  | .fpIndirectRead => Sys2Proof.Machine.execFpIndirectRead s
  | .fpIndirectWrite => Sys2Proof.Machine.execFpIndirectWrite s

end Sys2Proof.Machine
end

