-- ==== Sys2Proof/Machine/Sequencer.lean ====
section
/-! DEFINITION. The sequencer: it fetches the next wire instruction or command code of the running operation, decodes
it and runs it; it takes a frame from strobe to strobe, and a strobe from cycle to cycle (10_state.md R24,
40_signal_byte.md R110-R121). -/

namespace Sys2Proof.Machine

/-! ## Fetching: every decision between events takes no cycle (40_signal_byte.md R118) -/

/-- Issue the frame whose instruction code and byte are given: decode it and run it. -/
def issueFrame (ins : BitVec 2) (byte : Byte) (s : State) : Outcome State Fault Refusal :=
  exec (decodeWire ins byte) s

/-- Issue a command code: decode it and run it; a byte outside the table is sent by the same helper (30_encoding.md
R101). -/
def issueCommand (code : Byte) (s : State) : Outcome State Fault Refusal :=
  match decodeCommand code with
  | .ok i => exec i s
  | .error _ => .next (commandInit code s)

/-- `LAST_STATUS <- s` (42_status_polling.md R140). -/
def recordStatus (s : State) : State := { s with seq := { s.seq with lastStatus := s.seq.shift } }

/-- `LAST_RESP <- r; RESP_VALID <- 1; FST <- FST + 1` (42_status_polling.md R142). -/
def recordResponse (s : State) : State :=
  { s with seq := { s.seq with lastResp := s.seq.shift, respValid := true, fst := s.seq.fst + 1 } }

/-- `i <- i + 1`. -/
def bumpIndex (s : State) : State := { s with seq := { s.seq with loopI := s.seq.loopI + 1 } }

/-- Go through the steps left until one of them begins a wire event, or until none is left and the operation
finishes. -/
def fetch : List SeqStep → State → Outcome State Fault Refusal
  | [], s => .next (finishOp s)
  | .frame ins byte :: rest, s => issueFrame ins byte (withTodo rest s)
  | .command code :: rest, s => issueCommand code (withTodo rest s)
  | .poll m e :: rest, s => issueFrame Config.insAddressRead 0 (withTodo (.pollTest m e :: rest) s)
  | .pollTest m e :: rest, s =>
    if pollMet m e s.seq.shift then fetch rest (recordStatus s)
    else issueFrame Config.insAddressRead 0 (withTodo (.pollTest m e :: rest) (recordStatus s))
  | .check :: rest, s => issueFrame Config.insDataRead 0 (withTodo (.checkRecord :: rest) s)
  | .checkRecord :: rest, s => fetch rest (recordResponse s)
  | .stopIfRejected :: rest, s => if isSuccess s.seq.lastResp then fetch rest s else .next (finishRejected s)
  | .sendBlock :: rest, s =>
    if s.seq.loopI < s.seq.loopN then
      issueFrame Config.insDataWrite (bufByte s (bufIndex s.seq))
        (withTodo (.poll Config.maskInputBusy false :: .nextIndex :: .sendBlock :: rest)
          (drawForByte (bufIndex s.seq) s))
    else fetch rest s
  | .receiveBlock :: rest, s =>
    if s.seq.loopI < s.seq.loopN then
      issueFrame Config.insAddressRead 0
        (withTodo
          (.pollTest Config.maskOutputReady true :: dataReadStep :: .storeByte :: .nextIndex :: .receiveBlock :: rest)
          s)
    else fetch rest s
  | .storeByte :: rest, s => fetch rest (setBufByte (bufIndex s.seq) s.seq.shift s)
  | .nextIndex :: rest, s => fetch rest (bumpIndex s)
  | .pulse :: rest, s => .next (beginPulse (withTodo rest s))
  | .settle :: rest, s => .next (beginSettle (withTodo rest s))

/-- Fetch from the steps the sequencer holds. -/
def fetchNext (s : State) : Outcome State Fault Refusal := fetch s.seq.todo s

/-! ## From strobe to strobe -/

/-- What follows the body of a frame's header (30_encoding.md R83-R86). -/
def afterHeader : FrameKind → WirePos
  | .addressWrite => .dataOut
  | .addressRead => .dataIn
  | .dataWrite => .rsv0
  | .dataRead => .rsv0

/-- The strobe that follows a strobe at position `p`, whose sample was `b`, in a frame of kind `k`; `none` after STOP
(30_encoding.md R83-R86, 40_signal_byte.md R120). -/
def nextPos (k : FrameKind) (bit : BitVec 3) (b : Bool) : WirePos → Option WirePos
  | .start => some .ins0
  | .ins0 => some .ins1
  | .ins1 => some (afterHeader k)
  | .rsv0 => some .rsv1
  | .rsv1 => some (if k = .dataWrite then .dataOut else .wait)
  | .dataOut => some (if bit = 7 then (if k = .dataWrite then .wait else .stop) else .dataOut)
  | .wait => some (if b then (if k = .dataWrite then .stop else .dataIn) else .wait)
  | .dataIn => some (if bit = 7 then .stop else .dataIn)
  | .stop => none

/-- The trace event of a strobe (00_scope.md R9). -/
def strobeEvent (k : FrameKind) (shift : Byte) (bit : BitVec 3) (b : Bool) (p : WirePos) : WireEvent :=
  match driveBit k shift bit p with
  | some d => .o d
  | none =>
    match p with
    | .wait => .i b
    | .dataIn => .i b
    | .start => .z
    | .ins0 => .z
    | .ins1 => .z
    | .rsv0 => .z
    | .rsv1 => .z
    | .dataOut => .z
    | .stop => .z

/-- Note a completed wire event in the trace. -/
def noteEvent (e : WireEvent) (s : State) : State := { s with env := { s.env with trace := s.env.trace ++ [e] } }

/-- SHIFT and the bit counter after a strobe: a sampled data bit goes to its place, and the counter moves on after a
data bit sent or received. -/
def shiftData (p : WirePos) (b : Bool) (s : State) : State :=
  match p with
  | .dataIn =>
    { s with
      seq := { s.seq with shift := setBit s.seq.shift s.seq.bitCount b, bitCount := s.seq.bitCount + 1 } }
  | .dataOut => { s with seq := { s.seq with bitCount := s.seq.bitCount + 1 } }
  | .start => s
  | .ins0 => s
  | .ins1 => s
  | .rsv0 => s
  | .rsv1 => s
  | .wait => s
  | .stop => s

/-- `SAMPLE_LATCH <- SYNC[P_SYNC-1]` at the end of every strobe (40_signal_byte.md R110). -/
def latchSample (b : Bool) (s : State) : State := { s with seq := { s.seq with sampleLatch := b } }

/-- The edge that ends the last cycle of a strobe: the sample is latched, and the next strobe of the frame begins, or
after STOP the sequencer goes on. -/
def strobeDone (k : FrameKind) (p : WirePos) (s : State) : Outcome State Fault Refusal :=
  let b := s.sync.last
  let t := shiftData p b
    (noteEvent (strobeEvent k s.seq.shift s.seq.bitCount b p) (latchSample b s))
  match nextPos k s.seq.bitCount b p with
  | some q => .next (beginStrobe k q t)
  | none => fetchNext t

/-- The edge that ends the last cycle of a wire event. -/
def eventDone (e : Event) (s : State) : Outcome State Fault Refusal :=
  match e with
  | .strobe k p => strobeDone k p s
  | .pulse =>
    fetchNext
      (noteEvent (.pulse (Config.rstLowUs * s.timing.usdiv.toNat) (Config.rstHighUs * s.timing.usdiv.toNat)) s)
  | .settle => fetchNext (noteEvent (.idle (Config.settleMs * 1000 * s.timing.usdiv.toNat)) s)

/-! ## Trace level (00_scope.md R9, 92_eei_decisions.md D50) -/

/-- The wire event in progress completes; `b` is the level its strobe samples where C2D is released, and a driven strobe
samples what the block drives (70_reset_and_hazards.md R230). With no event nothing happens. -/
def completeEvent (b : Bool) (s : State) : Outcome State Fault Refusal :=
  match s.seq.event with
  | none => .next s
  | some e => eventDone e { s with sync := { s.sync with last := c2dLevel s.lines b } }

/-- Wire events complete one after another, with the given sampled levels. -/
def runEvents : List Bool → State → Outcome State Fault Refusal
  | [], s => .next s
  | b :: bs, s => andThen (completeEvent b s) (runEvents bs)

/-- A whole operation at trace level: it is issued, its first event begins, and its events complete with the given
sampled levels. -/
def operate (i : Instr) (bs : List Bool) (s : State) : Outcome State Fault Refusal :=
  andThen (exec i s) fun t => andThen (fetchNext t) (runEvents bs)

/-! ## From cycle to cycle -/

/-- The next cycle of a phase, with C2CK at the level of that phase. -/
def enterPhase (ph : Phase) (n : BitVec 23) (c2ck : Bool) (s : State) : State :=
  { s with
    seq := { s.seq with phase := ph, count := n }
    lines := { s.lines with c2ck := c2ck } }

/-- One more cycle of the same phase. -/
def countDown (s : State) : State := { s with seq := { s.seq with count := s.seq.count - 1 } }

/-- One edge of a wire event in progress (40_signal_byte.md R110, 43_flash_programming.md R160, R161): SETUP is one
cycle, LOW and HIGH last their counts. -/
def tickEvent (e : Event) (s : State) : Outcome State Fault Refusal :=
  match s.seq.phase with
  | .setup => .next (enterPhase .low (lowCycles s.timing e) false s)
  | .low =>
    if 1 < s.seq.count then .next (countDown s)
    else .next (enterPhase .high (highCycles s.timing e) true s)
  | .high => if 1 < s.seq.count then .next (countDown s) else eventDone e s

/-- One edge of the sequencer: idle it does nothing; with no event in progress, which is so at the edge that accepts an
operation, it fetches; else the event goes on. -/
def sequencerEdge (s : State) : Outcome State Fault Refusal :=
  if s.status.busy then
    match s.seq.event with
    | none => fetchNext s
    | some e => tickEvent e s
  else .next s

end Sys2Proof.Machine
end

