-- ==== Sys2Proof/Machine/HostBus.lean ====
section
/-! DEFINITION. The host register interface (10_state.md R20-R40, R43, R45, R46) and one rising edge of `clk`. -/

namespace Sys2Proof.Machine

/-! ## Outputs (10_state.md R20) -/

def pready : Bool := true
def pslverr : Bool := false

/-! ## Inputs -/

/-- The inputs of a cycle in which the host is silent and the pin is free. -/
def quietInput : CycleInput :=
  { rstN := true, psel := false, penable := false, pwrite := false, paddr := 0, pwdata := 0, c2di := none }

/-- The access cycle of a host write, of a host read. -/
def writeInput (paddr : BitVec 6) (w : Word) : CycleInput :=
  { rstN := true, psel := true, penable := true, pwrite := true, paddr := paddr, pwdata := w, c2di := none }
def readInput (paddr : BitVec 6) : CycleInput :=
  { rstN := true, psel := true, penable := true, pwrite := false, paddr := paddr, pwdata := 0, c2di := none }

/-- The inputs of the present cycle. -/
def inputNow (s : State) : CycleInput := s.env.inputs.headD quietInput

/-- An access completes in a cycle with `psel = 1` and `penable = 1` (10_state.md R21). -/
def isAccess (c : CycleInput) : Bool := c.psel && c.penable
def isWrite (c : CycleInput) : Bool := isAccess c && c.pwrite
def isRead (c : CycleInput) : Bool := isAccess c && !c.pwrite

/-! ## Reads -/

/-- What a read of a register returns: the value at the start of the access cycle (10_state.md R21, R34, R39, R40). -/
def readReg (r : HostReg) (s : State) : Word :=
  match r with
  | .ctrl => (bit s.ie).setWidth 32
  | .status => statusWord s
  | .cmd => 0
  | .result => resultWord s.result
  | .timing => timingWord s.timing
  | .devcfg => byteWord s.fpdat
  | .bufptr => byteWord s.ptr
  | .bufdata => if s.status.busy then 0 else byteWord (bufByte s s.ptr.toNat)
  | .reserved => 0

/-- `PTR <- (PTR + 1) mod 256` (10_state.md R39). -/
def bumpPtr (s : State) : State := { s with ptr := s.ptr + 1 }

/-- The side effect of a read (20_memory.md R69): only a read of BUFDATA has one (10_state.md R39, R46). -/
def readEffect (r : HostReg) (s : State) : State :=
  match r with
  | .bufdata =>
    if s.status.busy then raiseHostError .busyRead s else bumpPtr (drawForByte s.ptr.toNat s)
  | .ctrl => s
  | .status => s
  | .cmd => s
  | .result => s
  | .timing => s
  | .devcfg => s
  | .bufptr => s
  | .reserved => s

/-- The data the host receives. -/
def notePrdata (v : Word) (s : State) : State := { s with env := { s.env with prdata := v } }

/-- A completed host read. -/
def hostRead (r : HostReg) (s : State) : State := notePrdata (readReg r s) (readEffect r s)

/-! ## Writes -/

/-- CUR_B and CUR_W hold the fields of the written word, those the operation ignores included (10_state.md R43). -/
def latchWord (w : Word) (s : State) : State := { s with cur := latchedOf w }

/-- A write refused while busy (10_state.md R46). -/
def unlessBusy (f : State → State) (s : State) : State :=
  if s.status.busy then raiseHostError .busyWrite s else f s

/-- The error of a CMD word that names no operation, with its code (60_exceptions.md R201). -/
def refusalError : DecodeError → HostError
  | .illegalOp => .illegalOp
  | .illegalOperand => .illegalOperand
  | .unlistedCommand => .illegalOp

/-- A write to CMD (10_state.md R43, 60_exceptions.md R207): the word is decoded and the operation it selects is run; an
accepted word is latched whole. -/
def writeCmd (w : Word) (s : State) : Outcome State Fault Refusal :=
  match decodeCmd w with
  | .ok i => if s.status.busy then exec i s else andThen (exec i s) (fun t => .next (latchWord w t))
  | .error e => .next (unlessBusy (raiseHostError (refusalError e)) s)

/-- A completed host write (10_state.md R23, R25, R33, R35-R40, R46). -/
def hostWrite (r : HostReg) (w : Word) (s : State) : Outcome State Fault Refusal :=
  match r with
  | .cmd => writeCmd w s
  | .ctrl => .next { s with ie := w.getLsbD 0 }
  | .status => .next (acknowledge w s)
  | .result => .next s
  | .timing => .next (unlessBusy (fun t => { t with timing := timingOfWord w }) s)
  | .devcfg => .next (unlessBusy (fun t => { t with fpdat := w.extractLsb' 0 8 }) s)
  | .bufptr => .next (unlessBusy (fun t => { t with ptr := w.extractLsb' 0 8 }) s)
  | .bufdata => .next (unlessBusy (fun t => bumpPtr (setBufByte t.ptr.toNat (w.extractLsb' 0 8) t)) s)
  | .reserved => .next s

/-- The bus activity of a cycle; every check uses the state at its start (10_state.md R45). -/
def busEdge (c : CycleInput) (s : State) : Outcome State Fault Refusal :=
  if isWrite c then hostWrite (hostReg c.paddr) c.pwdata s
  else if isRead c then .next (hostRead (hostReg c.paddr) s)
  else .next s

/-! ## One edge of `clk` -/

/-- The level of `c2d_i` in a cycle whose line outputs are `l`: what the block drives; with C2D released the level given,
else a free draw (40_signal_byte.md R111, 70_reset_and_hazards.md R230). -/
def pinLevel (c : CycleInput) (l : Lines) (s : State) : Bool :=
  c2dLevel l (c.c2di.getD (Config.freePin s.env.draws))

/-- A level of the released line that is left open uses up one free value. -/
def drawForPin (c : CycleInput) (l : Lines) (s : State) : State :=
  if !l.oe && c.c2di.isNone then { s with env := { s.env with draws := s.env.draws + 1 } } else s

/-- `SYNC[0] <- c2d_i`, `SYNC[1] <- SYNC[0]` (10_state.md R42), in a cycle whose line outputs are `l`. -/
def syncEdge (c : CycleInput) (l : Lines) (s : State) : State :=
  drawForPin c l { s with sync := { first := pinLevel c l s, last := s.sync.first } }

/-- The inputs of this cycle are over. -/
def dropInput (s : State) : State := { s with env := { s.env with inputs := s.env.inputs.tail } }

/-- A read of BUFDATA while idle looks at BUF, and uses up a free value where nothing has written the byte. -/
def drawForRead (r : HostReg) (s : State) : State :=
  if r = .bufdata ∧ s.status.busy = false then drawForByte s.ptr.toNat s else s

/-- The data of a read that falls in a reset cycle; it has no other effect (70_reset_and_hazards.md R220). -/
def readDuringReset (c : CycleInput) (s : State) : State :=
  if isRead c then notePrdata (readReg (hostReg c.paddr) s) (drawForRead (hostReg c.paddr) s) else s

/-- One rising edge of `clk` whose cycle had the inputs `c`. Reset wins over everything (70_reset_and_hazards.md R220).
Else the host access acts on the state at the start of the cycle, then the sequencer moves, so that a `finish` wins over
a write-1-to-clear (10_state.md R45), and last the synchroniser takes the pin of the cycle, in which the line outputs
were still those of `s`. -/
def clockEdge (c : CycleInput) (s : State) : Outcome State Fault Refusal :=
  if c.rstN then
    andThen (busEdge c s) fun t => andThen (sequencerEdge t) fun u => .next (dropInput (syncEdge c s.lines u))
  else .next (dropInput (resetEdge (readDuringReset c s)))

/-! ## Words of the opcode table, placed where the next edge fetches them -/

/-- Put an encoded instruction where the next edge fetches it: a CMD word in a host write to CMD that completes in this
cycle; a wire instruction or a command code as the running operation's next step (assumption log 6). -/
def placeEncoding (e : Encoding) (s : State) : State :=
  match e with
  | .hostCommand w =>
    { s with env := { s.env with inputs := writeInput (hostOffset .cmd) w :: s.env.inputs } }
  | .wireFrame ins byte => placeStep (.frame ins byte) s
  | .commandByte code => placeStep (.command code) s
where
  /-- An operation runs whose next step is the given one, in a cycle without a host access. -/
  placeStep (step : SeqStep) (s : State) : State :=
    { s with
      status := { s.status with busy := true }
      seq := { s.seq with todo := [step], event := none }
      env := { s.env with inputs := quietInput :: s.env.inputs } }

end Sys2Proof.Machine
end

