-- ==== Sys2Proof/Machine/Step.lean ====
section
/-! DEFINITION. One step: one rising edge of `clk` (00_scope.md R10). -/

namespace Sys2Proof.Machine

/-- One rising edge of `clk`. -/
def step (s : State) : Host.Outcome State Fault Refusal := clockEdge (inputNow s) s

/-- The state whose next step fetches and runs the given word of spec/opcode_table.json; a word that is no row's is
written to CMD, where it is refused. -/
def State.withFetchWord (s : State) (nbits w : Nat) : State :=
  match tableEncoding nbits w with
  | some e => placeEncoding e s
  | none => placeEncoding (.hostCommand (BitVec.ofNat 32 w)) s

end Sys2Proof.Machine
end

