-- ==== Sys2Proof/Machine/HostProgram.lean ====
section
/-! DEFINITION. Host programs (30_encoding.md R104, R105): the statements, the pseudo-instructions as their expansions,
and a host that runs a program against the block, bus cycle by bus cycle (10_state.md R21). The host is no part of the
block: it drives the bus signals of `env.inputs` and looks at `prdata` and `irq`. -/

namespace Sys2Proof.Machine

/-! ## Operation syntax (30_encoding.md R104) -/

/-- A byte or a 16-bit number, in decimal. -/
def numText {w : Nat} (v : BitVec w) : String := toString v.toNat

/-- An operation as its mnemonic and operands; a wire instruction or a command code as its row of the opcode table. -/
def asmText : Instr → String
  | .aw a => "AW " ++ numText a
  | .ar => "AR"
  | .dw v => "DW " ++ numText v
  | .dr => "DR"
  | .wfb m e => "WFB " ++ numText m ++ ", " ++ numText (bit e)
  | .okq => "OKQ"
  | .cinit c => "CINIT " ++ numText c
  | .wrb v => "WRB " ++ numText v
  | .rdr => "RDR"
  | .reset => "RESET"
  | .init => "INIT"
  | .wsfr a v => "WSFR " ++ numText a ++ ", " ++ numText v
  | .rsfr a => "RSFR " ++ numText a
  | .wdir a v => "WDIR " ++ numText a ++ ", " ++ numText v
  | .rdir a => "RDIR " ++ numText a
  | .erase => "ERASE"
  | .wblk fa s => "WBLK " ++ numText fa ++ ", " ++ numText s
  | .rblk fa s => "RBLK " ++ numText fa ++ ", " ++ numText s
  | .c2Dr => "C2_DR"
  | .c2Dw v => "C2_DW " ++ numText v
  | .c2Ar => "C2_AR"
  | .c2Aw a => "C2_AW " ++ numText a
  | .fpGetVersion => "FP_GET_VERSION"
  | .fpGetDerivative => "FP_GET_DERIVATIVE"
  | .fpDeviceErase => "FP_DEVICE_ERASE"
  | .fpBlockRead => "FP_BLOCK_READ"
  | .fpBlockWrite => "FP_BLOCK_WRITE"
  | .fpPageErase => "FP_PAGE_ERASE"
  | .fpDirectRead => "FP_DIRECT_READ"
  | .fpDirectWrite => "FP_DIRECT_WRITE"
  | .fpIndirectRead => "FP_INDIRECT_READ"
  | .fpIndirectWrite => "FP_INDIRECT_WRITE"

/-! ## Statements -/

/-- A field of a register: `width` bits from bit `lo`. -/
structure RegField where
  reg : HostReg
  lo : Nat
  width : Nat
  deriving DecidableEq, Repr

def fieldBusy : RegField := { reg := .status, lo := 0, width := 1 }
def fieldDone : RegField := { reg := .status, lo := 1, width := 1 }
def fieldOk : RegField := { reg := .status, lo := 2, width := 1 }
def fieldErr : RegField := { reg := .status, lo := 3, width := 1 }

/-- The value of a field in a word read from its register. -/
def RegField.value (f : RegField) (w : Word) : Nat := (w.toNat >>> f.lo) % 2 ^ f.width

/-- The statements of a host program. -/
inductive Stmt
  | wr (paddr : BitVec 6) (v : Word)
  | rd (paddr : BitVec 6)
  | label (l : Nat)
  | beq (f : RegField) (v : Nat) (l : Nat)
  | bne (f : RegField) (v : Nat) (l : Nat)
  | halt
  | waitIrq
  deriving DecidableEq, Repr

/-- `op <operation>`. -/
def stmtOp (i : Instr) : Stmt := .wr (hostOffset .cmd) (encodeCmd i)

/-- `waitdone`, with the fresh label `l`. -/
def stmtWaitDone (l : Nat) : List Stmt := [.label l, .beq fieldBusy 1 l]

/-- `run <operation>`, with the fresh label `l`. -/
def stmtRun (i : Instr) (l : Nat) : List Stmt := stmtOp i :: stmtWaitDone l

/-- `loadbuf b0, ..., bm`. -/
def stmtLoadBuf (bs : List Byte) : List Stmt :=
  .wr (hostOffset .bufptr) 0 :: bs.map (fun b => .wr (hostOffset .bufdata) (byteWord b))

/-- `readbuf m`. -/
def stmtReadBuf (m : Nat) : List Stmt :=
  .wr (hostOffset .bufptr) 0 :: List.replicate m (.rd (hostOffset .bufdata))

/-- `clear`. -/
def stmtClear : Stmt := .wr (hostOffset .status) 0x0000000A

/-! ## Running a program -/

/-- Where the host is in a bus transfer: idle cycles left before the setup cycle, or the access cycle. -/
inductive BusPhase
  | idle (n : Nat)
  | access
  deriving DecidableEq, Repr

/-- A host program and the block it drives. `gap` idle cycles stand before every transfer (20_memory.md R76: the length
is the host's). -/
structure HostRun where
  prog : List Stmt
  pos : Nat
  phase : BusPhase
  gap : Nat
  /-- what the `rd` statements returned, oldest first -/
  reads : List Word
  machine : State
  deriving DecidableEq, Repr

/-- Where a label stands: the first place where it does, and the end of the program where it stands nowhere. 30_encoding.md
R105 says of neither case where a branch continues: DESIGN CHOICE, assumption log 18. -/
def labelPos (l : Nat) : List Stmt → Nat
  | [] => 0
  | st :: r => if st = .label l then 0 else labelPos l r + 1

/-- How many labels stand at the front: they take no time. -/
def leadingLabels : List Stmt → Nat
  | .label _ :: r => leadingLabels r + 1
  | [] => 0
  | .wr _ _ :: _ => 0
  | .rd _ :: _ => 0
  | .beq _ _ _ :: _ => 0
  | .bne _ _ _ :: _ => 0
  | .halt :: _ => 0
  | .waitIrq :: _ => 0

/-- The position of the next statement that is no label. -/
def HostRun.here (h : HostRun) : Nat := h.pos + leadingLabels (h.prog.drop h.pos)

/-- The statement the host is at; none when the program has ended. -/
def HostRun.current (h : HostRun) : Option Stmt := h.prog[h.here]?

/-- Set the host's bus signals of this cycle; `rst_n` and the pin stay as they are. -/
def driveBus (psel penable pwrite : Bool) (paddr : BitVec 6) (v : Word) (s : State) : State :=
  { s with
    env :=
      { s.env with
        inputs :=
          { inputNow s with psel := psel, penable := penable, pwrite := pwrite, paddr := paddr, pwdata := v } ::
            s.env.inputs.tail } }

/-- A cycle in which the host is silent. -/
def silentCycle (s : State) : Outcome State Fault Refusal := step (driveBus false false false 0 0 s)

/-- Go on in the host after a cycle of the block. -/
def afterCycle (x : Outcome State Fault Refusal) (f : State → HostRun) : Outcome HostRun Fault Refusal :=
  match x with
  | .next t => .next (f t)
  | .fault r => .fault r
  | .refused r => .refused r

/-- One cycle of a transfer; `go` says where the program goes when the access has completed. -/
def transferCycle (h : HostRun) (pwrite : Bool) (paddr : BitVec 6) (v : Word) (go : State → HostRun) :
    Outcome HostRun Fault Refusal :=
  match h.phase with
  | .idle (n + 1) => afterCycle (silentCycle h.machine) fun t => { h with phase := .idle n, machine := t }
  | .idle 0 =>
    afterCycle (step (driveBus true false pwrite paddr v h.machine)) fun t => { h with phase := .access, machine := t }
  | .access => afterCycle (step (driveBus true true pwrite paddr v h.machine)) go

/-- The host goes to position `p` with the block in state `t`. -/
def HostRun.goto (h : HostRun) (p : Nat) (t : State) : HostRun :=
  { h with pos := p, phase := .idle h.gap, machine := t }

/-- One cycle of `clk` with the host at its statement. A program that has ended leaves the bus silent. -/
def hostCycle (h : HostRun) : Outcome HostRun Fault Refusal :=
  match h.current with
  | none => afterCycle (silentCycle h.machine) fun t => { h with machine := t }
  | some .halt => afterCycle (silentCycle h.machine) fun t => { h with machine := t }
  | some (.label _) => afterCycle (silentCycle h.machine) fun t => { h with machine := t }
  | some .waitIrq =>
    if irq h.machine then afterCycle (silentCycle h.machine) (h.goto (h.here + 1))
    else afterCycle (silentCycle h.machine) fun t => { h with machine := t }
  | some (.wr a v) => transferCycle h true a v (h.goto (h.here + 1))
  | some (.rd a) =>
    transferCycle h false a 0 fun t => { h.goto (h.here + 1) t with reads := h.reads ++ [t.env.prdata] }
  | some (.beq f v l) =>
    transferCycle h false (hostOffset f.reg) 0 fun t =>
      h.goto (if f.value t.env.prdata = v then labelPos l h.prog else h.here + 1) t
  | some (.bne f v l) =>
    transferCycle h false (hostOffset f.reg) 0 fun t =>
      h.goto (if f.value t.env.prdata = v then h.here + 1 else labelPos l h.prog) t

/-- A program at its first statement. -/
def HostRun.start (prog : List Stmt) (gap : Nat) (s : State) : HostRun :=
  { prog := prog, pos := 0, phase := .idle gap, gap := gap, reads := [], machine := s }

/-- `k` cycles. -/
def hostCycles : Nat → HostRun → Outcome HostRun Fault Refusal
  | 0, h => .next h
  | k + 1, h =>
    match hostCycle h with
    | .next h' => hostCycles k h'
    | .fault r => .fault r
    | .refused r => .refused r

end Sys2Proof.Machine
end

