-- ==== Sys2Proof/Machine/Trace.lean ====
section
/-! DEFINITION. Wire traces as the spec writes them (00_scope.md R9, 30_encoding.md R83-R86, R103, R106): the trace of
a frame and of each operation for given target answers, and the wire monitor that reads frames off a trace. Nothing
here is read by a step; the machine's own trace is held against these definitions. -/

namespace Sys2Proof.Machine

/-- The bits of a byte in wire order, bit 0 first (20_memory.md R64). -/
def byteBits (v : Byte) : List Bool := (List.range 8).map v.getLsbD

/-- The byte whose bit `j` is the `j`-th element (40_signal_byte.md R116, R123). -/
def byteOfBits (bs : List Bool) : Byte := BitVec.ofNat 8 (bs.foldr (fun b n => b.toNat + 2 * n) 0)

/-- An elementary transaction with the target's answers: the byte it read, and how many WAIT strobes sampled 0 (the k of
30_encoding.md R85 and R86 is that number plus 1). -/
inductive Frame
  | addressWrite (a : Byte)
  | addressRead (s : Byte)
  | dataWrite (v : Byte) (zeros : Nat)
  | dataRead (zeros : Nat) (d : Byte)
  deriving DecidableEq, Repr

/-- The WAIT: samples 0, then 1 (40_signal_byte.md R120). -/
def waitTrace (zeros : Nat) : List WireEvent := List.replicate zeros (.i false) ++ [.i true]

/-- The frame as strobes (30_encoding.md R83-R86). -/
def Frame.trace : Frame → List WireEvent
  | .addressWrite a => [.z, .o true, .o true] ++ (byteBits a).map .o ++ [.z]
  | .addressRead s => [.z, .o false, .o true] ++ (byteBits s).map .i ++ [.z]
  | .dataWrite v w => [.z, .o true, .o false, .o false, .o false] ++ (byteBits v).map .o ++ waitTrace w ++ [.z]
  | .dataRead w d => [.z, .o false, .o false, .o false, .o false] ++ waitTrace w ++ (byteBits d).map .i ++ [.z]

/-- The trace of frames one after another, with no gap (40_signal_byte.md R118). -/
def framesTrace (fs : List Frame) : List WireEvent := fs.flatMap Frame.trace

/-! ## Target answers of the helpers -/

/-- The statuses a `wait_for_bit` reads: those that do not meet the condition, then one that does. -/
structure PollScript where
  before : List Byte
  last : Byte
  deriving DecidableEq, Repr

def PollScript.frames (p : PollScript) : List Frame := p.before.map .addressRead ++ [.addressRead p.last]

/-- The script ends the poll, and not earlier (42_status_polling.md R140). -/
def PollScript.fits (m : Byte) (e : Bool) (p : PollScript) : Bool :=
  p.before.all (fun s => !pollMet m e s) && pollMet m e p.last

/-- `write_with_busy(v)`: a data write, then the poll for input-busy clear (R144). -/
structure WriteScript where
  zeros : Nat
  poll : PollScript
  deriving DecidableEq, Repr

def WriteScript.frames (v : Byte) (x : WriteScript) : List Frame := .dataWrite v x.zeros :: x.poll.frames
def WriteScript.fits (x : WriteScript) : Bool := x.poll.fits Config.maskInputBusy false

/-- `read_with_ready()`: the poll for output-ready set, then a data read (R146). -/
structure ReadScript where
  poll : PollScript
  zeros : Nat
  byte : Byte
  deriving DecidableEq, Repr

def ReadScript.frames (x : ReadScript) : List Frame := x.poll.frames ++ [.dataRead x.zeros x.byte]
def ReadScript.fits (x : ReadScript) : Bool := x.poll.fits Config.maskOutputReady true

/-- `command_init(c)`: the byte with busy framing, then a ready poll and the response, which is a `read_with_ready` on
the wire (R148). -/
structure CommandScript where
  write : WriteScript
  response : ReadScript
  deriving DecidableEq, Repr

def CommandScript.frames (fpdat c : Byte) (x : CommandScript) : List Frame :=
  .addressWrite fpdat :: (x.write.frames c ++ x.response.frames)
def CommandScript.fits (x : CommandScript) : Bool := x.write.fits && x.response.fits

/-- The bytes of a sequence, each with busy framing and its own answers. -/
def writesFrames (vs : List Byte) (xs : List WriteScript) : List Frame :=
  (List.zipWith (fun v (x : WriteScript) => x.frames v) vs xs).flatten

/-- The header of WBLK and RBLK up to its check (43_flash_programming.md R169, R170): `command_init`, the address high
byte, the low byte, the size byte, a ready poll and the response. -/
structure HeaderScript where
  command : CommandScript
  high : WriteScript
  low : WriteScript
  size : WriteScript
  response : ReadScript
  deriving DecidableEq, Repr

def HeaderScript.frames (fpdat c : Byte) (fa : Half) (size : Byte) (x : HeaderScript) : List Frame :=
  x.command.frames fpdat c ++ x.high.frames (highByte fa) ++ x.low.frames (lowByte fa) ++ x.size.frames size ++
    x.response.frames
def HeaderScript.fits (x : HeaderScript) : Bool :=
  x.command.fits && x.high.fits && x.low.fits && x.size.fits && x.response.fits

/-! ## Sampled levels that give a trace -/

/-- The sampled level `b` is the one the event shows, where the event's sample is used. -/
def WireEvent.fits (b : Bool) : WireEvent → Bool
  | .i x => x == b
  | .z => true
  | .o _ => true
  | .pulse _ _ => true
  | .idle _ => true

/-- One sampled level for each event of the trace, each the one the event shows. -/
def samplesFit : List WireEvent → List Bool → Bool
  | [], [] => true
  | e :: tr, b :: bs => e.fits b && samplesFit tr bs
  | [], _ :: _ => false
  | _ :: _, [] => false

/-! ## The wire monitor (30_encoding.md R103) -/

/-- The level of C2D that a monitor sees in a data strobe. -/
def WireEvent.level : WireEvent → Option Bool
  | .o d => some d
  | .i b => some b
  | .z => none
  | .pulse _ _ => none
  | .idle _ => none

/-- The next `n` strobes as bits. -/
def takeBits : Nat → List WireEvent → Option (List Bool × List WireEvent)
  | 0, tr => some ([], tr)
  | _ + 1, [] => none
  | n + 1, e :: tr =>
    match e.level, takeBits n tr with
    | some b, some (bs, rest) => some (b :: bs, rest)
    | some _, none => none
    | none, some _ => none
    | none, none => none

/-- The START or STOP strobe. -/
def takeMark : List WireEvent → Option (List WireEvent)
  | .z :: tr => some tr
  | .o _ :: _ => none
  | .i _ :: _ => none
  | .pulse _ _ :: _ => none
  | .idle _ :: _ => none
  | [] => none

/-- The WAIT: strobes until the first that samples 1; how many sampled 0. -/
def takeWait : List WireEvent → Option (Nat × List WireEvent)
  | [] => none
  | e :: tr =>
    match e.level with
    | some true => some (0, tr)
    | some false =>
      match takeWait tr with
      | some (n, rest) => some (n + 1, rest)
      | none => none
    | none => none

/-- Read one frame off the front of a trace, as 30_encoding.md R103 says. -/
def readFrame (tr : List WireEvent) : Option (Frame × List WireEvent) := do
  let tr ← takeMark tr
  let (ins, tr) ← takeBits 2 tr
  match ins with
  | [true, true] =>
    let (bs, tr) ← takeBits 8 tr
    let tr ← takeMark tr
    some (.addressWrite (byteOfBits bs), tr)
  | [false, true] =>
    let (bs, tr) ← takeBits 8 tr
    let tr ← takeMark tr
    some (.addressRead (byteOfBits bs), tr)
  | [true, false] =>
    let (_, tr) ← takeBits 2 tr
    let (bs, tr) ← takeBits 8 tr
    let (w, tr) ← takeWait tr
    let tr ← takeMark tr
    some (.dataWrite (byteOfBits bs) w, tr)
  | [false, false] =>
    let (_, tr) ← takeBits 2 tr
    let (w, tr) ← takeWait tr
    let (bs, tr) ← takeBits 8 tr
    let tr ← takeMark tr
    some (.dataRead w (byteOfBits bs), tr)
  | _ => none

end Sys2Proof.Machine
end

