-- ==== Sys2Proof/Safety.lean ====
section
/-! DEFINITION. The predicates that claims are stated in: what a quiet host is, what idle lines are, the invariant of
the block, the software obligation `timing_ok` and the premise `target_responsive`. -/

namespace Sys2Proof

open Sys2Proof.Machine

/-! ## Hosts -/

/-- In this cycle there is neither a reset nor a host access. -/
def QuietCycle (c : CycleInput) : Bool := c.rstN && !isAccess c

/-- In the coming `n` cycles there is neither a reset nor a host access. -/
def QuietFor (n : Nat) (s : State) : Bool := (s.env.inputs.take n).all QuietCycle

/-- In this cycle the host writes `w` to the register at `paddr`. -/
def HostWrites (paddr : BitVec 6) (w : Word) (s : State) : Prop :=
  (inputNow s).rstN = true ∧ isWrite (inputNow s) = true ∧ (inputNow s).paddr = paddr ∧ (inputNow s).pwdata = w

/-- In this cycle the host reads the register at `paddr`. -/
def HostReads (paddr : BitVec 6) (s : State) : Prop :=
  (inputNow s).rstN = true ∧ isRead (inputNow s) = true ∧ (inputNow s).paddr = paddr

/-! ## Timing -/

/-- The legal values of TIMING (10_state.md R36). -/
def LegalTiming (t : Timing) : Bool := decide (1 ≤ t.tlow.toNat) && decide (3 ≤ t.thigh.toNat) && decide (1 ≤ t.usdiv.toNat)

/-- S, the cycles of a strobe (70_reset_and_hazards.md R233). -/
def strobeCycles (t : Timing) : Nat := 1 + t.tlow.toNat + t.thigh.toNat

/-- `timing_ok` (70_reset_and_hazards.md R226) for a clock of `clkHz` and the target's bounds in picoseconds. -/
def TimingOk (clkHz tLowMin tLowMax tHighMin : Nat) (t : Timing) : Bool :=
  decide (tLowMin * clkHz < t.tlow.toNat * 10 ^ 12) && decide (t.tlow.toNat * 10 ^ 12 < tLowMax * clkHz) &&
    decide (tHighMin * clkHz ≤ t.thigh.toNat * 10 ^ 12) && decide (clkHz ≤ t.usdiv.toNat * 10 ^ 6)

/-- `timing_ok` for the OPEN parameters. -/
def TimingOkHere (t : Timing) : Prop :=
  TimingOk Config.pClkHz Config.tLowMin Config.tLowMax Config.tHighMin t = true

/-! ## Lines -/

/-- The idle state of the lines (70_reset_and_hazards.md R222). -/
def IdleLines (l : Lines) : Bool := l.c2ck && !l.oe

/-- C2CK is low exactly in a LOW phase (40_signal_byte.md R110, 43_flash_programming.md R160). -/
def clockFits (ph : Phase) (l : Lines) : Bool :=
  match ph with
  | .setup => l.c2ck
  | .low => !l.c2ck
  | .high => l.c2ck

/-- The lines are as the wire event in progress has them: with none they are idle; C2D is driven exactly in the strobes
that send a bit, at the value of that bit (30_encoding.md R83-R86, 40_signal_byte.md R121). -/
def linesFit (q : Sequencer) (l : Lines) : Bool :=
  match q.event with
  | none => IdleLines l
  | some (.strobe k p) =>
    clockFits q.phase l &&
      (match driveBit k q.shift q.bitCount p with
      | some d => l.oe && l.c2d == d
      | none => !l.oe)
  | some .pulse => clockFits q.phase l && !l.oe
  | some .settle => decide (q.phase = .high) && IdleLines l

/-! ## The invariant of the block -/

/-- How many `ok_or_not` a list of steps can still run. -/
def checksIn : List SeqStep → Nat
  | [] => 0
  | .command _ :: r => 1 + checksIn r
  | .check :: r => 1 + checksIn r
  | .checkRecord :: r => 1 + checksIn r
  | .frame _ _ :: r => checksIn r
  | .poll _ _ :: r => checksIn r
  | .pollTest _ _ :: r => checksIn r
  | .stopIfRejected :: r => checksIn r
  | .sendBlock :: r => checksIn r
  | .receiveBlock :: r => checksIn r
  | .storeByte :: r => checksIn r
  | .nextIndex :: r => checksIn r
  | .pulse :: r => checksIn r
  | .settle :: r => checksIn r

/-- What holds in every state of a run: BUF keeps its canonical form and its 256 indices; TIMING is legal; ERRCODE is 0
when ERR is 0, and else one of the four codes; FSTAGE is never 3 and COUNT at most 256; while an operation runs DONE, OK
and FSTAGE are 0; with no operation the sequencer is idle; the lines are as the wire event in progress has them. -/
structure BlockInv (s : State) : Prop where
  buf_wf : s.buf.wf = true
  timing_legal : LegalTiming s.timing = true
  no_error_no_code : s.status.err = false → s.status.errCode = 0
  error_code : s.status.err = true → 1 ≤ s.status.errCode.toNat ∧ s.status.errCode.toNat ≤ 4
  stage : s.status.fstage ≠ 3
  checks : s.seq.fst.toNat + checksIn s.seq.todo ≤ 2
  size : s.seq.loopN.toNat ≤ Config.bufSize
  count : s.result.count.toNat ≤ Config.bufSize
  running : s.status.busy = true → s.status.done = false ∧ s.status.ok = false ∧ s.status.fstage = 0
  idle : s.status.busy = false → s.seq.event = none ∧ s.seq.todo = []
  lines : linesFit s.seq s.lines = true

/-! ## Levels of instruction -/

/-- The instructions a host issues by a write to CMD (30_encoding.md R90). -/
def IsCommand (i : Instr) : Bool :=
  match encode i with
  | .hostCommand _ => true
  | .wireFrame _ _ => false
  | .commandByte _ => false

/-! ## Operations at trace level -/

/-- What C2D was last driven to, starting from `d` (10_state.md R47). -/
def lastDriven (d : Bool) : List WireEvent → Bool
  | [] => d
  | .o x :: r => lastDriven x r
  | .z :: r => lastDriven d r
  | .i _ :: r => lastDriven d r
  | .pulse _ _ :: r => lastDriven d r
  | .idle _ :: r => lastDriven d r

/-- Operation `i`, issued in state `s`, has ended in state `t`: it produced the trace `tr`, `finish` wrote the given
values (10_state.md R44), the lines are idle and C2D keeps its last driven value (R47, 70_reset_and_hazards.md R222),
the operands stay latched (R43), and CTRL, TIMING, DEVCFG and BUFPTR are as before. What happened to BUF is said beside
it. -/
structure Finished (i : Instr) (s t : State) (tr : List WireEvent) (ok : Bool) (data resp : Byte) (count : BitVec 9)
    (fstage : BitVec 2) : Prop where
  status : t.status = { s.status with busy := false, done := true, ok := ok, fstage := fstage }
  result : t.result = { data := data, resp := resp, count := count }
  trace : t.env.trace = s.env.trace ++ tr
  lines : IdleLines t.lines = true
  last_driven : t.lines.c2d = lastDriven s.lines.c2d tr
  sequencer_idle : t.seq.event = none ∧ t.seq.todo = []
  latched : t.cur = latchedOf (encodeCmd i)
  registers : t.ie = s.ie ∧ t.timing = s.timing ∧ t.fpdat = s.fpdat ∧ t.ptr = s.ptr

/-- Nothing of the outside world was used up or changed; at trace level no input is read. -/
def OutsideKept (s t : State) : Prop :=
  t.env.inputs = s.env.inputs ∧ t.env.draws = s.env.draws ∧ t.env.prdata = s.env.prdata

/-- The bytes a WBLK of `c` bytes from index `i` on sends when `d` free values have been drawn: BUF, and a fresh free
value for every byte nothing has written (93_implementation_defined.md U-1). -/
def blockBytes (m : Memory) : Nat → Nat → Nat → List Byte
  | 0, _, _ => []
  | c + 1, i, d =>
    match m.read i with
    | some v => v :: blockBytes m c (i + 1) d
    | none => Config.freeByte d :: blockBytes m c (i + 1) (d + 1)

/-- Operation `i`, issued in state `s`, is accepted, begins its first wire event and reaches state `t` when its events
complete with the sampled levels `bs`. -/
def CompletesTo (i : Instr) (bs : List Bool) (s t : State) : Prop :=
  ∃ u, exec i s = .next u ∧ u.status.busy = true ∧ andThen (fetchNext u) (runEvents bs) = .next t

/-! ## Bounded response (70_reset_and_hazards.md R235) -/

/-- The first `n` levels of a sequence of sampled levels, one for each wire event. -/
def samplesUpTo (σ : Nat → Bool) (n : Nat) : List Bool := (List.range n).map σ

/-- Operation `i`, issued in state `s`, is in state `t` after `n` wire events with the sampled levels `σ`; once it has
finished it stays as it is. -/
def After (i : Instr) (s : State) (σ : Nat → Bool) (n : Nat) (t : State) : Prop :=
  operate i (samplesUpTo σ n) s = .next t

/-- The named premise `target_responsive` (70_reset_and_hazards.md R235, assumption log 17) for one operation and one
sequence of sampled levels: every WAIT loop the operation comes to has a sample 1, and every `wait_for_bit` it comes to has
an address read that meets the condition. The samples from a strobe of a WAIT on are those of that loop until the first of
them that is 1; the address reads with the same steps left are those of that `wait_for_bit` until the first of them that
meets the condition. No step reads it, and no bound is part of it. -/
structure TargetResponsive (i : Instr) (s : State) (σ : Nat → Bool) : Prop where
  wait : ∀ n t k, After i s σ n t → t.seq.event = some (.strobe k .wait) → ∃ m, n ≤ m ∧ σ m = true
  poll : ∀ n t mask expected rest, After i s σ n t → t.seq.event = some (.strobe .addressRead .start) →
    t.seq.todo = .pollTest mask expected :: rest →
    ∃ m u, n ≤ m ∧ After i s σ m u ∧ u.seq.event = some (.strobe .addressRead .stop) ∧
      u.seq.todo = .pollTest mask expected :: rest ∧ pollMet mask expected u.seq.shift = true

end Sys2Proof
end

