-- ==== Sys2Proof/Certificates/Slice0/Obligations.lean ====
section
/-! DEFINITION. The statements for the provers. -/

open Sys2Proof
open Sys2Proof.Machine

/-! ## Encoding -/

/-- At every level, decoding the encoding of a well-formed instruction gives it back (30_encoding.md R82-R95, R104). -/
def Obligations.DecodeEncodeRoundTrip : Prop :=
  ∀ i : Instr, WellFormed i = true → decode (encode i) = .ok i

/-- Words written out from the spec decode to what they stand for (30_encoding.md R104, R82, R95). -/
def Obligations.SpecWordsDecode : Prop :=
  decodeCmd 0x0000B401#32 = .ok (.aw 0xB4) ∧ decodeCmd 0x00010108#32 = .ok (.wfb 0x01 true) ∧
    decodeCmd 0x008FB212#32 = .ok (.wsfr 0xB2 0x8F) ∧ decodeCmd 0x12340217#32 = .ok (.wblk 0x1234 0x02) ∧
    decodeWire 0b01#2 0x5A = .c2Dw 0x5A ∧ decodeWire 0b10#2 0x00 = .c2Ar ∧ decodeCommand 0x0A#8 = .ok .fpDirectWrite

/-- CMD bits an operation does not use are ignored (30_encoding.md R99, R89): for every value of them the word decodes
to the operation with its operands. -/
def Obligations.UnusedCommandBitsAreIgnored : Prop :=
  ∀ (b : Byte) (w : Half),
    decodeCmd (cmdWord 0x01 b w) = .ok (.aw b) ∧
    decodeCmd (cmdWord 0x02 b w) = .ok .ar ∧
    decodeCmd (cmdWord 0x03 b w) = .ok (.dw b) ∧
    decodeCmd (cmdWord 0x04 b w) = .ok .dr ∧
    (WellFormed (.wfb b (w.getLsbD 0)) = true → decodeCmd (cmdWord 0x08 b w) = .ok (.wfb b (w.getLsbD 0))) ∧
    decodeCmd (cmdWord 0x09 b w) = .ok .okq ∧
    decodeCmd (cmdWord 0x0A b w) = .ok (.cinit b) ∧
    decodeCmd (cmdWord 0x0B b w) = .ok (.wrb b) ∧
    decodeCmd (cmdWord 0x0C b w) = .ok .rdr ∧
    decodeCmd (cmdWord 0x10 b w) = .ok .reset ∧
    decodeCmd (cmdWord 0x11 b w) = .ok .init ∧
    decodeCmd (cmdWord 0x12 b w) = .ok (.wsfr b (w.extractLsb' 0 8)) ∧
    decodeCmd (cmdWord 0x13 b w) = .ok (.rsfr b) ∧
    decodeCmd (cmdWord 0x14 b w) = .ok (.wdir b (w.extractLsb' 0 8)) ∧
    decodeCmd (cmdWord 0x15 b w) = .ok (.rdir b) ∧
    decodeCmd (cmdWord 0x16 b w) = .ok .erase

/-- Illegal opcodes (30_encoding.md R91): the OP values 0x00, 0x05-0x07, 0x0D-0x0F and 0x19-0xFF select no operation, and
a CMD write with such an OP while the block is idle raises ILLEGAL_OP, starts nothing and changes nothing else. -/
def Obligations.IllegalOpcodeRaisesIllegalOp : Prop :=
  ∀ (w : Word) (s : State), s.status.busy = false →
    (opField w = 0x00 ∨ (0x05 ≤ (opField w).toNat ∧ (opField w).toNat ≤ 0x07) ∨
      (0x0D ≤ (opField w).toNat ∧ (opField w).toNat ≤ 0x0F) ∨ 0x19 ≤ (opField w).toNat) →
    decodeCmd w = .error .illegalOp ∧
      hostWrite .cmd w s = .next { s with status := { s.status with err := true, errCode := 1 } }

/-- WFB with mask 0x00 and expected bit 1 raises ILLEGAL_OPERAND while idle and starts nothing; with expected bit 0 it
is accepted; no other operand value of an instruction is illegal (30_encoding.md R92). -/
def Obligations.WfbZeroMaskExpectedOneIsRefused : Prop :=
  (∀ i : Instr, WellFormed i = false ↔ i = .wfb 0x00 true) ∧
  ∀ s : State, s.status.busy = false →
    exec (.wfb 0x00 true) s = .next { s with status := { s.status with err := true, errCode := 4 } } ∧
    (∀ w : Word, opField w = 0x08 → bField w = 0x00 → (wField w).getLsbD 0 = true →
      hostWrite .cmd w s = .next { s with status := { s.status with err := true, errCode := 4 } }) ∧
    ∃ t, exec (.wfb 0x00 false) s = .next t ∧ t.status.busy = true

/-- The wire monitor reads every frame off any trace that begins with it (30_encoding.md R103). -/
def Obligations.MonitorReadsEveryFrame : Prop :=
  ∀ (f : Frame) (rest : List WireEvent), readFrame (f.trace ++ rest) = some (f, rest)

/-- Byte round trip (40_signal_byte.md R123): the eight data bits that the strobes of `write_byte(v)` drive, taken in wire
order as bits 0 to 7, give back v; and the byte that `read_byte` gathers in SHIFT from eight samples, whatever SHIFT held,
has the `j`-th sample as its bit `j`. -/
def Obligations.ByteRoundTrip : Prop :=
  (∀ (k : FrameKind) (v : Byte),
    byteOfBits ((List.range 8).filterMap fun j => driveBit k v (BitVec.ofNat 3 j) .dataOut) = v) ∧
  ∀ (v : Byte) (b0 b1 b2 b3 b4 b5 b6 b7 : Bool),
    byteBits (setBit (setBit (setBit (setBit (setBit (setBit (setBit (setBit v 0 b0) 1 b1) 2 b2) 3 b3) 4 b4) 5 b5) 6 b6)
      7 b7) = [b0, b1, b2, b3, b4, b5, b6, b7]

/-! ## Acceptance (10_state.md R43) -/

/-- Every well-formed operation is accepted while idle: the operand fields are latched, BUSY is set, DONE, OK, FSTAGE
and the per-operation registers are cleared, no event has begun; ERR, ERRCODE, RESULT and every other register, BUF, the
lines and the synchroniser are unchanged. -/
def Obligations.IdleCommandIsAccepted : Prop :=
  ∀ (i : Instr) (s : State), IsCommand i = true → WellFormed i = true → s.status.busy = false →
    ∃ t, exec i s = .next t ∧
      t.status = { s.status with busy := true, done := false, ok := false, fstage := 0 } ∧
      t.cur = latchedOf (encodeCmd i) ∧
      t.seq.fst = 0 ∧ t.seq.respValid = false ∧ t.seq.lastResp = 0 ∧ t.seq.lastStatus = 0 ∧ t.seq.event = none ∧
      t.ie = s.ie ∧ t.result = s.result ∧ t.timing = s.timing ∧ t.fpdat = s.fpdat ∧ t.ptr = s.ptr ∧ t.buf = s.buf ∧
      t.lines = s.lines ∧ t.sync = s.sync ∧ t.env = s.env

/-- A CMD write while an operation runs raises BUSY_WRITE and changes nothing else, whatever it selects (10_state.md
R43, R46; 60_exceptions.md R207). -/
def Obligations.BusyCommandIsRefused : Prop :=
  ∀ s : State, s.status.busy = true →
    (∀ i : Instr, IsCommand i = true →
      exec i s = .next { s with status := { s.status with err := true, errCode := 2 } }) ∧
    ∀ w : Word, hostWrite .cmd w s = .next { s with status := { s.status with err := true, errCode := 2 } }

/-! ## Transactions (41_transactions.md) -/

/-- AW sends one address-write frame and finishes with OK = 1 and RESULT 0. -/
def Obligations.AwSendsAddressWriteFrame : Prop :=
  ∀ (a : Byte) (s : State) (bs : List Bool), s.status.busy = false →
    samplesFit (framesTrace [.addressWrite a]) bs = true →
    ∃ t, CompletesTo (.aw a) bs s t ∧
      Finished (.aw a) s t (framesTrace [.addressWrite a]) true 0 0 0 0 ∧ t.buf = s.buf ∧ OutsideKept s t

/-- AR sends one address-read frame; RESULT.DATA is the byte the eight samples give. -/
def Obligations.ArReadsStatusByte : Prop :=
  ∀ (x : Byte) (s : State) (bs : List Bool), s.status.busy = false →
    samplesFit (framesTrace [.addressRead x]) bs = true →
    ∃ t, CompletesTo .ar bs s t ∧
      Finished .ar s t (framesTrace [.addressRead x]) true x 0 0 0 ∧ t.buf = s.buf ∧ OutsideKept s t

/-- DW sends one data-write frame, with any number of WAIT strobes that sample 0 before the one that samples 1. -/
def Obligations.DwSendsDataWriteFrame : Prop :=
  ∀ (v : Byte) (zeros : Nat) (s : State) (bs : List Bool), s.status.busy = false →
    samplesFit (framesTrace [.dataWrite v zeros]) bs = true →
    ∃ t, CompletesTo (.dw v) bs s t ∧
      Finished (.dw v) s t (framesTrace [.dataWrite v zeros]) true 0 0 0 0 ∧ t.buf = s.buf ∧ OutsideKept s t

/-- DR sends one data-read frame; RESULT.DATA is the byte sampled after the WAIT. -/
def Obligations.DrReadsDataByte : Prop :=
  ∀ (zeros : Nat) (d : Byte) (s : State) (bs : List Bool), s.status.busy = false →
    samplesFit (framesTrace [.dataRead zeros d]) bs = true →
    ∃ t, CompletesTo .dr bs s t ∧
      Finished .dr s t (framesTrace [.dataRead zeros d]) true d 0 0 0 ∧ t.buf = s.buf ∧ OutsideKept s t

/-! ## Status polling (42_status_polling.md) -/

/-- WFB issues address reads until one meets the condition, and no other frame; RESULT.DATA is that status byte. -/
def Obligations.WfbPollsUntilConditionMet : Prop :=
  ∀ (m : Byte) (e : Bool) (p : PollScript) (s : State) (bs : List Bool),
    WellFormed (.wfb m e) = true → s.status.busy = false → p.fits m e = true →
    samplesFit (framesTrace p.frames) bs = true →
    ∃ t, CompletesTo (.wfb m e) bs s t ∧
      Finished (.wfb m e) s t (framesTrace p.frames) true p.last 0 0 0 ∧ t.buf = s.buf ∧ OutsideKept s t

/-- OKQ reads one byte and accepts 0x0D alone; DATA and RESP are the byte, FSTAGE is 1 on rejection. -/
def Obligations.OkqAcceptsSuccessByteOnly : Prop :=
  ∀ (zeros : Nat) (r : Byte) (s : State) (bs : List Bool), s.status.busy = false →
    samplesFit (framesTrace [.dataRead zeros r]) bs = true →
    ∃ t, CompletesTo .okq bs s t ∧
      Finished .okq s t (framesTrace [.dataRead zeros r]) (r == 0x0D#8) r r 0 (if r = 0x0D#8 then 0 else 1) ∧
      t.buf = s.buf ∧ OutsideKept s t

/-- WRB writes the byte, then polls until input-busy (mask 0x02) is clear. -/
def Obligations.WrbWritesThenPollsInputBusy : Prop :=
  ∀ (v : Byte) (x : WriteScript) (s : State) (bs : List Bool), s.status.busy = false → x.fits = true →
    samplesFit (framesTrace (x.frames v)) bs = true →
    ∃ t, CompletesTo (.wrb v) bs s t ∧
      Finished (.wrb v) s t (framesTrace (x.frames v)) true 0 0 0 0 ∧ t.buf = s.buf ∧ OutsideKept s t

/-- RDR polls until output-ready (mask 0x01) is set, then reads the byte, which is not compared with 0x0D. -/
def Obligations.RdrPollsReadyThenReads : Prop :=
  ∀ (x : ReadScript) (s : State) (bs : List Bool), s.status.busy = false → x.fits = true →
    samplesFit (framesTrace x.frames) bs = true →
    ∃ t, CompletesTo .rdr bs s t ∧
      Finished .rdr s t (framesTrace x.frames) true x.byte 0 0 0 ∧ t.buf = s.buf ∧ OutsideKept s t

/-- CINIT sends any command byte, listed or not, by `command_init`: the address write of DEVCFG.FPDAT, the byte with
busy framing, the ready poll and the response check. -/
def Obligations.CinitRunsCommandInit : Prop :=
  ∀ (c : Byte) (x : CommandScript) (s : State) (bs : List Bool), s.status.busy = false → x.fits = true →
    samplesFit (framesTrace (x.frames s.fpdat c)) bs = true →
    ∃ t, CompletesTo (.cinit c) bs s t ∧
      Finished (.cinit c) s t (framesTrace (x.frames s.fpdat c)) (x.response.byte == 0x0D#8) x.response.byte
        x.response.byte 0 (if x.response.byte = 0x0D#8 then 0 else 1) ∧
      t.buf = s.buf ∧ OutsideKept s t

/-- While no status byte meets the condition WFB goes on polling (42_status_polling.md R140, 60_exceptions.md R203):
after any number of such address reads it is still busy and has begun the next one. -/
def Obligations.WfbHangsWhileConditionUnmet : Prop :=
  ∀ (m : Byte) (e : Bool) (xs : List Byte) (s : State) (bs : List Bool),
    WellFormed (.wfb m e) = true → s.status.busy = false → xs.all (fun x => !pollMet m e x) = true →
    samplesFit (framesTrace (xs.map .addressRead)) bs = true →
    ∃ t, CompletesTo (.wfb m e) bs s t ∧ t.status.busy = true ∧ t.status.done = false ∧
      t.seq.event = some (.strobe .addressRead .start)

/-! ## Flash programming (43_flash_programming.md) -/

/-- RESET is one reset pulse of 20 and 2 microseconds and finishes with OK = 1 and RESULT 0. -/
def Obligations.ResetPulsesTarget : Prop :=
  ∀ (b : Bool) (s : State), s.status.busy = false →
    ∃ t, CompletesTo .reset [b] s t ∧
      Finished .reset s t [.pulse (20 * s.timing.usdiv.toNat) (2 * s.timing.usdiv.toNat)] true 0 0 0 0 ∧
      t.buf = s.buf ∧ OutsideKept s t

/-- INIT: the pulse, the address write of flash control, three plain data writes of the key bytes, the settle delay; no
status poll and no check. -/
def Obligations.InitSendsKeySequence : Prop :=
  ∀ (w0 w1 w2 : Nat) (s : State) (bs : List Bool), s.status.busy = false →
    let tr := [.pulse (20 * s.timing.usdiv.toNat) (2 * s.timing.usdiv.toNat)] ++
      framesTrace [.addressWrite 0x02, .dataWrite 0x02 w0, .dataWrite 0x04 w1, .dataWrite 0x01 w2] ++
      [.idle (20000 * s.timing.usdiv.toNat)]
    samplesFit tr bs = true →
    ∃ t, CompletesTo .init bs s t ∧ Finished .init s t tr true 0 0 0 0 ∧ t.buf = s.buf ∧ OutsideKept s t

/-- WSFR is an address write and a data write, RSFR an address write and a data read; neither polls. -/
def Obligations.SfrAccessIsTwoFrames : Prop :=
  ∀ (a v : Byte) (zeros : Nat) (s : State) (bs : List Bool), s.status.busy = false →
    (samplesFit (framesTrace [.addressWrite a, .dataWrite v zeros]) bs = true →
      ∃ t, CompletesTo (.wsfr a v) bs s t ∧
        Finished (.wsfr a v) s t (framesTrace [.addressWrite a, .dataWrite v zeros]) true 0 0 0 0 ∧
        t.buf = s.buf ∧ OutsideKept s t) ∧
    (samplesFit (framesTrace [.addressWrite a, .dataRead zeros v]) bs = true →
      ∃ t, CompletesTo (.rsfr a) bs s t ∧
        Finished (.rsfr a) s t (framesTrace [.addressWrite a, .dataRead zeros v]) true v 0 0 0 ∧
        t.buf = s.buf ∧ OutsideKept s t)

/-- WDIR: after an accepted direct-write command it sends address, count 1 and value with busy framing and finishes with
OK = 1; after a rejected one it sends nothing more and finishes with OK = 0 and FSTAGE = 1. -/
def Obligations.WdirWritesOrStops : Prop :=
  ∀ (a v : Byte) (x : CommandScript) (xa xc xv : WriteScript) (s : State) (bs : List Bool),
    s.status.busy = false → x.fits = true → xa.fits = true → xc.fits = true → xv.fits = true →
    (x.response.byte = 0x0D →
      samplesFit (framesTrace (x.frames s.fpdat 0x0A ++ xa.frames a ++ xc.frames 0x01 ++ xv.frames v)) bs = true →
      ∃ t, CompletesTo (.wdir a v) bs s t ∧
        Finished (.wdir a v) s t
          (framesTrace (x.frames s.fpdat 0x0A ++ xa.frames a ++ xc.frames 0x01 ++ xv.frames v)) true 0 0x0D 0 0 ∧
        t.buf = s.buf ∧ OutsideKept s t) ∧
    (x.response.byte ≠ 0x0D → samplesFit (framesTrace (x.frames s.fpdat 0x0A)) bs = true →
      ∃ t, CompletesTo (.wdir a v) bs s t ∧
        Finished (.wdir a v) s t (framesTrace (x.frames s.fpdat 0x0A)) false 0 x.response.byte 0 1 ∧
        t.buf = s.buf ∧ OutsideKept s t)

/-- RDIR: after an accepted direct-read command it sends address and count 1, polls for output-ready clear, then reads
the byte; after a rejected one DATA is 0x00, OK = 0 and FSTAGE = 1. -/
def Obligations.RdirReadsOrStops : Prop :=
  ∀ (a : Byte) (x : CommandScript) (xa xc : WriteScript) (p : PollScript) (y : ReadScript) (s : State)
    (bs : List Bool),
    s.status.busy = false → x.fits = true → xa.fits = true → xc.fits = true → p.fits 0x01 false = true →
    y.fits = true →
    (x.response.byte = 0x0D →
      samplesFit
        (framesTrace (x.frames s.fpdat 0x09 ++ xa.frames a ++ xc.frames 0x01 ++ p.frames ++ y.frames)) bs = true →
      ∃ t, CompletesTo (.rdir a) bs s t ∧
        Finished (.rdir a) s t
          (framesTrace (x.frames s.fpdat 0x09 ++ xa.frames a ++ xc.frames 0x01 ++ p.frames ++ y.frames)) true y.byte
          0x0D 0 0 ∧
        t.buf = s.buf ∧ OutsideKept s t) ∧
    (x.response.byte ≠ 0x0D → samplesFit (framesTrace (x.frames s.fpdat 0x09)) bs = true →
      ∃ t, CompletesTo (.rdir a) bs s t ∧
        Finished (.rdir a) s t (framesTrace (x.frames s.fpdat 0x09)) false 0 x.response.byte 0 1 ∧
        t.buf = s.buf ∧ OutsideKept s t)

/-- ERASE: after an accepted erase command the arming bytes go with busy framing, then the ready poll and the second
check decide OK and FSTAGE = 0 or 2; after a rejected one no arming byte is sent and FSTAGE = 1. -/
def Obligations.EraseArmsOnlyAfterAcceptance : Prop :=
  ∀ (x : CommandScript) (x0 x1 x2 : WriteScript) (y : ReadScript) (s : State) (bs : List Bool),
    s.status.busy = false → x.fits = true → x0.fits = true → x1.fits = true → x2.fits = true → y.fits = true →
    (x.response.byte = 0x0D →
      samplesFit
        (framesTrace (x.frames s.fpdat 0x03 ++ x0.frames 0xDE ++ x1.frames 0xAD ++ x2.frames 0xA5 ++ y.frames))
        bs = true →
      ∃ t, CompletesTo .erase bs s t ∧
        Finished .erase s t
          (framesTrace (x.frames s.fpdat 0x03 ++ x0.frames 0xDE ++ x1.frames 0xAD ++ x2.frames 0xA5 ++ y.frames))
          (y.byte == 0x0D#8) 0 y.byte 0 (if y.byte = 0x0D#8 then 0 else 2) ∧
        t.buf = s.buf ∧ OutsideKept s t) ∧
    (x.response.byte ≠ 0x0D → samplesFit (framesTrace (x.frames s.fpdat 0x03)) bs = true →
      ∃ t, CompletesTo .erase bs s t ∧
        Finished .erase s t (framesTrace (x.frames s.fpdat 0x03)) false 0 x.response.byte 0 1 ∧
        t.buf = s.buf ∧ OutsideKept s t)

/-- WBLK with every check passed: the header, then `n` bytes of BUF from index 0 with busy framing, then the ready poll
and no further read; `n` is 256 for size byte 0 and else the size byte (30_encoding.md R93), and COUNT = n. BUF is unchanged.
The value of a byte that nothing has written is the model's choice (assumption log 2 and 3): the opaque `Config.freeByte`
of the draw counter, which moves on by one for each such byte. -/
def Obligations.WblkSendsBlock : Prop :=
  ∀ (fa : Half) (size : Byte) (n : Nat) (x : HeaderScript) (xs : List WriteScript) (p : PollScript) (s : State)
    (bs : List Bool),
    n = (if size = 0 then 256 else size.toNat) → s.status.busy = false → x.fits = true →
    x.command.response.byte = 0x0D → x.response.byte = 0x0D →
    xs.length = n → xs.all WriteScript.fits = true → p.fits 0x01 true = true →
    let tr := framesTrace (x.frames s.fpdat 0x07 fa size ++
      writesFrames (blockBytes s.buf n 0 s.env.draws) xs ++ p.frames)
    samplesFit tr bs = true →
    ∃ t, CompletesTo (.wblk fa size) bs s t ∧
      Finished (.wblk fa size) s t tr true 0 0x0D (BitVec.ofNat 9 n) 0 ∧ t.buf = s.buf ∧
      t.env.inputs = s.env.inputs ∧ t.env.prdata = s.env.prdata

/-- RBLK with every check passed: the header, then `n` reads with ready and no poll after the last; BUF[k] is the k-th
byte read for k < n, every other index is unchanged; `n` is 256 for size byte 0 and else the size byte, and
COUNT = n. -/
def Obligations.RblkFillsBuffer : Prop :=
  ∀ (fa : Half) (size : Byte) (n : Nat) (x : HeaderScript) (xs : List ReadScript) (s : State) (bs : List Bool),
    n = (if size = 0 then 256 else size.toNat) → s.status.busy = false → x.fits = true →
    x.command.response.byte = 0x0D → x.response.byte = 0x0D → xs.length = n → xs.all ReadScript.fits = true →
    let tr := framesTrace (x.frames s.fpdat 0x06 fa size ++ xs.flatMap ReadScript.frames)
    samplesFit tr bs = true →
    ∃ t, CompletesTo (.rblk fa size) bs s t ∧
      Finished (.rblk fa size) s t tr true 0 0x0D (BitVec.ofNat 9 n) 0 ∧
      (∀ k y, xs[k]? = some y → t.buf.read k = some y.byte) ∧
      (∀ k, n ≤ k → t.buf.read k = s.buf.read k) ∧ OutsideKept s t

/-- A block operation that is rejected transfers nothing: at its first check FSTAGE = 1, at its second FSTAGE = 2; COUNT
is 0, RESP the rejected byte, BUF unchanged. -/
def Obligations.RejectedBlockTransfersNothing : Prop :=
  ∀ (i : Instr) (c : Byte) (fa : Half) (size : Byte) (x : HeaderScript) (s : State) (bs : List Bool),
    (i = .wblk fa size ∧ c = 0x07 ∨ i = .rblk fa size ∧ c = 0x06) → s.status.busy = false → x.fits = true →
    (x.command.response.byte ≠ 0x0D → samplesFit (framesTrace (x.command.frames s.fpdat c)) bs = true →
      ∃ t, CompletesTo i bs s t ∧
        Finished i s t (framesTrace (x.command.frames s.fpdat c)) false 0 x.command.response.byte 0 1 ∧
        t.buf = s.buf ∧ OutsideKept s t) ∧
    (x.command.response.byte = 0x0D → x.response.byte ≠ 0x0D →
      samplesFit (framesTrace (x.frames s.fpdat c fa size)) bs = true →
      ∃ t, CompletesTo i bs s t ∧
        Finished i s t (framesTrace (x.frames s.fpdat c fa size)) false 0 x.response.byte 0 2 ∧
        t.buf = s.buf ∧ OutsideKept s t)

/-! ## Wire instructions and command codes -/

/-- A wire instruction, run by the sequencer (assumption log 6), begins its frame in the SETUP cycle of START, with C2D released, and the frame runs to its end
with any answers: its events are those of the spec's frame, then the sequencer goes on with what the operation has left,
with the byte of the frame in SHIFT. No flag, register or byte of BUF changes; of the sequencer's registers only those that
shape the wire event move (the event, PHASE, its counter, SHIFT, the bit counter, SAMPLE_LATCH), and of the synchroniser
only the last stage, which holds the sample. -/
def Obligations.WireInstructionRunsItsFrame : Prop :=
  ∀ (f : Frame) (s : State) (bs : List Bool), samplesFit f.trace bs = true →
    let i : Instr := match f with
      | .addressWrite a => .c2Aw a
      | .addressRead _ => .c2Ar
      | .dataWrite v _ => .c2Dw v
      | .dataRead _ _ => .c2Dr
    ∃ t u, exec i s = .next t ∧ t.lines = { s.lines with c2ck := true, oe := false } ∧ t.seq.phase = .setup ∧
      runEvents bs t = fetchNext u ∧
      u.env.trace = s.env.trace ++ f.trace ∧ u.seq.todo = s.seq.todo ∧ IdleLines u.lines = true ∧
      u.lines.c2d = lastDriven s.lines.c2d f.trace ∧
      (match f with
        | .addressWrite a => u.seq.shift = a
        | .addressRead x => u.seq.shift = x
        | .dataWrite v _ => u.seq.shift = v
        | .dataRead _ d => u.seq.shift = d) ∧
      u.ie = s.ie ∧ u.status = s.status ∧ u.result = s.result ∧ u.timing = s.timing ∧ u.fpdat = s.fpdat ∧
      u.ptr = s.ptr ∧ u.buf = s.buf ∧ u.cur = s.cur ∧ u.seq.lastStatus = s.seq.lastStatus ∧
      u.seq.lastResp = s.seq.lastResp ∧ u.seq.respValid = s.seq.respValid ∧ u.seq.fst = s.seq.fst ∧
      u.seq.loopI = s.seq.loopI ∧ u.seq.loopN = s.seq.loopN ∧ u.seq.fin = s.seq.fin ∧ u.sync.first = s.sync.first ∧
      OutsideKept s u

/-- A command code begins `command_init` of its byte (the list of steps left is the model's own form of the sequencer
position, assumption log 7): the address write of DEVCFG.FPDAT begins, and the byte with busy
framing, the ready poll and the response check stand before what the operation has left. No host-visible register, flag
or byte of BUF changes, and none of the sequencer's registers but those that a beginning frame sets. -/
def Obligations.CommandCodeBeginsCommandInit : Prop :=
  ∀ (i : Instr) (c : Byte) (s : State),
    ((i, c) ∈ [(Instr.fpGetVersion, 0x01#8), (.fpGetDerivative, 0x02#8), (.fpDeviceErase, 0x03#8),
      (.fpBlockRead, 0x06#8), (.fpBlockWrite, 0x07#8), (.fpPageErase, 0x08#8), (.fpDirectRead, 0x09#8),
      (.fpDirectWrite, 0x0A#8), (.fpIndirectRead, 0x0B#8), (.fpIndirectWrite, 0x0C#8)]) →
    ∃ t, exec i s = .next t ∧ t.seq.event = some (.strobe .addressWrite .start) ∧ t.seq.phase = .setup ∧
      t.seq.shift = s.fpdat ∧
      t.seq.todo =
        [.frame 0b01#2 c, .poll 0x02 false, .poll 0x01 true, .check] ++ s.seq.todo ∧
      t.lines = { s.lines with c2ck := true, oe := false } ∧
      t.ie = s.ie ∧ t.status = s.status ∧ t.result = s.result ∧ t.timing = s.timing ∧ t.fpdat = s.fpdat ∧
      t.ptr = s.ptr ∧ t.buf = s.buf ∧ t.cur = s.cur ∧ t.sync = s.sync ∧ t.env = s.env ∧ t.seq.fin = s.seq.fin ∧
      t.seq.loopI = s.seq.loopI ∧ t.seq.loopN = s.seq.loopN ∧ t.seq.lastStatus = s.seq.lastStatus ∧
      t.seq.lastResp = s.seq.lastResp ∧ t.seq.respValid = s.seq.respValid ∧ t.seq.fst = s.seq.fst ∧
      t.seq.sampleLatch = s.seq.sampleLatch ∧ t.seq.bitCount = 0

/-! ## A step runs the decoded instruction -/

/-- What a step without reset does with the host access of its cycle (10_state.md R21, R22, R43, R45).
While the block is idle: a write to CMD whose word selects an operation is `exec` of the decoded instruction, then the word
is latched whole and the operation's first wire event begins; a write to CMD whose word selects none raises its error; a
write to another register is the host write, a read the host read, of the register at `paddr`; without an access no register
changes. In each case the edge shifts the synchroniser and takes the next inputs, and does nothing else.
While an operation runs the same access acts first, on the state at the start of the cycle, and then the sequencer moves.
In every state `prdata` of a read is the value of the register at the start of the cycle. That the inputs stand in a list,
and `prdata` in a field, is the model's own form (assumption log 4 and 8). -/
def Obligations.StepRunsDecodedCommand : Prop :=
  ∀ s : State, (inputNow s).rstN = true →
    let ends : State → Host.Outcome State Fault Refusal :=
      fun t => .next (dropInput (syncEdge (inputNow s) s.lines t))
    (s.status.busy = false →
      (∀ a w i, HostWrites a w s → hostReg a = .cmd → decodeCmd w = .ok i →
        step s = andThen (exec i s) fun t => andThen (fetchNext (latchWord w t)) ends) ∧
      (∀ a w e, HostWrites a w s → hostReg a = .cmd → decodeCmd w = .error e →
        step s = ends (raiseHostError (refusalError e) s)) ∧
      (∀ a w, HostWrites a w s → hostReg a ≠ .cmd →
        ∃ t, hostWrite (hostReg a) w s = .next t ∧ step s = ends t) ∧
      (∀ a, HostReads a s → step s = ends (hostRead (hostReg a) s)) ∧
      (isAccess (inputNow s) = false → step s = ends s)) ∧
    (s.status.busy = true →
      (∀ a w, HostWrites a w s →
        ∃ t, hostWrite (hostReg a) w s = .next t ∧ step s = andThen (sequencerEdge t) ends) ∧
      (∀ a, HostReads a s → step s = andThen (sequencerEdge (hostRead (hostReg a) s)) ends) ∧
      (isAccess (inputNow s) = false → step s = andThen (sequencerEdge s) ends)) ∧
    ∀ a, HostReads a s → ∃ t, step s = .next t ∧ t.env.prdata = readReg (hostReg a) s

/-- While an operation runs and its frame has just ended (the last cycle of STOP), a step runs the next wire instruction
or command code the sequencer holds, at the very edge, with no cycle between (40_signal_byte.md R118). -/
def Obligations.StepRunsNextWireInstruction : Prop :=
  ∀ (k : FrameKind) (s : State) (rest : List SeqStep),
    QuietCycle (inputNow s) = true → s.status.busy = true → s.seq.event = some (.strobe k .stop) →
    s.seq.phase = .high → s.seq.count.toNat ≤ 1 →
    let t := withTodo rest (noteEvent .z (latchSample s.sync.last s))
    (∀ ins byte, s.seq.todo = .frame ins byte :: rest →
      step s = andThen (exec (decodeWire ins byte) t) fun u => .next (dropInput (syncEdge (inputNow s) s.lines u))) ∧
    (∀ code i, s.seq.todo = .command code :: rest → decodeCommand code = .ok i →
      step s = andThen (exec i t) fun u => .next (dropInput (syncEdge (inputNow s) s.lines u)))

/-- A word of the opcode table placed for the next step is run by it (the model's own interface, assumption log 6): a
CMD word as a host write to CMD, a wire instruction or a command code as the running operation's next step. -/
def Obligations.PlacedTableWordIsRun : Prop :=
  ∀ (nbits w : Nat) (i : Instr) (s : State), decodeTableWord nbits w = some i → s.status.busy = false →
    let p := s.withFetchWord nbits w
    (IsCommand i = true →
      step p = andThen (exec i p) fun u => andThen (fetchNext (latchWord (BitVec.ofNat 32 w) u)) fun v =>
        .next (dropInput (syncEdge (inputNow p) p.lines v))) ∧
    (IsCommand i = false →
      step p = andThen (exec i (withTodo [] p)) fun v => .next (dropInput (syncEdge (inputNow p) p.lines v)))

/-! ## Cycle timing -/

/-- A strobe lasts exactly 1 + TLOW + THIGH cycles (40_signal_byte.md R110): C2CK is low in cycles 1 to TLOW and high in
the others, C2D and its direction do not change, nothing else of the block but the synchroniser, which shifts at every
edge (10_state.md R42), changes before the last edge, and the edge that ends the last cycle completes the strobe and leaves the last synchroniser stage in SAMPLE_LATCH. -/
def Obligations.StrobeLastsOnePlusLowPlusHigh : Prop :=
  ∀ (k : FrameKind) (p : WirePos) (s : State), s.status.busy = true → s.seq.event = some (.strobe k p) →
    s.seq.phase = .setup → s.lines.c2ck = true → LegalTiming s.timing = true →
    QuietFor (strobeCycles s.timing) s = true →
    (∀ j < strobeCycles s.timing, ∃ v, Host.Core.run core j s = .next v ∧
      v.lines = { s.lines with c2ck := decide (j = 0 ∨ s.timing.tlow.toNat < j) } ∧
      v.seq = { s.seq with phase := v.seq.phase, count := v.seq.count } ∧
      v.status = s.status ∧ v.result = s.result ∧ v.buf = s.buf ∧ v.ptr = s.ptr ∧ v.cur = s.cur ∧ v.ie = s.ie ∧
      v.timing = s.timing ∧ v.fpdat = s.fpdat ∧ v.env.trace = s.env.trace) ∧
    ∃ v, Host.Core.run core (strobeCycles s.timing - 1) s = .next v ∧
      step v = (andThen (strobeDone k p v) fun u => .next (dropInput (syncEdge (inputNow v) v.lines u))) ∧
      ∀ t, step v = .next t → t.seq.sampleLatch = v.sync.last

/-- The sample of a strobe (40_signal_byte.md R111, 10_state.md R42): with C2D released, the edge that ends the last cycle of
the strobe leaves in SAMPLE_LATCH the level that `c2d_i` had in strobe cycle TLOW + THIGH - 2. With C2D driven it leaves
there what the block drives, for nothing else drives the line then (70_reset_and_hazards.md R230, assumption log 15). -/
def Obligations.SampleIsPinTwoCyclesBeforeLast : Prop :=
  ∀ (k : FrameKind) (p : WirePos) (s : State), s.status.busy = true → s.seq.event = some (.strobe k p) →
    s.seq.phase = .setup → LegalTiming s.timing = true → QuietFor (strobeCycles s.timing) s = true →
    (∀ (c : CycleInput) (b : Bool), s.lines.oe = false →
      s.env.inputs[s.timing.tlow.toNat + s.timing.thigh.toNat - 2]? = some c → c.c2di = some b →
      ∃ v t, Host.Core.run core (strobeCycles s.timing - 1) s = .next v ∧ v.sync.last = b ∧
        step v = .next t ∧ t.seq.sampleLatch = b) ∧
    (s.lines.oe = true →
      ∃ v t, Host.Core.run core (strobeCycles s.timing - 1) s = .next v ∧ v.sync.last = s.lines.c2d ∧
        step v = .next t ∧ t.seq.sampleLatch = s.lines.c2d)

/-- The reset pulse lasts 1 + 20 U + 2 U cycles, low in cycles 1 to 20 U, and the `IDLE` that the settle step of an operation
begins lasts 20000 U cycles with the lines idle (43_flash_programming.md R160, R161). -/
def Obligations.PulseAndSettleLengths : Prop :=
  ∀ s : State, s.status.busy = true → LegalTiming s.timing = true →
    (s.seq.event = some .pulse → s.seq.phase = .setup → s.lines = { s.lines with c2ck := true, oe := false } →
      QuietFor (1 + 22 * s.timing.usdiv.toNat) s = true →
      (∀ j < 1 + 22 * s.timing.usdiv.toNat, ∃ v, Host.Core.run core j s = .next v ∧
        v.lines = { s.lines with c2ck := decide (j = 0 ∨ 20 * s.timing.usdiv.toNat < j) } ∧
        v.seq.event = some .pulse) ∧
      ∃ v, Host.Core.run core (22 * s.timing.usdiv.toNat) s = .next v ∧
        step v = andThen (eventDone .pulse v) fun u => .next (dropInput (syncEdge (inputNow v) v.lines u))) ∧
    ∀ rest : List SeqStep, ∃ t, fetch (.settle :: rest) s = .next t ∧ t.seq.todo = rest ∧
      (QuietFor (20000 * s.timing.usdiv.toNat) s = true →
        (∀ j < 20000 * s.timing.usdiv.toNat, ∃ v, Host.Core.run core j t = .next v ∧
          v.lines = { s.lines with c2ck := true, oe := false } ∧ v.seq.event = some .settle ∧ v.seq.todo = rest) ∧
        ∃ v, Host.Core.run core (20000 * s.timing.usdiv.toNat - 1) t = .next v ∧
          step v = andThen (eventDone .settle v) fun u => .next (dropInput (syncEdge (inputNow v) v.lines u)))

/-- AW accepted by a host write finishes after exactly 12 strobes (41_transactions.md R135, 70_reset_and_hazards.md
R233): it is busy after the accepting edge and after each of the cycles before the last, and the edge that ends cycle
12 S leaves the results. -/
def Obligations.AwTakesTwelveStrobes : Prop :=
  ∀ (a : Byte) (s : State), HostWrites 0x08 (encodeCmd (.aw a)) s → s.status.busy = false →
    LegalTiming s.timing = true →
    (s.env.inputs.tail.take (12 * strobeCycles s.timing)).all QuietCycle = true →
    (∀ j < 12 * strobeCycles s.timing, ∃ v, Host.Core.run core (1 + j) s = .next v ∧ v.status.busy = true) ∧
    ∃ t, Host.Core.run core (1 + 12 * strobeCycles s.timing) s = .next t ∧
      Finished (.aw a) s t (framesTrace [.addressWrite a]) true 0 0 0 0 ∧ t.buf = s.buf

/-- RESET accepted by a host write finishes after exactly 1 + 22 U cycles (70_reset_and_hazards.md R233). -/
def Obligations.ResetOperationCycles : Prop :=
  ∀ s : State, HostWrites 0x08 (encodeCmd .reset) s → s.status.busy = false → LegalTiming s.timing = true →
    (s.env.inputs.tail.take (1 + 22 * s.timing.usdiv.toNat)).all QuietCycle = true →
    (∀ j < 1 + 22 * s.timing.usdiv.toNat, ∃ v, Host.Core.run core (1 + j) s = .next v ∧ v.status.busy = true) ∧
    ∃ t, Host.Core.run core (2 + 22 * s.timing.usdiv.toNat) s = .next t ∧
      Finished .reset s t [.pulse (20 * s.timing.usdiv.toNat) (2 * s.timing.usdiv.toNat)] true 0 0 0 0 ∧ t.buf = s.buf

/-- An unresponsive target hangs the operation (40_signal_byte.md R120, 60_exceptions.md R203): in the WAIT of a data
frame, in which C2D is released (R121), with the pin low in all coming cycles, after any number of cycles the operation
still runs and still waits. -/
def Obligations.WaitHangsWhilePinStaysLow : Prop :=
  ∀ (k : FrameKind) (n : Nat) (s : State), (k = .dataRead ∨ k = .dataWrite) → s.status.busy = true →
    s.seq.event = some (.strobe k .wait) → s.lines.oe = false → s.sync = { first := false, last := false } → n ≤ s.env.inputs.length →
    (s.env.inputs.take n).all (fun c => QuietCycle c && c.c2di == some false) = true →
    ∃ t, Host.Core.run core n s = .next t ∧ t.status.busy = true ∧ t.seq.event = some (.strobe k .wait) ∧
      t.status.done = s.status.done

/-! ## The whole machine -/

/-- No step stops (60_exceptions.md R208: no trap): from every state there is a next state. -/
def Obligations.EveryStepHasNextState : Prop :=
  ∀ s : State, ∃ t, step s = .next t

/-- Every step keeps the invariant of the block (`BlockInv`). -/
def Obligations.StepKeepsInvariant : Prop :=
  ∀ s t : State, BlockInv s → step s = .next t → BlockInv t

/-- The invariant holds after reset. -/
def Obligations.ResetMeetsInvariant : Prop := BlockInv State.reset

/-- What reset leaves (10_state.md R49), for the values the rule gives. -/
def Obligations.ResetLeavesSpecValues : Prop :=
  let s := State.reset
  s.ie = false ∧ s.status = { busy := false, done := false, ok := false, err := false, errCode := 0, fstage := 0 } ∧
    s.result = { data := 0, resp := 0, count := 0 } ∧ s.timing = { tlow := 32, thigh := 32, usdiv := 50 } ∧
    s.fpdat = 0xB4 ∧ s.ptr = 0 ∧ s.cur = { op := 0, b := 0, w := 0 } ∧ s.seq.event = none ∧ s.seq.todo = [] ∧
    s.seq.shift = 0 ∧ s.seq.lastStatus = 0 ∧ s.seq.lastResp = 0 ∧ s.seq.fst = 0 ∧ s.seq.loopI = 0 ∧ s.seq.loopN = 0 ∧
    s.seq.count = 0 ∧ s.seq.bitCount = 0 ∧ s.sync = { first := false, last := false } ∧
    s.lines = { c2ck := true, oe := false, c2d := false } ∧ irq s = false

/-- An edge with `rst_n = 0` (70_reset_and_hazards.md R220, R221), whatever runs and whatever the host does: every
register takes its reset value (for the four that 10_state.md R49 gives none, the model's, assumption log 5), the sequencer
is idle, and BUF keeps what it held. -/
def Obligations.ResetEdgeAbandonsOperation : Prop :=
  ∀ s : State, (inputNow s).rstN = false →
    ∃ t, step s = .next t ∧ t.ie = State.reset.ie ∧ t.status = State.reset.status ∧ t.result = State.reset.result ∧
      t.timing = State.reset.timing ∧ t.fpdat = State.reset.fpdat ∧ t.ptr = State.reset.ptr ∧ t.cur = State.reset.cur ∧
      t.seq = State.reset.seq ∧ t.lines = State.reset.lines ∧ t.sync = State.reset.sync ∧ t.buf = s.buf ∧
      t.env.inputs = s.env.inputs.tail

/-- While an operation runs no step without reset changes TIMING, DEVCFG, BUFPTR or the latched operands, whatever the
host does (10_state.md R46, 20_memory.md R71, R74). -/
def Obligations.RunningOperationInputsAreFixed : Prop :=
  ∀ s t : State, s.status.busy = true → (inputNow s).rstN = true → step s = .next t →
    t.timing = s.timing ∧ t.fpdat = s.fpdat ∧ t.ptr = s.ptr ∧ t.cur = s.cur

/-- A host access never stops, changes or delays a running operation (60_exceptions.md R201): two steps of a running
operation that differ only in what the host does on the bus leave the same sequencer, lines, synchroniser, results,
buffer, BUSY, DONE, OK and FSTAGE, and trace. The last clause is about the model's own field `env.draws` (assumption
log 3): the two steps use up the same free values. -/
def Obligations.HostCannotDisturbRunningOperation : Prop :=
  ∀ (s t u : State) (c d : CycleInput) (r : List CycleInput), s.status.busy = true → s.status.done = false →
    c.rstN = true → d.rstN = true → c.c2di = d.c2di →
    step { s with env := { s.env with inputs := c :: r } } = .next t →
    step { s with env := { s.env with inputs := d :: r } } = .next u →
    t.seq = u.seq ∧ t.lines = u.lines ∧ t.sync = u.sync ∧ t.result = u.result ∧ t.buf = u.buf ∧
      t.status.busy = u.status.busy ∧ t.status.done = u.status.done ∧ t.status.ok = u.status.ok ∧
      t.status.fstage = u.status.fstage ∧ t.env.trace = u.env.trace ∧ t.env.draws = u.env.draws

/-- BUF is written by a BUFDATA write while idle and by RBLK's byte loop only (20_memory.md R63, R71): a step without
such a write, in which no running operation has a byte of a block read to store, leaves BUF as it was. -/
def Obligations.BufferChangesOnlyByPortOrBlockRead : Prop :=
  ∀ s t : State,
    (isWrite (inputNow s) = true → hostReg (inputNow s).paddr = .bufdata → s.status.busy = true) →
    (s.status.busy = true → SeqStep.storeByte ∉ s.seq.todo) → step s = .next t → t.buf = s.buf

/-- Any `finish` and a host access in the same cycle (10_state.md R45, 60_exceptions.md R207): whatever wire event ends and
whatever step of the operation ends it, a write-1-to-clear of DONE leaves DONE = 1, and an access that is refused while
busy still sees BUSY = 1. `u` is what the finish leaves without the access: OK, FSTAGE and RESULT are those of `u`. -/
def Obligations.FinishWinsOverClear : Prop :=
  ∀ (e : Event) (s u : State), s.status.busy = true → s.seq.event = some e → s.seq.phase = .high →
    s.seq.count.toNat ≤ 1 → eventDone e s = .next u → u.status.busy = false →
    let finished : State → Prop := fun t =>
      t.status.busy = false ∧ t.status.done = true ∧ t.status.ok = u.status.ok ∧ t.status.fstage = u.status.fstage ∧
        t.result = u.result
    (∀ a w, HostWrites a w s → hostReg a = .status → ∃ t, step s = .next t ∧ finished t ∧
      t.status.err = (s.status.err && !w.getLsbD 3) ∧
      t.status.errCode = (if w.getLsbD 3 then 0 else s.status.errCode)) ∧
    (∀ a w, HostWrites a w s → hostReg a ∈ [HostReg.cmd, .timing, .devcfg, .bufptr, .bufdata] →
      ∃ t, step s = .next t ∧ finished t ∧ t.status.err = true ∧ t.status.errCode = 2) ∧
    ∀ a, HostReads a s → hostReg a = .bufdata →
      ∃ t, step s = .next t ∧ finished t ∧ t.status.err = true ∧ t.status.errCode = 3 ∧ t.env.prdata = 0

/-! ## Host registers -/

/-- While BUSY = 1 (10_state.md R46): writes to CMD, TIMING, DEVCFG, BUFPTR and BUFDATA raise BUSY_WRITE and change
nothing else; reads of BUFDATA raise BUSY_READ, return 0 and leave PTR alone; the other accesses are as when idle. -/
def Obligations.BusyRefusesAccesses : Prop :=
  ∀ (s : State) (w : Word), s.status.busy = true →
    (∀ r : HostReg, r ∈ [HostReg.cmd, .timing, .devcfg, .bufptr, .bufdata] →
      hostWrite r w s = .next { s with status := { s.status with err := true, errCode := 2 } }) ∧
    hostRead .bufdata s =
      { s with
        status := { s.status with err := true, errCode := 3 }
        env := { s.env with prdata := 0 } } ∧
    (∀ r : HostReg, r ≠ .bufdata → hostRead r s = { s with env := { s.env with prdata := readReg r s } } ∧
      readReg r { s with status := { s.status with busy := false } } =
        if r = .status then readReg r s &&& 0xFFFFFFFE#32 else readReg r s) ∧
    hostWrite .ctrl w s = .next { s with ie := w.getLsbD 0 } ∧
    hostWrite .status w s = .next (acknowledge w s) ∧ hostWrite .result w s = .next s ∧ hostWrite .reserved w s = .next s

/-- An idle write to TIMING stores each field as 10_state.md R36 says: 0 stores 1 in TLOW and USDIV, 0 to 2 store 3 in
THIGH; it reads back so, with bits 31:24 zero, and changes nothing else. -/
def Obligations.TimingWriteStoresLegalValues : Prop :=
  ∀ (w : Word) (s : State), s.status.busy = false →
    ∃ t, hostWrite .timing w s = .next t ∧ t = { s with timing := t.timing } ∧
      t.timing.tlow = (if w.extractLsb' 0 8 = 0#8 then 1#8 else w.extractLsb' 0 8) ∧
      t.timing.thigh.toNat = max 3 (w.extractLsb' 8 8).toNat ∧
      t.timing.usdiv = (if w.extractLsb' 16 8 = 0#8 then 1#8 else w.extractLsb' 16 8) ∧
      readReg .timing t = (0#8 ++ t.timing.usdiv ++ t.timing.thigh ++ t.timing.tlow : BitVec 32) ∧
      LegalTiming t.timing = true

/-- Idle writes to DEVCFG, BUFPTR and CTRL store their field, ignore the reserved bits and change nothing else; they
read back zero-extended (10_state.md R25, R37, R38). RESULT reads DATA in bits 7:0, RESP in 15:8, COUNT in 24:16 and 0 in
31:25; the read has no side effect and a write changes nothing (R35). -/
def Obligations.FieldRegistersReadBack : Prop :=
  ∀ (w : Word) (s : State),
    (s.status.busy = false →
      (∃ t, hostWrite .devcfg w s = .next t ∧ t = { s with fpdat := w.extractLsb' 0 8 } ∧
        readReg .devcfg t = w &&& 0x000000FF#32) ∧
      (∃ t, hostWrite .bufptr w s = .next t ∧ t = { s with ptr := w.extractLsb' 0 8 } ∧
        readReg .bufptr t = w &&& 0x000000FF#32) ∧
      ∃ t, hostWrite .ctrl w s = .next t ∧ t = { s with ie := w.getLsbD 0 } ∧ readReg .ctrl t = w &&& 0x00000001#32) ∧
    (readReg .result s).extractLsb' 0 8 = s.result.data ∧ (readReg .result s).extractLsb' 8 8 = s.result.resp ∧
    (readReg .result s).extractLsb' 16 9 = s.result.count ∧ (readReg .result s).extractLsb' 25 7 = 0 ∧
    hostRead .result s = { s with env := { s.env with prdata := readReg .result s } } ∧
    hostWrite .result w s = .next s

/-- The BUFDATA port while idle (10_state.md R39): a write stores the byte at PTR and moves PTR on modulo 256, a read
returns the byte at PTR zero-extended and moves PTR on; a byte written reads back, every other byte is unchanged, and no
other register changes. What a byte that nothing has written reads as is the model's choice (assumption log 2 and 3): the
opaque `Config.freeByte` of the draw counter, which moves on by one. -/
def Obligations.BufdataPortReadsWhatWasWritten : Prop :=
  ∀ (w : Word) (s : State), s.status.busy = false →
    (∃ t, hostWrite .bufdata w s = .next t ∧ t = { s with buf := t.buf, ptr := s.ptr + 1 } ∧
      t.buf.read s.ptr.toNat = some (w.extractLsb' 0 8) ∧
      ∀ k, k ≠ s.ptr.toNat → t.buf.read k = s.buf.read k) ∧
    (∀ v, s.buf.read s.ptr.toNat = some v →
      hostRead .bufdata s = { s with ptr := s.ptr + 1, env := { s.env with prdata := v.setWidth 32 } }) ∧
    (s.buf.read s.ptr.toNat = none →
      hostRead .bufdata s =
        { s with
          ptr := s.ptr + 1
          env :=
            { s.env with
              prdata := (Config.freeByte s.env.draws).setWidth 32
              draws := s.env.draws + 1 } })

/-- Reserved offsets (10_state.md R40): every offset from 0x20 to 0x3C reads 0, ignores writes and raises no error; the
two low address bits are ignored everywhere (R22). -/
def Obligations.ReservedOffsetsReadZeroIgnoreWrites : Prop :=
  (∀ (a : BitVec 6) (w : Word) (s : State), 0x20 ≤ a.toNat →
    hostWrite (hostReg a) w s = .next s ∧ readReg (hostReg a) s = 0 ∧
      hostRead (hostReg a) s = { s with env := { s.env with prdata := 0 } }) ∧
  ∀ a b : BitVec 6, a.toNat / 4 = b.toNat / 4 → hostReg a = hostReg b

/-- A write to STATUS acts on DONE and ERR alone, as write 1 to clear, and clears ERRCODE with ERR; it is accepted while
busy and raises no error (10_state.md R33, R28, R30). -/
def Obligations.StatusWriteOneToClear : Prop :=
  ∀ (w : Word) (s : State), ∃ t, hostWrite .status w s = .next t ∧ t = { s with status := t.status } ∧
    t.status.busy = s.status.busy ∧ t.status.ok = s.status.ok ∧ t.status.fstage = s.status.fstage ∧
    t.status.done = (if w.getLsbD 1 then false else s.status.done) ∧
    t.status.err = (if w.getLsbD 3 then false else s.status.err) ∧
    t.status.errCode = (if w.getLsbD 3 then 0 else s.status.errCode)

/-- Each HostError has its code and the latest wins (60_exceptions.md R201, R209; 10_state.md R30): nothing but ERR and
ERRCODE changes. -/
def Obligations.HostErrorRecordsLatestCode : Prop :=
  ∀ (e d : HostError) (s : State),
    raiseHostError e (raiseHostError d s) = raiseHostError e s ∧
    raiseHostError e s = { s with status := { s.status with err := true, errCode := e.code } } ∧
    e.code.toNat = (match e with | .illegalOp => 1 | .busyWrite => 2 | .busyRead => 3 | .illegalOperand => 4)

/-- The interrupt (60_exceptions.md R205): `irq` is IE and (DONE or ERR); clearing IE drops it and leaves the pending
bits, setting IE again raises it when one is pending; clearing both pending bits drops it. -/
def Obligations.InterruptFollowsPendingBits : Prop :=
  ∀ s : State, (irq s = true ↔ s.ie = true ∧ (s.status.done = true ∨ s.status.err = true)) ∧
    (∃ t, hostWrite .ctrl 0 s = .next t ∧ irq t = false ∧ t.status = s.status) ∧
    (∃ t, hostWrite .ctrl 1 s = .next t ∧ irq t = (s.status.done || s.status.err) ∧ t.status = s.status) ∧
    ∃ t, hostWrite .status 0x0000000A s = .next t ∧ irq t = false

/-- Only a read of BUFDATA has a side effect (20_memory.md R69), and CMD reads 0 (10_state.md R34). -/
def Obligations.OnlyBufdataReadHasSideEffect : Prop :=
  ∀ (r : HostReg) (s : State), r ≠ .bufdata →
    hostRead r s = { s with env := { s.env with prdata := readReg r s } } ∧ readReg .cmd s = 0

/-- STATUS as read (10_state.md R26, R32), bit by bit: the status bits, the two fields, the mirror of the lines, and 0 in
every reserved bit. -/
def Obligations.StatusWordLayout : Prop :=
  ∀ s : State,
    (statusWord s).getLsbD 0 = s.status.busy ∧ (statusWord s).getLsbD 1 = s.status.done ∧
    (statusWord s).getLsbD 2 = s.status.ok ∧ (statusWord s).getLsbD 3 = s.status.err ∧
    (statusWord s).extractLsb' 4 4 = s.status.errCode ∧ (statusWord s).extractLsb' 8 2 = s.status.fstage ∧
    (statusWord s).extractLsb' 10 6 = 0 ∧ (statusWord s).getLsbD 16 = s.lines.c2ck ∧
    (statusWord s).getLsbD 17 = s.lines.oe ∧ (statusWord s).getLsbD 18 = s.lines.c2d ∧
    (statusWord s).getLsbD 19 = s.sync.last ∧ (statusWord s).extractLsb' 20 12 = 0

/-- A host program of the one statement `op` (30_encoding.md R105): after any number of idle cycles before the transfer
(`gap`; that a host leaves the same gap before every transfer is the model's choice, assumption log 13) and then its setup
and access cycle, the operation is accepted with the word of R104 latched, and the program has ended. -/
def Obligations.HostProgramIssuesOperation : Prop :=
  ∀ (i : Instr) (gap : Nat) (s : State), IsCommand i = true → WellFormed i = true → s.status.busy = false →
    (s.env.inputs.take (gap + 2)).all (fun c => c.rstN) = true →
    ∃ h, hostCycles (gap + 2) (HostRun.start [stmtOp i] gap s) = .next h ∧ h.machine.status.busy = true ∧
      h.machine.cur = latchedOf (encodeCmd i) ∧ h.current = none

/-! ## Bounded response -/

/-- Under the premise `target_responsive` (70_reset_and_hazards.md R235; its form is assumption log 17) every operation
finishes after finitely many strobes: for every well-formed operation, accepted while idle, and every sequence of sampled
levels that is responsive in it, after some number of wire events (strobes, the pulse, the settle delay) BUSY = 0 and
DONE = 1, no wire event is in progress and the lines are idle. -/
def Obligations.ResponsiveTargetEndsEveryOperation : Prop :=
  ∀ (i : Instr) (s : State) (σ : Nat → Bool), IsCommand i = true → WellFormed i = true → s.status.busy = false →
    TargetResponsive i s σ →
    ∃ n t, CompletesTo i (samplesUpTo σ n) s t ∧ t.status.busy = false ∧ t.status.done = true ∧
      t.seq.event = none ∧ IdleLines t.lines = true
end

