-- ==== Sys2Proof/Laws/Decode.lean ====
section
/-! SUPPORT. The fields of a CMD word, and the field encodings of 30_encoding.md R89. -/

namespace Sys2Proof

/-- The bits of a CMD word (30_encoding.md R88). -/
theorem getLsbD_cmdWord (op b : Byte) (w : Half) (i : Nat) :
    (cmdWord op b w).getLsbD i =
      if i < 8 then op.getLsbD i else if i < 16 then b.getLsbD (i - 8) else w.getLsbD (i - 16) := by
  show BitVec.getLsbD (w ++ b ++ op : BitVec (16 + 8 + 8)) i = _
  rw [BitVec.getLsbD_append, BitVec.getLsbD_append]
  by_cases h1 : i < 8
  · simp only [h1, if_true]
  · by_cases h2 : i < 16
    · simp only [h1, h2, if_false, if_true, show i - 8 < 8 by omega]
    · simp only [h1, h2, if_false, show ¬ i - 8 < 8 by omega, Nat.sub_sub]

/-- The bits of two bytes side by side. -/
theorem getLsbD_twoBytes (hi lo : Byte) (i : Nat) :
    (hi ++ lo : Half).getLsbD i = if i < 8 then lo.getLsbD i else hi.getLsbD (i - 8) := by
  show BitVec.getLsbD (hi ++ lo : BitVec (8 + 8)) i = _
  rw [BitVec.getLsbD_append]

@[simp] theorem opField_cmdWord (op b : Byte) (w : Half) : opField (cmdWord op b w) = op := by
  apply BitVec.eq_of_getLsbD_eq
  intro i hi
  simp only [opField, BitVec.getLsbD_extractLsb', hi, getLsbD_cmdWord, Nat.zero_add, if_true, decide_true,
    Bool.true_and]

@[simp] theorem bField_cmdWord (op b : Byte) (w : Half) : bField (cmdWord op b w) = b := by
  apply BitVec.eq_of_getLsbD_eq
  intro i hi
  simp only [bField, BitVec.getLsbD_extractLsb', hi, getLsbD_cmdWord, decide_true, Bool.true_and,
    show ¬ 8 + i < 8 by omega, if_false, show 8 + i < 16 by omega, if_true, Nat.add_sub_cancel_left]

@[simp] theorem wField_cmdWord (op b : Byte) (w : Half) : wField (cmdWord op b w) = w := by
  apply BitVec.eq_of_getLsbD_eq
  intro i hi
  simp only [wField, BitVec.getLsbD_extractLsb', hi, getLsbD_cmdWord, decide_true, Bool.true_and,
    show ¬ 16 + i < 8 by omega, if_false, show ¬ 16 + i < 16 by omega, Nat.add_sub_cancel_left]

/-- A CMD word is its three fields. -/
theorem cmdWord_fields (w : Word) : cmdWord (opField w) (bField w) (wField w) = w := by
  apply BitVec.eq_of_getLsbD_eq
  intro i hi
  rw [getLsbD_cmdWord]
  by_cases h1 : i < 8
  · simp only [h1, if_true, opField, BitVec.getLsbD_extractLsb', decide_true, Bool.true_and, Nat.zero_add]
  · by_cases h2 : i < 16
    · simp only [h1, h2, if_false, if_true, bField, BitVec.getLsbD_extractLsb', show i - 8 < 8 by omega, decide_true,
        Bool.true_and, show 8 + (i - 8) = i by omega]
    · simp only [h1, h2, if_false, wField, BitVec.getLsbD_extractLsb', show i - 16 < 16 by omega, decide_true,
        Bool.true_and, show 16 + (i - 16) = i by omega]

@[simp] theorem expectedBit_expectedField (e : Bool) : expectedBit (expectedField e) = e := by cases e <;> rfl

@[simp] theorem lowByte_valueField (v : Byte) : lowByte (valueField v) = v := by
  apply BitVec.eq_of_getLsbD_eq
  intro i hi
  simp only [lowByte, valueField, BitVec.getLsbD_extractLsb', hi, getLsbD_twoBytes, Nat.zero_add, if_true, decide_true,
    Bool.true_and]

/-- The flash address is its two bytes (20_memory.md R65). -/
theorem flashAddress_bytes (w : Half) : (highByte w ++ lowByte w : Half) = w := by
  apply BitVec.eq_of_getLsbD_eq
  intro i hi
  rw [getLsbD_twoBytes]
  by_cases h1 : i < 8
  · simp only [h1, if_true, lowByte, BitVec.getLsbD_extractLsb', decide_true, Bool.true_and, Nat.zero_add]
  · simp only [h1, if_false, highByte, BitVec.getLsbD_extractLsb', show i - 8 < 8 by omega, decide_true, Bool.true_and,
      show 8 + (i - 8) = i by omega]

end Sys2Proof
end

