-- ==== Sys2Proof/Laws/State.lean ====
section
/-! SUPPORT. One lemma per field per named update of the state: what an update leaves and what it writes, so that no proof
unfolds a record update. -/

namespace Sys2Proof.Machine

/-! ## `withTodo` -/

@[simp] theorem withTodo_ie (t : List SeqStep) (s : State) : (withTodo t s).ie = s.ie := rfl
@[simp] theorem withTodo_status (t : List SeqStep) (s : State) : (withTodo t s).status = s.status := rfl
@[simp] theorem withTodo_result (t : List SeqStep) (s : State) : (withTodo t s).result = s.result := rfl
@[simp] theorem withTodo_timing (t : List SeqStep) (s : State) : (withTodo t s).timing = s.timing := rfl
@[simp] theorem withTodo_fpdat (t : List SeqStep) (s : State) : (withTodo t s).fpdat = s.fpdat := rfl
@[simp] theorem withTodo_ptr (t : List SeqStep) (s : State) : (withTodo t s).ptr = s.ptr := rfl
@[simp] theorem withTodo_buf (t : List SeqStep) (s : State) : (withTodo t s).buf = s.buf := rfl
@[simp] theorem withTodo_cur (t : List SeqStep) (s : State) : (withTodo t s).cur = s.cur := rfl
@[simp] theorem withTodo_lines (t : List SeqStep) (s : State) : (withTodo t s).lines = s.lines := rfl
@[simp] theorem withTodo_sync (t : List SeqStep) (s : State) : (withTodo t s).sync = s.sync := rfl
@[simp] theorem withTodo_env (t : List SeqStep) (s : State) : (withTodo t s).env = s.env := rfl

/-! ## `raiseHostError` -/

@[simp] theorem raiseHostError_ie (e : HostError) (s : State) : (raiseHostError e s).ie = s.ie := rfl
@[simp] theorem raiseHostError_result (e : HostError) (s : State) : (raiseHostError e s).result = s.result := rfl
@[simp] theorem raiseHostError_timing (e : HostError) (s : State) : (raiseHostError e s).timing = s.timing := rfl
@[simp] theorem raiseHostError_fpdat (e : HostError) (s : State) : (raiseHostError e s).fpdat = s.fpdat := rfl
@[simp] theorem raiseHostError_ptr (e : HostError) (s : State) : (raiseHostError e s).ptr = s.ptr := rfl
@[simp] theorem raiseHostError_buf (e : HostError) (s : State) : (raiseHostError e s).buf = s.buf := rfl
@[simp] theorem raiseHostError_cur (e : HostError) (s : State) : (raiseHostError e s).cur = s.cur := rfl
@[simp] theorem raiseHostError_seq (e : HostError) (s : State) : (raiseHostError e s).seq = s.seq := rfl
@[simp] theorem raiseHostError_lines (e : HostError) (s : State) : (raiseHostError e s).lines = s.lines := rfl
@[simp] theorem raiseHostError_sync (e : HostError) (s : State) : (raiseHostError e s).sync = s.sync := rfl
@[simp] theorem raiseHostError_env (e : HostError) (s : State) : (raiseHostError e s).env = s.env := rfl

/-! ## `acknowledge` -/

@[simp] theorem acknowledge_ie (w : Word) (s : State) : (acknowledge w s).ie = s.ie := rfl
@[simp] theorem acknowledge_result (w : Word) (s : State) : (acknowledge w s).result = s.result := rfl
@[simp] theorem acknowledge_timing (w : Word) (s : State) : (acknowledge w s).timing = s.timing := rfl
@[simp] theorem acknowledge_fpdat (w : Word) (s : State) : (acknowledge w s).fpdat = s.fpdat := rfl
@[simp] theorem acknowledge_ptr (w : Word) (s : State) : (acknowledge w s).ptr = s.ptr := rfl
@[simp] theorem acknowledge_buf (w : Word) (s : State) : (acknowledge w s).buf = s.buf := rfl
@[simp] theorem acknowledge_cur (w : Word) (s : State) : (acknowledge w s).cur = s.cur := rfl
@[simp] theorem acknowledge_seq (w : Word) (s : State) : (acknowledge w s).seq = s.seq := rfl
@[simp] theorem acknowledge_lines (w : Word) (s : State) : (acknowledge w s).lines = s.lines := rfl
@[simp] theorem acknowledge_sync (w : Word) (s : State) : (acknowledge w s).sync = s.sync := rfl
@[simp] theorem acknowledge_env (w : Word) (s : State) : (acknowledge w s).env = s.env := rfl

/-! ## `setBufByte` -/

@[simp] theorem setBufByte_ie (i : Nat) (v : Byte) (s : State) : (setBufByte i v s).ie = s.ie := rfl
@[simp] theorem setBufByte_status (i : Nat) (v : Byte) (s : State) : (setBufByte i v s).status = s.status := rfl
@[simp] theorem setBufByte_result (i : Nat) (v : Byte) (s : State) : (setBufByte i v s).result = s.result := rfl
@[simp] theorem setBufByte_timing (i : Nat) (v : Byte) (s : State) : (setBufByte i v s).timing = s.timing := rfl
@[simp] theorem setBufByte_fpdat (i : Nat) (v : Byte) (s : State) : (setBufByte i v s).fpdat = s.fpdat := rfl
@[simp] theorem setBufByte_ptr (i : Nat) (v : Byte) (s : State) : (setBufByte i v s).ptr = s.ptr := rfl
@[simp] theorem setBufByte_cur (i : Nat) (v : Byte) (s : State) : (setBufByte i v s).cur = s.cur := rfl
@[simp] theorem setBufByte_seq (i : Nat) (v : Byte) (s : State) : (setBufByte i v s).seq = s.seq := rfl
@[simp] theorem setBufByte_lines (i : Nat) (v : Byte) (s : State) : (setBufByte i v s).lines = s.lines := rfl
@[simp] theorem setBufByte_sync (i : Nat) (v : Byte) (s : State) : (setBufByte i v s).sync = s.sync := rfl
@[simp] theorem setBufByte_env (i : Nat) (v : Byte) (s : State) : (setBufByte i v s).env = s.env := rfl

/-! ## `beginStrobe` -/

@[simp] theorem beginStrobe_ie (k : FrameKind) (p : WirePos) (s : State) : (beginStrobe k p s).ie = s.ie := rfl
@[simp] theorem beginStrobe_status (k : FrameKind) (p : WirePos) (s : State) : (beginStrobe k p s).status = s.status := rfl
@[simp] theorem beginStrobe_result (k : FrameKind) (p : WirePos) (s : State) : (beginStrobe k p s).result = s.result := rfl
@[simp] theorem beginStrobe_timing (k : FrameKind) (p : WirePos) (s : State) : (beginStrobe k p s).timing = s.timing := rfl
@[simp] theorem beginStrobe_fpdat (k : FrameKind) (p : WirePos) (s : State) : (beginStrobe k p s).fpdat = s.fpdat := rfl
@[simp] theorem beginStrobe_ptr (k : FrameKind) (p : WirePos) (s : State) : (beginStrobe k p s).ptr = s.ptr := rfl
@[simp] theorem beginStrobe_buf (k : FrameKind) (p : WirePos) (s : State) : (beginStrobe k p s).buf = s.buf := rfl
@[simp] theorem beginStrobe_cur (k : FrameKind) (p : WirePos) (s : State) : (beginStrobe k p s).cur = s.cur := rfl
@[simp] theorem beginStrobe_sync (k : FrameKind) (p : WirePos) (s : State) : (beginStrobe k p s).sync = s.sync := rfl
@[simp] theorem beginStrobe_env (k : FrameKind) (p : WirePos) (s : State) : (beginStrobe k p s).env = s.env := rfl

/-! ## `beginFrame` -/

@[simp] theorem beginFrame_ie (k : FrameKind) (v : Byte) (s : State) : (beginFrame k v s).ie = s.ie := rfl
@[simp] theorem beginFrame_status (k : FrameKind) (v : Byte) (s : State) : (beginFrame k v s).status = s.status := rfl
@[simp] theorem beginFrame_result (k : FrameKind) (v : Byte) (s : State) : (beginFrame k v s).result = s.result := rfl
@[simp] theorem beginFrame_timing (k : FrameKind) (v : Byte) (s : State) : (beginFrame k v s).timing = s.timing := rfl
@[simp] theorem beginFrame_fpdat (k : FrameKind) (v : Byte) (s : State) : (beginFrame k v s).fpdat = s.fpdat := rfl
@[simp] theorem beginFrame_ptr (k : FrameKind) (v : Byte) (s : State) : (beginFrame k v s).ptr = s.ptr := rfl
@[simp] theorem beginFrame_buf (k : FrameKind) (v : Byte) (s : State) : (beginFrame k v s).buf = s.buf := rfl
@[simp] theorem beginFrame_cur (k : FrameKind) (v : Byte) (s : State) : (beginFrame k v s).cur = s.cur := rfl
@[simp] theorem beginFrame_sync (k : FrameKind) (v : Byte) (s : State) : (beginFrame k v s).sync = s.sync := rfl
@[simp] theorem beginFrame_env (k : FrameKind) (v : Byte) (s : State) : (beginFrame k v s).env = s.env := rfl

/-! ## `beginPulse` -/

@[simp] theorem beginPulse_ie (s : State) : (beginPulse s).ie = s.ie := rfl
@[simp] theorem beginPulse_status (s : State) : (beginPulse s).status = s.status := rfl
@[simp] theorem beginPulse_result (s : State) : (beginPulse s).result = s.result := rfl
@[simp] theorem beginPulse_timing (s : State) : (beginPulse s).timing = s.timing := rfl
@[simp] theorem beginPulse_fpdat (s : State) : (beginPulse s).fpdat = s.fpdat := rfl
@[simp] theorem beginPulse_ptr (s : State) : (beginPulse s).ptr = s.ptr := rfl
@[simp] theorem beginPulse_buf (s : State) : (beginPulse s).buf = s.buf := rfl
@[simp] theorem beginPulse_cur (s : State) : (beginPulse s).cur = s.cur := rfl
@[simp] theorem beginPulse_sync (s : State) : (beginPulse s).sync = s.sync := rfl
@[simp] theorem beginPulse_env (s : State) : (beginPulse s).env = s.env := rfl

/-! ## `beginSettle` -/

@[simp] theorem beginSettle_ie (s : State) : (beginSettle s).ie = s.ie := rfl
@[simp] theorem beginSettle_status (s : State) : (beginSettle s).status = s.status := rfl
@[simp] theorem beginSettle_result (s : State) : (beginSettle s).result = s.result := rfl
@[simp] theorem beginSettle_timing (s : State) : (beginSettle s).timing = s.timing := rfl
@[simp] theorem beginSettle_fpdat (s : State) : (beginSettle s).fpdat = s.fpdat := rfl
@[simp] theorem beginSettle_ptr (s : State) : (beginSettle s).ptr = s.ptr := rfl
@[simp] theorem beginSettle_buf (s : State) : (beginSettle s).buf = s.buf := rfl
@[simp] theorem beginSettle_cur (s : State) : (beginSettle s).cur = s.cur := rfl
@[simp] theorem beginSettle_sync (s : State) : (beginSettle s).sync = s.sync := rfl
@[simp] theorem beginSettle_env (s : State) : (beginSettle s).env = s.env := rfl

/-! ## `commandInit` -/

@[simp] theorem commandInit_ie (c : Byte) (s : State) : (commandInit c s).ie = s.ie := rfl
@[simp] theorem commandInit_status (c : Byte) (s : State) : (commandInit c s).status = s.status := rfl
@[simp] theorem commandInit_result (c : Byte) (s : State) : (commandInit c s).result = s.result := rfl
@[simp] theorem commandInit_timing (c : Byte) (s : State) : (commandInit c s).timing = s.timing := rfl
@[simp] theorem commandInit_fpdat (c : Byte) (s : State) : (commandInit c s).fpdat = s.fpdat := rfl
@[simp] theorem commandInit_ptr (c : Byte) (s : State) : (commandInit c s).ptr = s.ptr := rfl
@[simp] theorem commandInit_buf (c : Byte) (s : State) : (commandInit c s).buf = s.buf := rfl
@[simp] theorem commandInit_cur (c : Byte) (s : State) : (commandInit c s).cur = s.cur := rfl
@[simp] theorem commandInit_sync (c : Byte) (s : State) : (commandInit c s).sync = s.sync := rfl
@[simp] theorem commandInit_env (c : Byte) (s : State) : (commandInit c s).env = s.env := rfl

/-! ## `accepted` -/

@[simp] theorem accepted_ie (w : Word) (p : List SeqStep) (f : Finish) (n : BitVec 9) (s : State) : (accepted w p f n s).ie = s.ie := rfl
@[simp] theorem accepted_result (w : Word) (p : List SeqStep) (f : Finish) (n : BitVec 9) (s : State) : (accepted w p f n s).result = s.result := rfl
@[simp] theorem accepted_timing (w : Word) (p : List SeqStep) (f : Finish) (n : BitVec 9) (s : State) : (accepted w p f n s).timing = s.timing := rfl
@[simp] theorem accepted_fpdat (w : Word) (p : List SeqStep) (f : Finish) (n : BitVec 9) (s : State) : (accepted w p f n s).fpdat = s.fpdat := rfl
@[simp] theorem accepted_ptr (w : Word) (p : List SeqStep) (f : Finish) (n : BitVec 9) (s : State) : (accepted w p f n s).ptr = s.ptr := rfl
@[simp] theorem accepted_buf (w : Word) (p : List SeqStep) (f : Finish) (n : BitVec 9) (s : State) : (accepted w p f n s).buf = s.buf := rfl
@[simp] theorem accepted_lines (w : Word) (p : List SeqStep) (f : Finish) (n : BitVec 9) (s : State) : (accepted w p f n s).lines = s.lines := rfl
@[simp] theorem accepted_sync (w : Word) (p : List SeqStep) (f : Finish) (n : BitVec 9) (s : State) : (accepted w p f n s).sync = s.sync := rfl
@[simp] theorem accepted_env (w : Word) (p : List SeqStep) (f : Finish) (n : BitVec 9) (s : State) : (accepted w p f n s).env = s.env := rfl

/-! ## `finishOp` -/

@[simp] theorem finishOp_ie (s : State) : (finishOp s).ie = s.ie := rfl
@[simp] theorem finishOp_timing (s : State) : (finishOp s).timing = s.timing := rfl
@[simp] theorem finishOp_fpdat (s : State) : (finishOp s).fpdat = s.fpdat := rfl
@[simp] theorem finishOp_ptr (s : State) : (finishOp s).ptr = s.ptr := rfl
@[simp] theorem finishOp_buf (s : State) : (finishOp s).buf = s.buf := rfl
@[simp] theorem finishOp_cur (s : State) : (finishOp s).cur = s.cur := rfl
@[simp] theorem finishOp_lines (s : State) : (finishOp s).lines = s.lines := rfl
@[simp] theorem finishOp_sync (s : State) : (finishOp s).sync = s.sync := rfl
@[simp] theorem finishOp_env (s : State) : (finishOp s).env = s.env := rfl

/-! ## `finishRejected` -/

@[simp] theorem finishRejected_ie (s : State) : (finishRejected s).ie = s.ie := rfl
@[simp] theorem finishRejected_timing (s : State) : (finishRejected s).timing = s.timing := rfl
@[simp] theorem finishRejected_fpdat (s : State) : (finishRejected s).fpdat = s.fpdat := rfl
@[simp] theorem finishRejected_ptr (s : State) : (finishRejected s).ptr = s.ptr := rfl
@[simp] theorem finishRejected_buf (s : State) : (finishRejected s).buf = s.buf := rfl
@[simp] theorem finishRejected_cur (s : State) : (finishRejected s).cur = s.cur := rfl
@[simp] theorem finishRejected_lines (s : State) : (finishRejected s).lines = s.lines := rfl
@[simp] theorem finishRejected_sync (s : State) : (finishRejected s).sync = s.sync := rfl
@[simp] theorem finishRejected_env (s : State) : (finishRejected s).env = s.env := rfl

/-! ## `recordStatus` -/

@[simp] theorem recordStatus_ie (s : State) : (recordStatus s).ie = s.ie := rfl
@[simp] theorem recordStatus_status (s : State) : (recordStatus s).status = s.status := rfl
@[simp] theorem recordStatus_result (s : State) : (recordStatus s).result = s.result := rfl
@[simp] theorem recordStatus_timing (s : State) : (recordStatus s).timing = s.timing := rfl
@[simp] theorem recordStatus_fpdat (s : State) : (recordStatus s).fpdat = s.fpdat := rfl
@[simp] theorem recordStatus_ptr (s : State) : (recordStatus s).ptr = s.ptr := rfl
@[simp] theorem recordStatus_buf (s : State) : (recordStatus s).buf = s.buf := rfl
@[simp] theorem recordStatus_cur (s : State) : (recordStatus s).cur = s.cur := rfl
@[simp] theorem recordStatus_lines (s : State) : (recordStatus s).lines = s.lines := rfl
@[simp] theorem recordStatus_sync (s : State) : (recordStatus s).sync = s.sync := rfl
@[simp] theorem recordStatus_env (s : State) : (recordStatus s).env = s.env := rfl

/-! ## `recordResponse` -/

@[simp] theorem recordResponse_ie (s : State) : (recordResponse s).ie = s.ie := rfl
@[simp] theorem recordResponse_status (s : State) : (recordResponse s).status = s.status := rfl
@[simp] theorem recordResponse_result (s : State) : (recordResponse s).result = s.result := rfl
@[simp] theorem recordResponse_timing (s : State) : (recordResponse s).timing = s.timing := rfl
@[simp] theorem recordResponse_fpdat (s : State) : (recordResponse s).fpdat = s.fpdat := rfl
@[simp] theorem recordResponse_ptr (s : State) : (recordResponse s).ptr = s.ptr := rfl
@[simp] theorem recordResponse_buf (s : State) : (recordResponse s).buf = s.buf := rfl
@[simp] theorem recordResponse_cur (s : State) : (recordResponse s).cur = s.cur := rfl
@[simp] theorem recordResponse_lines (s : State) : (recordResponse s).lines = s.lines := rfl
@[simp] theorem recordResponse_sync (s : State) : (recordResponse s).sync = s.sync := rfl
@[simp] theorem recordResponse_env (s : State) : (recordResponse s).env = s.env := rfl

/-! ## `bumpIndex` -/

@[simp] theorem bumpIndex_ie (s : State) : (bumpIndex s).ie = s.ie := rfl
@[simp] theorem bumpIndex_status (s : State) : (bumpIndex s).status = s.status := rfl
@[simp] theorem bumpIndex_result (s : State) : (bumpIndex s).result = s.result := rfl
@[simp] theorem bumpIndex_timing (s : State) : (bumpIndex s).timing = s.timing := rfl
@[simp] theorem bumpIndex_fpdat (s : State) : (bumpIndex s).fpdat = s.fpdat := rfl
@[simp] theorem bumpIndex_ptr (s : State) : (bumpIndex s).ptr = s.ptr := rfl
@[simp] theorem bumpIndex_buf (s : State) : (bumpIndex s).buf = s.buf := rfl
@[simp] theorem bumpIndex_cur (s : State) : (bumpIndex s).cur = s.cur := rfl
@[simp] theorem bumpIndex_lines (s : State) : (bumpIndex s).lines = s.lines := rfl
@[simp] theorem bumpIndex_sync (s : State) : (bumpIndex s).sync = s.sync := rfl
@[simp] theorem bumpIndex_env (s : State) : (bumpIndex s).env = s.env := rfl

/-! ## `noteEvent` -/

@[simp] theorem noteEvent_ie (e : WireEvent) (s : State) : (noteEvent e s).ie = s.ie := rfl
@[simp] theorem noteEvent_status (e : WireEvent) (s : State) : (noteEvent e s).status = s.status := rfl
@[simp] theorem noteEvent_result (e : WireEvent) (s : State) : (noteEvent e s).result = s.result := rfl
@[simp] theorem noteEvent_timing (e : WireEvent) (s : State) : (noteEvent e s).timing = s.timing := rfl
@[simp] theorem noteEvent_fpdat (e : WireEvent) (s : State) : (noteEvent e s).fpdat = s.fpdat := rfl
@[simp] theorem noteEvent_ptr (e : WireEvent) (s : State) : (noteEvent e s).ptr = s.ptr := rfl
@[simp] theorem noteEvent_buf (e : WireEvent) (s : State) : (noteEvent e s).buf = s.buf := rfl
@[simp] theorem noteEvent_cur (e : WireEvent) (s : State) : (noteEvent e s).cur = s.cur := rfl
@[simp] theorem noteEvent_seq (e : WireEvent) (s : State) : (noteEvent e s).seq = s.seq := rfl
@[simp] theorem noteEvent_lines (e : WireEvent) (s : State) : (noteEvent e s).lines = s.lines := rfl
@[simp] theorem noteEvent_sync (e : WireEvent) (s : State) : (noteEvent e s).sync = s.sync := rfl

/-! ## `latchSample` -/

@[simp] theorem latchSample_ie (b : Bool) (s : State) : (latchSample b s).ie = s.ie := rfl
@[simp] theorem latchSample_status (b : Bool) (s : State) : (latchSample b s).status = s.status := rfl
@[simp] theorem latchSample_result (b : Bool) (s : State) : (latchSample b s).result = s.result := rfl
@[simp] theorem latchSample_timing (b : Bool) (s : State) : (latchSample b s).timing = s.timing := rfl
@[simp] theorem latchSample_fpdat (b : Bool) (s : State) : (latchSample b s).fpdat = s.fpdat := rfl
@[simp] theorem latchSample_ptr (b : Bool) (s : State) : (latchSample b s).ptr = s.ptr := rfl
@[simp] theorem latchSample_buf (b : Bool) (s : State) : (latchSample b s).buf = s.buf := rfl
@[simp] theorem latchSample_cur (b : Bool) (s : State) : (latchSample b s).cur = s.cur := rfl
@[simp] theorem latchSample_lines (b : Bool) (s : State) : (latchSample b s).lines = s.lines := rfl
@[simp] theorem latchSample_sync (b : Bool) (s : State) : (latchSample b s).sync = s.sync := rfl
@[simp] theorem latchSample_env (b : Bool) (s : State) : (latchSample b s).env = s.env := rfl

/-! ## `enterPhase` -/

@[simp] theorem enterPhase_ie (ph : Phase) (n : BitVec 23) (c : Bool) (s : State) : (enterPhase ph n c s).ie = s.ie := rfl
@[simp] theorem enterPhase_status (ph : Phase) (n : BitVec 23) (c : Bool) (s : State) : (enterPhase ph n c s).status = s.status := rfl
@[simp] theorem enterPhase_result (ph : Phase) (n : BitVec 23) (c : Bool) (s : State) : (enterPhase ph n c s).result = s.result := rfl
@[simp] theorem enterPhase_timing (ph : Phase) (n : BitVec 23) (c : Bool) (s : State) : (enterPhase ph n c s).timing = s.timing := rfl
@[simp] theorem enterPhase_fpdat (ph : Phase) (n : BitVec 23) (c : Bool) (s : State) : (enterPhase ph n c s).fpdat = s.fpdat := rfl
@[simp] theorem enterPhase_ptr (ph : Phase) (n : BitVec 23) (c : Bool) (s : State) : (enterPhase ph n c s).ptr = s.ptr := rfl
@[simp] theorem enterPhase_buf (ph : Phase) (n : BitVec 23) (c : Bool) (s : State) : (enterPhase ph n c s).buf = s.buf := rfl
@[simp] theorem enterPhase_cur (ph : Phase) (n : BitVec 23) (c : Bool) (s : State) : (enterPhase ph n c s).cur = s.cur := rfl
@[simp] theorem enterPhase_sync (ph : Phase) (n : BitVec 23) (c : Bool) (s : State) : (enterPhase ph n c s).sync = s.sync := rfl
@[simp] theorem enterPhase_env (ph : Phase) (n : BitVec 23) (c : Bool) (s : State) : (enterPhase ph n c s).env = s.env := rfl

/-! ## `countDown` -/

@[simp] theorem countDown_ie (s : State) : (countDown s).ie = s.ie := rfl
@[simp] theorem countDown_status (s : State) : (countDown s).status = s.status := rfl
@[simp] theorem countDown_result (s : State) : (countDown s).result = s.result := rfl
@[simp] theorem countDown_timing (s : State) : (countDown s).timing = s.timing := rfl
@[simp] theorem countDown_fpdat (s : State) : (countDown s).fpdat = s.fpdat := rfl
@[simp] theorem countDown_ptr (s : State) : (countDown s).ptr = s.ptr := rfl
@[simp] theorem countDown_buf (s : State) : (countDown s).buf = s.buf := rfl
@[simp] theorem countDown_cur (s : State) : (countDown s).cur = s.cur := rfl
@[simp] theorem countDown_lines (s : State) : (countDown s).lines = s.lines := rfl
@[simp] theorem countDown_sync (s : State) : (countDown s).sync = s.sync := rfl
@[simp] theorem countDown_env (s : State) : (countDown s).env = s.env := rfl

/-! ## `bumpPtr` -/

@[simp] theorem bumpPtr_ie (s : State) : (bumpPtr s).ie = s.ie := rfl
@[simp] theorem bumpPtr_status (s : State) : (bumpPtr s).status = s.status := rfl
@[simp] theorem bumpPtr_result (s : State) : (bumpPtr s).result = s.result := rfl
@[simp] theorem bumpPtr_timing (s : State) : (bumpPtr s).timing = s.timing := rfl
@[simp] theorem bumpPtr_fpdat (s : State) : (bumpPtr s).fpdat = s.fpdat := rfl
@[simp] theorem bumpPtr_buf (s : State) : (bumpPtr s).buf = s.buf := rfl
@[simp] theorem bumpPtr_cur (s : State) : (bumpPtr s).cur = s.cur := rfl
@[simp] theorem bumpPtr_seq (s : State) : (bumpPtr s).seq = s.seq := rfl
@[simp] theorem bumpPtr_lines (s : State) : (bumpPtr s).lines = s.lines := rfl
@[simp] theorem bumpPtr_sync (s : State) : (bumpPtr s).sync = s.sync := rfl
@[simp] theorem bumpPtr_env (s : State) : (bumpPtr s).env = s.env := rfl

/-! ## `notePrdata` -/

@[simp] theorem notePrdata_ie (v : Word) (s : State) : (notePrdata v s).ie = s.ie := rfl
@[simp] theorem notePrdata_status (v : Word) (s : State) : (notePrdata v s).status = s.status := rfl
@[simp] theorem notePrdata_result (v : Word) (s : State) : (notePrdata v s).result = s.result := rfl
@[simp] theorem notePrdata_timing (v : Word) (s : State) : (notePrdata v s).timing = s.timing := rfl
@[simp] theorem notePrdata_fpdat (v : Word) (s : State) : (notePrdata v s).fpdat = s.fpdat := rfl
@[simp] theorem notePrdata_ptr (v : Word) (s : State) : (notePrdata v s).ptr = s.ptr := rfl
@[simp] theorem notePrdata_buf (v : Word) (s : State) : (notePrdata v s).buf = s.buf := rfl
@[simp] theorem notePrdata_cur (v : Word) (s : State) : (notePrdata v s).cur = s.cur := rfl
@[simp] theorem notePrdata_seq (v : Word) (s : State) : (notePrdata v s).seq = s.seq := rfl
@[simp] theorem notePrdata_lines (v : Word) (s : State) : (notePrdata v s).lines = s.lines := rfl
@[simp] theorem notePrdata_sync (v : Word) (s : State) : (notePrdata v s).sync = s.sync := rfl

/-! ## `latchWord` -/

@[simp] theorem latchWord_ie (w : Word) (s : State) : (latchWord w s).ie = s.ie := rfl
@[simp] theorem latchWord_status (w : Word) (s : State) : (latchWord w s).status = s.status := rfl
@[simp] theorem latchWord_result (w : Word) (s : State) : (latchWord w s).result = s.result := rfl
@[simp] theorem latchWord_timing (w : Word) (s : State) : (latchWord w s).timing = s.timing := rfl
@[simp] theorem latchWord_fpdat (w : Word) (s : State) : (latchWord w s).fpdat = s.fpdat := rfl
@[simp] theorem latchWord_ptr (w : Word) (s : State) : (latchWord w s).ptr = s.ptr := rfl
@[simp] theorem latchWord_buf (w : Word) (s : State) : (latchWord w s).buf = s.buf := rfl
@[simp] theorem latchWord_seq (w : Word) (s : State) : (latchWord w s).seq = s.seq := rfl
@[simp] theorem latchWord_lines (w : Word) (s : State) : (latchWord w s).lines = s.lines := rfl
@[simp] theorem latchWord_sync (w : Word) (s : State) : (latchWord w s).sync = s.sync := rfl
@[simp] theorem latchWord_env (w : Word) (s : State) : (latchWord w s).env = s.env := rfl

/-! ## `dropInput` -/

@[simp] theorem dropInput_ie (s : State) : (dropInput s).ie = s.ie := rfl
@[simp] theorem dropInput_status (s : State) : (dropInput s).status = s.status := rfl
@[simp] theorem dropInput_result (s : State) : (dropInput s).result = s.result := rfl
@[simp] theorem dropInput_timing (s : State) : (dropInput s).timing = s.timing := rfl
@[simp] theorem dropInput_fpdat (s : State) : (dropInput s).fpdat = s.fpdat := rfl
@[simp] theorem dropInput_ptr (s : State) : (dropInput s).ptr = s.ptr := rfl
@[simp] theorem dropInput_buf (s : State) : (dropInput s).buf = s.buf := rfl
@[simp] theorem dropInput_cur (s : State) : (dropInput s).cur = s.cur := rfl
@[simp] theorem dropInput_seq (s : State) : (dropInput s).seq = s.seq := rfl
@[simp] theorem dropInput_lines (s : State) : (dropInput s).lines = s.lines := rfl
@[simp] theorem dropInput_sync (s : State) : (dropInput s).sync = s.sync := rfl

/-! ## `drawForByte` -/

@[simp] theorem drawForByte_ie (i : Nat) (s : State) : (drawForByte i s).ie = s.ie := by unfold drawForByte; split <;> rfl
@[simp] theorem drawForByte_status (i : Nat) (s : State) : (drawForByte i s).status = s.status := by unfold drawForByte; split <;> rfl
@[simp] theorem drawForByte_result (i : Nat) (s : State) : (drawForByte i s).result = s.result := by unfold drawForByte; split <;> rfl
@[simp] theorem drawForByte_timing (i : Nat) (s : State) : (drawForByte i s).timing = s.timing := by unfold drawForByte; split <;> rfl
@[simp] theorem drawForByte_fpdat (i : Nat) (s : State) : (drawForByte i s).fpdat = s.fpdat := by unfold drawForByte; split <;> rfl
@[simp] theorem drawForByte_ptr (i : Nat) (s : State) : (drawForByte i s).ptr = s.ptr := by unfold drawForByte; split <;> rfl
@[simp] theorem drawForByte_buf (i : Nat) (s : State) : (drawForByte i s).buf = s.buf := by unfold drawForByte; split <;> rfl
@[simp] theorem drawForByte_cur (i : Nat) (s : State) : (drawForByte i s).cur = s.cur := by unfold drawForByte; split <;> rfl
@[simp] theorem drawForByte_seq (i : Nat) (s : State) : (drawForByte i s).seq = s.seq := by unfold drawForByte; split <;> rfl
@[simp] theorem drawForByte_lines (i : Nat) (s : State) : (drawForByte i s).lines = s.lines := by unfold drawForByte; split <;> rfl
@[simp] theorem drawForByte_sync (i : Nat) (s : State) : (drawForByte i s).sync = s.sync := by unfold drawForByte; split <;> rfl

/-! ## `drawForPin` -/

@[simp] theorem drawForPin_ie (c : CycleInput) (l : Lines) (s : State) : (drawForPin c l s).ie = s.ie := by unfold drawForPin; split <;> rfl
@[simp] theorem drawForPin_status (c : CycleInput) (l : Lines) (s : State) : (drawForPin c l s).status = s.status := by unfold drawForPin; split <;> rfl
@[simp] theorem drawForPin_result (c : CycleInput) (l : Lines) (s : State) : (drawForPin c l s).result = s.result := by unfold drawForPin; split <;> rfl
@[simp] theorem drawForPin_timing (c : CycleInput) (l : Lines) (s : State) : (drawForPin c l s).timing = s.timing := by unfold drawForPin; split <;> rfl
@[simp] theorem drawForPin_fpdat (c : CycleInput) (l : Lines) (s : State) : (drawForPin c l s).fpdat = s.fpdat := by unfold drawForPin; split <;> rfl
@[simp] theorem drawForPin_ptr (c : CycleInput) (l : Lines) (s : State) : (drawForPin c l s).ptr = s.ptr := by unfold drawForPin; split <;> rfl
@[simp] theorem drawForPin_buf (c : CycleInput) (l : Lines) (s : State) : (drawForPin c l s).buf = s.buf := by unfold drawForPin; split <;> rfl
@[simp] theorem drawForPin_cur (c : CycleInput) (l : Lines) (s : State) : (drawForPin c l s).cur = s.cur := by unfold drawForPin; split <;> rfl
@[simp] theorem drawForPin_seq (c : CycleInput) (l : Lines) (s : State) : (drawForPin c l s).seq = s.seq := by unfold drawForPin; split <;> rfl
@[simp] theorem drawForPin_lines (c : CycleInput) (l : Lines) (s : State) : (drawForPin c l s).lines = s.lines := by unfold drawForPin; split <;> rfl
@[simp] theorem drawForPin_sync (c : CycleInput) (l : Lines) (s : State) : (drawForPin c l s).sync = s.sync := by unfold drawForPin; split <;> rfl

/-! ## `shiftData` -/

@[simp] theorem shiftData_ie (p : WirePos) (b : Bool) (s : State) : (shiftData p b s).ie = s.ie := by cases p <;> rfl
@[simp] theorem shiftData_status (p : WirePos) (b : Bool) (s : State) : (shiftData p b s).status = s.status := by cases p <;> rfl
@[simp] theorem shiftData_result (p : WirePos) (b : Bool) (s : State) : (shiftData p b s).result = s.result := by cases p <;> rfl
@[simp] theorem shiftData_timing (p : WirePos) (b : Bool) (s : State) : (shiftData p b s).timing = s.timing := by cases p <;> rfl
@[simp] theorem shiftData_fpdat (p : WirePos) (b : Bool) (s : State) : (shiftData p b s).fpdat = s.fpdat := by cases p <;> rfl
@[simp] theorem shiftData_ptr (p : WirePos) (b : Bool) (s : State) : (shiftData p b s).ptr = s.ptr := by cases p <;> rfl
@[simp] theorem shiftData_buf (p : WirePos) (b : Bool) (s : State) : (shiftData p b s).buf = s.buf := by cases p <;> rfl
@[simp] theorem shiftData_cur (p : WirePos) (b : Bool) (s : State) : (shiftData p b s).cur = s.cur := by cases p <;> rfl
@[simp] theorem shiftData_lines (p : WirePos) (b : Bool) (s : State) : (shiftData p b s).lines = s.lines := by cases p <;> rfl
@[simp] theorem shiftData_sync (p : WirePos) (b : Bool) (s : State) : (shiftData p b s).sync = s.sync := by cases p <;> rfl
@[simp] theorem shiftData_env (p : WirePos) (b : Bool) (s : State) : (shiftData p b s).env = s.env := by cases p <;> rfl

/-! ## What each update writes -/

@[simp] theorem withTodo_seq (t : List SeqStep) (s : State) : (withTodo t s).seq = { s.seq with todo := t } := rfl
@[simp] theorem raiseHostError_status (e : HostError) (s : State) :
    (raiseHostError e s).status = { s.status with err := true, errCode := e.code } := rfl
@[simp] theorem acknowledge_status (w : Word) (s : State) :
    (acknowledge w s).status = statusAcknowledge w s.status := rfl
@[simp] theorem setBufByte_buf (i : Nat) (v : Byte) (s : State) : (setBufByte i v s).buf = s.buf.write i v := rfl
@[simp] theorem bumpPtr_ptr (s : State) : (bumpPtr s).ptr = s.ptr + 1 := rfl
@[simp] theorem latchWord_cur (w : Word) (s : State) : (latchWord w s).cur = latchedOf w := rfl
@[simp] theorem accepted_status (w : Word) (p : List SeqStep) (f : Finish) (n : BitVec 9) (s : State) :
    (accepted w p f n s).status = statusAccept s.status := rfl
@[simp] theorem accepted_cur (w : Word) (p : List SeqStep) (f : Finish) (n : BitVec 9) (s : State) :
    (accepted w p f n s).cur = latchedOf w := rfl
@[simp] theorem accepted_todo (w : Word) (p : List SeqStep) (f : Finish) (n : BitVec 9) (s : State) :
    (accepted w p f n s).seq.todo = p := rfl
@[simp] theorem accepted_event (w : Word) (p : List SeqStep) (f : Finish) (n : BitVec 9) (s : State) :
    (accepted w p f n s).seq.event = none := rfl
@[simp] theorem noteEvent_env (e : WireEvent) (s : State) :
    (noteEvent e s).env = { s.env with trace := s.env.trace ++ [e] } := rfl
@[simp] theorem finishOp_busy (s : State) : (finishOp s).status.busy = false := rfl
@[simp] theorem finishRejected_busy (s : State) : (finishRejected s).status.busy = false := rfl
@[simp] theorem dropInput_env (s : State) : (dropInput s).env = { s.env with inputs := s.env.inputs.tail } := rfl
@[simp] theorem syncEdge_sync (c : CycleInput) (l : Lines) (s : State) :
    (syncEdge c l s).sync = { first := pinLevel c l s, last := s.sync.first } := by
  unfold syncEdge
  rw [drawForPin_sync]
theorem c2dLevel_driven {l : Lines} (h : l.oe = true) (b : Bool) : c2dLevel l b = l.c2d := by simp [c2dLevel, h]
theorem c2dLevel_released {l : Lines} (h : l.oe = false) (b : Bool) : c2dLevel l b = b := by simp [c2dLevel, h]
theorem drawForPin_draws (c : CycleInput) (l : Lines) (s : State) :
    (drawForPin c l s).env.draws = s.env.draws + (if !l.oe && c.c2di.isNone then 1 else 0) := by
  unfold drawForPin
  split <;> rfl
theorem syncEdge_draws (c : CycleInput) (l : Lines) (s : State) :
    (syncEdge c l s).env.draws = s.env.draws + (if !l.oe && c.c2di.isNone then 1 else 0) := by
  unfold syncEdge
  exact drawForPin_draws c l _
theorem drawForPin_outside (c : CycleInput) (l : Lines) (s : State) :
    (drawForPin c l s).env = { s.env with draws := (drawForPin c l s).env.draws } := by
  unfold drawForPin
  split <;> rfl
@[simp] theorem drawForPin_inputs (c : CycleInput) (l : Lines) (s : State) :
    (drawForPin c l s).env.inputs = s.env.inputs := by rw [drawForPin_outside]
theorem syncEdge_outside (c : CycleInput) (l : Lines) (s : State) :
    (syncEdge c l s).env = { s.env with draws := (syncEdge c l s).env.draws } := by
  unfold syncEdge
  exact drawForPin_outside c l _
@[simp] theorem syncEdge_inputs (c : CycleInput) (l : Lines) (s : State) :
    (syncEdge c l s).env.inputs = s.env.inputs := by rw [syncEdge_outside]
@[simp] theorem syncEdge_ie (c : CycleInput) (l : Lines) (s : State) : (syncEdge c l s).ie = s.ie := by
  unfold syncEdge
  rw [drawForPin_ie]
@[simp] theorem syncEdge_status (c : CycleInput) (l : Lines) (s : State) : (syncEdge c l s).status = s.status := by
  unfold syncEdge
  rw [drawForPin_status]
@[simp] theorem syncEdge_result (c : CycleInput) (l : Lines) (s : State) : (syncEdge c l s).result = s.result := by
  unfold syncEdge
  rw [drawForPin_result]
@[simp] theorem syncEdge_timing (c : CycleInput) (l : Lines) (s : State) : (syncEdge c l s).timing = s.timing := by
  unfold syncEdge
  rw [drawForPin_timing]
@[simp] theorem syncEdge_fpdat (c : CycleInput) (l : Lines) (s : State) : (syncEdge c l s).fpdat = s.fpdat := by
  unfold syncEdge
  rw [drawForPin_fpdat]
@[simp] theorem syncEdge_ptr (c : CycleInput) (l : Lines) (s : State) : (syncEdge c l s).ptr = s.ptr := by
  unfold syncEdge
  rw [drawForPin_ptr]
@[simp] theorem syncEdge_buf (c : CycleInput) (l : Lines) (s : State) : (syncEdge c l s).buf = s.buf := by
  unfold syncEdge
  rw [drawForPin_buf]
@[simp] theorem syncEdge_cur (c : CycleInput) (l : Lines) (s : State) : (syncEdge c l s).cur = s.cur := by
  unfold syncEdge
  rw [drawForPin_cur]
@[simp] theorem syncEdge_seq (c : CycleInput) (l : Lines) (s : State) : (syncEdge c l s).seq = s.seq := by
  unfold syncEdge
  rw [drawForPin_seq]
@[simp] theorem syncEdge_lines (c : CycleInput) (l : Lines) (s : State) : (syncEdge c l s).lines = s.lines := by
  unfold syncEdge
  rw [drawForPin_lines]
@[simp] theorem resetEdge_ie (s : State) : (resetEdge s).ie = State.reset.ie := rfl
@[simp] theorem resetEdge_status (s : State) : (resetEdge s).status = State.reset.status := rfl
@[simp] theorem resetEdge_result (s : State) : (resetEdge s).result = State.reset.result := rfl
@[simp] theorem resetEdge_timing (s : State) : (resetEdge s).timing = State.reset.timing := rfl
@[simp] theorem resetEdge_fpdat (s : State) : (resetEdge s).fpdat = State.reset.fpdat := rfl
@[simp] theorem resetEdge_ptr (s : State) : (resetEdge s).ptr = State.reset.ptr := rfl
@[simp] theorem resetEdge_buf (s : State) : (resetEdge s).buf = s.buf := rfl
@[simp] theorem resetEdge_cur (s : State) : (resetEdge s).cur = State.reset.cur := rfl
@[simp] theorem resetEdge_seq (s : State) : (resetEdge s).seq = State.reset.seq := rfl
@[simp] theorem resetEdge_lines (s : State) : (resetEdge s).lines = State.reset.lines := rfl
@[simp] theorem resetEdge_sync (s : State) : (resetEdge s).sync = State.reset.sync := rfl
@[simp] theorem resetEdge_env (s : State) : (resetEdge s).env = s.env := rfl

end Sys2Proof.Machine
end

