-- ==== Sys2Proof/Laws/Frames.lean ====
section
/-! SUPPORT. What one strobe does at trace level, and from it what a whole frame does. -/

namespace Sys2Proof.Machine

/-! ## Outcomes -/

@[simp] theorem andThen_next (s : State) (f : State → Outcome State Fault Refusal) : andThen (.next s) f = f s := rfl

theorem andThen_assoc (x : Outcome State Fault Refusal) (f g : State → Outcome State Fault Refusal) :
    andThen (andThen x f) g = andThen x (fun s => andThen (f s) g) := by cases x <;> rfl

@[simp] theorem andThen_right (x : Outcome State Fault Refusal) : andThen x .next = x := by cases x <;> rfl

@[simp] theorem runEvents_nil (s : State) : runEvents [] s = .next s := rfl

theorem runEvents_cons (b : Bool) (bs : List Bool) (s : State) :
    runEvents (b :: bs) s = andThen (completeEvent b s) (runEvents bs) := rfl

theorem runEvents_append (as bs : List Bool) (s : State) :
    runEvents (as ++ bs) s = andThen (runEvents as s) (runEvents bs) := by
  induction as generalizing s with
  | nil => rfl
  | cons a as ih =>
    simp only [List.cons_append, runEvents_cons, andThen_assoc]
    congr 1
    funext t
    exact ih t

/-! ## Issuing a frame -/

@[simp] theorem issueFrame_dataRead (v : Byte) (s : State) :
    issueFrame Config.insDataRead v s = .next (beginDataRead s) := rfl
@[simp] theorem issueFrame_dataWrite (v : Byte) (s : State) :
    issueFrame Config.insDataWrite v s = .next (beginDataWrite v s) := rfl
@[simp] theorem issueFrame_addressRead (v : Byte) (s : State) :
    issueFrame Config.insAddressRead v s = .next (beginAddressRead s) := rfl
@[simp] theorem issueFrame_addressWrite (v : Byte) (s : State) :
    issueFrame Config.insAddressWrite v s = .next (beginAddressWrite v s) := rfl

/-! ## One strobe -/

/-- The state `s` in the SETUP cycle of a strobe of a running frame: byte and bit counter, the last driven value of C2D,
the last sample and the trace so far as given. -/
def inStrobe (k : FrameKind) (p : WirePos) (s : State) (shift : Byte) (bit : BitVec 3) (c2d last latch : Bool)
    (tr : List WireEvent) : State :=
  beginStrobe k p
    { s with
      seq := { s.seq with shift := shift, bitCount := bit, sampleLatch := latch }
      lines := { s.lines with c2d := c2d }
      sync := { s.sync with last := last }
      env := { s.env with trace := tr } }

/-- SHIFT after a strobe. -/
def shiftAfter (p : WirePos) (shift : Byte) (bit : BitVec 3) (b : Bool) : Byte :=
  if p = .dataIn then setBit shift bit b else shift

/-- The bit counter after a strobe. -/
def bitAfter (p : WirePos) (bit : BitVec 3) : BitVec 3 := if p = .dataIn ∨ p = .dataOut then bit + 1 else bit

theorem beginFrame_eq (k : FrameKind) (v : Byte) (s : State) :
    beginFrame k v s = inStrobe k .start s v 0 s.lines.c2d s.sync.last s.seq.sampleLatch s.env.trace := rfl

/-- What the strobe at `p` samples: the bit the block drives, else the given level (70_reset_and_hazards.md R230). -/
def heard (k : FrameKind) (shift : Byte) (bit : BitVec 3) (p : WirePos) (b : Bool) : Bool :=
  (driveBit k shift bit p).getD b

theorem c2dLevel_inStrobe (k : FrameKind) (p : WirePos) (s : State) (shift : Byte) (bit : BitVec 3)
    (c2d last latch : Bool) (tr : List WireEvent) (b : Bool) :
    c2dLevel (inStrobe k p s shift bit c2d last latch tr).lines b = heard k shift bit p b := by cases p <;> rfl

/-- A strobe before STOP completes: the next strobe of the frame begins. -/
theorem completeEvent_inStrobe {k : FrameKind} {p q : WirePos} {bit : BitVec 3} {b : Bool} {shift : Byte}
    (h : nextPos k bit (heard k shift bit p b) p = some q) (s : State) (c2d last latch : Bool)
    (tr : List WireEvent) :
    completeEvent b (inStrobe k p s shift bit c2d last latch tr) =
      .next (inStrobe k q s (shiftAfter p shift bit (heard k shift bit p b)) (bitAfter p bit)
        ((driveBit k shift bit p).getD c2d) (heard k shift bit p b) (heard k shift bit p b)
        (tr ++ [strobeEvent k shift bit (heard k shift bit p b) p])) := by
  have e : completeEvent b (inStrobe k p s shift bit c2d last latch tr) =
      eventDone (.strobe k p) { inStrobe k p s shift bit c2d last latch tr with
        sync := { s.sync with last := c2dLevel (inStrobe k p s shift bit c2d last latch tr).lines b } } := rfl
  rw [e, c2dLevel_inStrobe]
  have e2 : ∀ b', eventDone (.strobe k p) { inStrobe k p s shift bit c2d last latch tr with
        sync := { s.sync with last := b' } } =
      match nextPos k bit b' p with
      | some q => .next (beginStrobe k q (shiftData p b'
          (noteEvent (strobeEvent k shift bit b' p) (latchSample b'
            { inStrobe k p s shift bit c2d last latch tr with
              sync := { s.sync with last := b' } }))))
      | none => fetchNext (shiftData p b'
          (noteEvent (strobeEvent k shift bit b' p) (latchSample b'
            { inStrobe k p s shift bit c2d last latch tr with
              sync := { s.sync with last := b' } }))) := fun _ => rfl
  rw [e2, h]
  cases p <;> rfl

/-- The state in which the sequencer goes on after a frame: the byte in SHIFT, the lines idle, the frame in the trace. -/
def frameEnd (k : FrameKind) (s : State) (shift : Byte) (c2d b : Bool) (tr : List WireEvent) : State :=
  { s with
    seq :=
      { s.seq with
        event := some (.strobe k .stop), phase := .setup, count := 0, shift := shift, bitCount := 0, sampleLatch := b }
    lines := { c2ck := true, oe := false, c2d := c2d }
    sync := { s.sync with last := b }
    env := { s.env with trace := tr } }

/-- STOP completes: the sequencer goes on. -/
theorem completeEvent_stop (k : FrameKind) (s : State) (shift : Byte) (c2d last latch b : Bool)
    (tr : List WireEvent) :
    completeEvent b (inStrobe k .stop s shift 0 c2d last latch tr) =
      fetchNext (frameEnd k s shift c2d b (tr ++ [.z])) := rfl

/-! ## The parts of a frame -/

/-- The START strobe and the instruction code (40_signal_byte.md R117). -/
theorem runEvents_header (k : FrameKind) (v : Byte) (s : State) (b0 b1 b2 : Bool) (bs : List Bool) :
    runEvents (b0 :: b1 :: b2 :: bs) (beginFrame k v s) =
      runEvents bs (inStrobe k (afterHeader k) s v 0 ((frameCode k).getLsbD 1) ((frameCode k).getLsbD 1)
        ((frameCode k).getLsbD 1)
        (s.env.trace ++ [.z, .o ((frameCode k).getLsbD 0), .o ((frameCode k).getLsbD 1)])) := by
  rw [beginFrame_eq, runEvents_cons, completeEvent_inStrobe (q := .ins0) rfl, andThen_next, runEvents_cons,
    completeEvent_inStrobe (q := .ins1) rfl, andThen_next, runEvents_cons,
    completeEvent_inStrobe (q := afterHeader k) rfl, andThen_next]
  simp [heard, shiftAfter, bitAfter, driveBit, strobeEvent]

/-- The reserved field of a data frame (30_encoding.md R100). -/
theorem runEvents_reserved (k : FrameKind) (s : State) (v : Byte) (c2d last latch : Bool) (tr : List WireEvent)
    (b0 b1 : Bool) (bs : List Bool) :
    runEvents (b0 :: b1 :: bs) (inStrobe k .rsv0 s v 0 c2d last latch tr) =
      runEvents bs (inStrobe k (if k = .dataWrite then .dataOut else .wait) s v 0 false false false
        (tr ++ [.o false, .o false])) := by
  rw [runEvents_cons, completeEvent_inStrobe (q := .rsv1) rfl, andThen_next, runEvents_cons,
    completeEvent_inStrobe (q := if k = .dataWrite then .dataOut else .wait) rfl, andThen_next]
  simp [heard, shiftAfter, bitAfter, driveBit, strobeEvent, Config.reservedField]

/-- The eight strobes of `write_byte` (40_signal_byte.md R115). -/
theorem runEvents_writeByte (k : FrameKind) (s : State) (v : Byte) (c2d last latch : Bool) (tr : List WireEvent)
    (b0 b1 b2 b3 b4 b5 b6 b7 : Bool) (bs : List Bool) :
    runEvents (b0 :: b1 :: b2 :: b3 :: b4 :: b5 :: b6 :: b7 :: bs) (inStrobe k .dataOut s v 0 c2d last latch tr) =
      runEvents bs (inStrobe k (if k = .dataWrite then .wait else .stop) s v 0 (v.getLsbD 7) (v.getLsbD 7)
        (v.getLsbD 7)
        (tr ++ (byteBits v).map .o)) := by
  rw [runEvents_cons, completeEvent_inStrobe (q := .dataOut) rfl, andThen_next,
    runEvents_cons, completeEvent_inStrobe (q := .dataOut) rfl, andThen_next,
    runEvents_cons, completeEvent_inStrobe (q := .dataOut) rfl, andThen_next,
    runEvents_cons, completeEvent_inStrobe (q := .dataOut) rfl, andThen_next,
    runEvents_cons, completeEvent_inStrobe (q := .dataOut) rfl, andThen_next,
    runEvents_cons, completeEvent_inStrobe (q := .dataOut) rfl, andThen_next,
    runEvents_cons, completeEvent_inStrobe (q := .dataOut) rfl, andThen_next,
    runEvents_cons, completeEvent_inStrobe (q := if k = .dataWrite then .wait else .stop) rfl, andThen_next]
  simp [heard, shiftAfter, bitAfter, driveBit, strobeEvent, byteBits, List.range_succ]

/-- Gathering a byte bit by bit. -/
def gather (v : Byte) (b0 b1 b2 b3 b4 b5 b6 b7 : Bool) : Byte :=
  setBit (setBit (setBit (setBit (setBit (setBit (setBit (setBit v 0 b0) 1 b1) 2 b2) 3 b3) 4 b4) 5 b5) 6 b6) 7 b7

/-- The eight strobes of `read_byte` (40_signal_byte.md R116). -/
theorem runEvents_readByte (k : FrameKind) (s : State) (v : Byte) (c2d last latch : Bool) (tr : List WireEvent)
    (b0 b1 b2 b3 b4 b5 b6 b7 : Bool) (bs : List Bool) :
    runEvents (b0 :: b1 :: b2 :: b3 :: b4 :: b5 :: b6 :: b7 :: bs) (inStrobe k .dataIn s v 0 c2d last latch tr) =
      runEvents bs (inStrobe k .stop s (gather v b0 b1 b2 b3 b4 b5 b6 b7) 0 c2d b7 b7
        (tr ++ [.i b0, .i b1, .i b2, .i b3, .i b4, .i b5, .i b6, .i b7])) := by
  rw [runEvents_cons, completeEvent_inStrobe (q := .dataIn) rfl, andThen_next,
    runEvents_cons, completeEvent_inStrobe (q := .dataIn) rfl, andThen_next,
    runEvents_cons, completeEvent_inStrobe (q := .dataIn) rfl, andThen_next,
    runEvents_cons, completeEvent_inStrobe (q := .dataIn) rfl, andThen_next,
    runEvents_cons, completeEvent_inStrobe (q := .dataIn) rfl, andThen_next,
    runEvents_cons, completeEvent_inStrobe (q := .dataIn) rfl, andThen_next,
    runEvents_cons, completeEvent_inStrobe (q := .dataIn) rfl, andThen_next,
    runEvents_cons, completeEvent_inStrobe (q := .stop) rfl, andThen_next]
  simp [heard, shiftAfter, bitAfter, driveBit, strobeEvent, gather]

/-- The WAIT (40_signal_byte.md R120). -/
theorem runEvents_wait (k : FrameKind) (s : State) (v : Byte) (c2d last latch : Bool) (tr : List WireEvent)
    (zeros : Nat) (bs : List Bool) :
    runEvents (List.replicate zeros false ++ true :: bs) (inStrobe k .wait s v 0 c2d last latch tr) =
      runEvents bs (inStrobe k (if k = .dataWrite then .stop else .dataIn) s v 0 c2d true true
        (tr ++ waitTrace zeros)) := by
  induction zeros generalizing last latch tr with
  | zero =>
    rw [List.replicate_zero, List.nil_append, runEvents_cons,
      completeEvent_inStrobe (q := if k = .dataWrite then .stop else .dataIn) rfl, andThen_next]
    simp [heard, shiftAfter, bitAfter, driveBit, strobeEvent, waitTrace]
  | succ n ih =>
    rw [List.replicate_succ, List.cons_append, runEvents_cons, completeEvent_inStrobe (q := .wait) rfl, andThen_next]
    simp only [heard, shiftAfter, bitAfter, driveBit, strobeEvent, reduceCtorEq, or_self, if_false, Option.getD_none]
    rw [ih]
    simp [waitTrace, List.replicate_succ]

end Sys2Proof.Machine
end

