-- ==== Sys2Proof/Laws/FrameRun.lean ====
section
/-! SUPPORT. Sampled levels that fit a trace, and the run of a whole frame. -/

namespace Sys2Proof.Machine

/-! ## Bits and bytes -/

theorem getLsbD_setBit (v : Byte) (j : BitVec 3) (b : Bool) (i : Nat) (hi : i < 8) :
    (setBit v j b).getLsbD i = if i = j.toNat then b else v.getLsbD i := by
  have hj : j.toNat < 8 := j.isLt
  unfold setBit
  by_cases h : i = j.toNat
  · subst h
    cases b <;> simp [hj]
  · by_cases hl : i < j.toNat
    · cases b <;> simp [hi, h, hl]
    · have h1 : i - j.toNat ≠ 0 := by omega
      cases b <;> simp [hi, h, hl, h1]

/-- Gathering the bits of a byte gives the byte, whatever SHIFT held (40_signal_byte.md R116, R123). -/
theorem gather_bits (v x : Byte) :
    gather v (x.getLsbD 0) (x.getLsbD 1) (x.getLsbD 2) (x.getLsbD 3) (x.getLsbD 4) (x.getLsbD 5) (x.getLsbD 6)
      (x.getLsbD 7) = x := by
  apply BitVec.eq_of_getLsbD_eq
  intro i hi
  unfold gather
  rw [getLsbD_setBit _ _ _ _ hi, getLsbD_setBit _ _ _ _ hi, getLsbD_setBit _ _ _ _ hi, getLsbD_setBit _ _ _ _ hi,
    getLsbD_setBit _ _ _ _ hi, getLsbD_setBit _ _ _ _ hi, getLsbD_setBit _ _ _ _ hi, getLsbD_setBit _ _ _ _ hi]
  interval_cases i <;> rfl

theorem byteBits_eq (v : Byte) :
    byteBits v = [v.getLsbD 0, v.getLsbD 1, v.getLsbD 2, v.getLsbD 3, v.getLsbD 4, v.getLsbD 5, v.getLsbD 6,
      v.getLsbD 7] := rfl

/-! ## Samples that fit -/

theorem samplesFit_cons {e : WireEvent} {tr : List WireEvent} {bs : List Bool} :
    samplesFit (e :: tr) bs = true ↔ ∃ b cs, bs = b :: cs ∧ e.fits b = true ∧ samplesFit tr cs = true := by
  cases bs with
  | nil => simp [samplesFit]
  | cons b cs => simp [samplesFit]

theorem samplesFit_nil {bs : List Bool} : samplesFit [] bs = true ↔ bs = [] := by
  cases bs <;> simp [samplesFit]

theorem samplesFit_append {t1 t2 : List WireEvent} {bs : List Bool} :
    samplesFit (t1 ++ t2) bs = true ↔
      ∃ b1 b2, bs = b1 ++ b2 ∧ samplesFit t1 b1 = true ∧ samplesFit t2 b2 = true := by
  induction t1 generalizing bs with
  | nil => simp [samplesFit_nil]
  | cons e t1 ih =>
    simp only [List.cons_append, samplesFit_cons, ih]
    constructor
    · rintro ⟨b, cs, rfl, he, b1, b2, rfl, h1, h2⟩
      exact ⟨b :: b1, b2, rfl, ⟨b, b1, rfl, he, h1⟩, h2⟩
    · rintro ⟨b1, b2, rfl, ⟨b, cs, rfl, he, h1⟩, h2⟩
      exact ⟨b, cs ++ b2, rfl, he, cs, b2, rfl, h1, h2⟩

/-- Samples that fit used samples are those samples. -/
theorem samplesFit_inputs {xs bs : List Bool} : samplesFit (xs.map .i) bs = true ↔ bs = xs := by
  induction xs generalizing bs with
  | nil => simp [samplesFit_nil]
  | cons x xs ih =>
    simp only [List.map_cons, samplesFit_cons, ih, WireEvent.fits, beq_iff_eq]
    constructor
    · rintro ⟨b, cs, rfl, rfl, rfl⟩; rfl
    · rintro rfl; exact ⟨x, xs, rfl, rfl, rfl⟩

theorem samplesFit_waitTrace {n : Nat} {bs : List Bool} :
    samplesFit (waitTrace n) bs = true ↔ bs = List.replicate n false ++ [true] := by
  have h : waitTrace n = (List.replicate n false ++ [true]).map .i := by simp [waitTrace]
  rw [h, samplesFit_inputs]

/-- Samples that fit driven strobes are any, one for each. -/
theorem samplesFit_driven {xs bs : List Bool} : samplesFit (xs.map .o) bs = true ↔ bs.length = xs.length := by
  induction xs generalizing bs with
  | nil => simp [samplesFit_nil]
  | cons x xs ih =>
    simp only [List.map_cons, samplesFit_cons, ih, WireEvent.fits]
    constructor
    · rintro ⟨b, cs, rfl, -, h⟩; simp [h]
    · intro h
      cases bs with
      | nil => simp at h
      | cons b cs => exact ⟨b, cs, rfl, trivial, by simpa using h⟩

theorem eight_of_length {bs : List Bool} (h : bs.length = 8) :
    ∃ b0 b1 b2 b3 b4 b5 b6 b7, bs = [b0, b1, b2, b3, b4, b5, b6, b7] := by
  match bs, h with
  | [b0, b1, b2, b3, b4, b5, b6, b7], _ => exact ⟨b0, b1, b2, b3, b4, b5, b6, b7, rfl⟩

/-! ## Frames -/

def Frame.kind : Frame → FrameKind
  | .addressWrite _ => .addressWrite
  | .addressRead _ => .addressRead
  | .dataWrite _ _ => .dataWrite
  | .dataRead _ _ => .dataRead

/-- The byte a frame sends (0 for a read, which sends none). -/
def Frame.sent : Frame → Byte
  | .addressWrite a => a
  | .addressRead _ => 0
  | .dataWrite v _ => v
  | .dataRead _ _ => 0

/-- SHIFT at the end of a frame. -/
def Frame.byte : Frame → Byte
  | .addressWrite a => a
  | .addressRead s => s
  | .dataWrite v _ => v
  | .dataRead _ d => d

/-- What C2D was last driven to in a frame. -/
def Frame.lastBit : Frame → Bool
  | .addressWrite a => a.getLsbD 7
  | .addressRead _ => true
  | .dataWrite v _ => v.getLsbD 7
  | .dataRead _ _ => false

/-- A frame begins. -/
def Frame.begin (f : Frame) (s : State) : State := beginFrame f.kind f.sent s

/-- A frame whose strobes sample fitting levels runs to its end: the sequencer goes on with the byte in SHIFT, the lines
idle and the frame in the trace; nothing else of the state has changed. -/
theorem runEvents_frame (f : Frame) (bs : List Bool) (h : samplesFit f.trace bs = true) :
    ∃ b, ∀ (s : State) more, runEvents (bs ++ more) (f.begin s) =
      andThen (fetchNext (frameEnd f.kind s f.byte f.lastBit b (s.env.trace ++ f.trace))) (runEvents more) := by
  cases f with
  | addressWrite a =>
    simp only [Frame.trace, List.cons_append, List.nil_append, samplesFit_cons, samplesFit_append, samplesFit_nil,
      samplesFit_driven] at h
    obtain ⟨b0, -, rfl, -, b1, -, rfl, -, b2, -, rfl, -, d, -, rfl, hd, e, -, rfl, -, rfl⟩ := h
    obtain ⟨d0, d1, d2, d3, d4, d5, d6, d7, rfl⟩ := eight_of_length (by simpa [byteBits] using hd)
    refine ⟨e, fun s more => ?_⟩
    simp only [Frame.begin, Frame.kind, Frame.sent, List.cons_append, List.nil_append, runEvents_header, afterHeader,
      runEvents_writeByte, reduceCtorEq, if_false]
    rw [runEvents_cons, completeEvent_stop]
    simp [Frame.byte, Frame.lastBit, Frame.trace, frameCode, Config.insAddressWrite]
  | addressRead x =>
    simp only [Frame.trace, List.cons_append, List.nil_append, samplesFit_cons, samplesFit_append, samplesFit_nil,
      samplesFit_inputs] at h
    obtain ⟨b0, -, rfl, -, b1, -, rfl, -, b2, -, rfl, -, d, -, rfl, rfl, e, -, rfl, -, rfl⟩ := h
    refine ⟨e, fun s more => ?_⟩
    simp only [Frame.begin, Frame.kind, Frame.sent, List.cons_append, List.nil_append, runEvents_header, afterHeader,
      byteBits_eq, runEvents_readByte, gather_bits]
    rw [runEvents_cons, completeEvent_stop]
    simp [Frame.byte, Frame.lastBit, Frame.trace, frameCode, Config.insAddressRead, byteBits_eq]
  | dataWrite v w =>
    simp only [Frame.trace, List.cons_append, List.nil_append, samplesFit_cons, samplesFit_append, samplesFit_nil,
      samplesFit_driven, samplesFit_waitTrace] at h
    obtain ⟨b0, -, rfl, -, b1, -, rfl, -, b2, -, rfl, -, b3, -, rfl, -, b4, -, rfl, -, r, -, rfl,
      ⟨d, -, rfl, hd, rfl⟩, e, -, rfl, -, rfl⟩ := h
    obtain ⟨d0, d1, d2, d3, d4, d5, d6, d7, rfl⟩ := eight_of_length (by simpa [byteBits] using hd)
    refine ⟨e, fun s more => ?_⟩
    simp only [Frame.begin, Frame.kind, Frame.sent, List.cons_append, List.nil_append, List.append_assoc,
      runEvents_header, afterHeader, runEvents_reserved, runEvents_writeByte, runEvents_wait, if_true]
    rw [runEvents_cons, completeEvent_stop]
    simp [Frame.byte, Frame.lastBit, Frame.trace, frameCode, Config.insDataWrite]
  | dataRead w d =>
    simp only [Frame.trace, List.cons_append, List.nil_append, samplesFit_cons, samplesFit_append, samplesFit_nil,
      samplesFit_inputs, samplesFit_waitTrace] at h
    obtain ⟨b0, -, rfl, -, b1, -, rfl, -, b2, -, rfl, -, b3, -, rfl, -, b4, -, rfl, -, r, -, rfl,
      ⟨x, -, rfl, rfl, rfl⟩, e, -, rfl, -, rfl⟩ := h
    refine ⟨e, fun s more => ?_⟩
    simp only [Frame.begin, Frame.kind, Frame.sent, List.cons_append, List.nil_append, List.append_assoc,
      runEvents_header, afterHeader, runEvents_reserved, runEvents_wait, byteBits_eq, runEvents_readByte, gather_bits,
      reduceCtorEq, if_false]
    rw [runEvents_cons, completeEvent_stop]
    simp [Frame.byte, Frame.lastBit, Frame.trace, frameCode, Config.insDataRead, byteBits_eq]

end Sys2Proof.Machine
end

