-- ==== Sys2Proof/Laws/Memory.lean ====
section
/-! SUPPORT. The laws of BUF: a read after a write, and the canonical form, which every memory operation keeps. -/

namespace Sys2Proof.Machine

/-- A read after a write gives the byte written at its index and the old byte elsewhere. -/
theorem Memory.read_write (m : Memory) (i k : Nat) (v : Byte) :
    (m.write i v).read k = if k = i then some v else m.read k := by
  induction m with
  | nil => simp [Memory.write, Memory.read, eq_comm (a := k) (b := i)]
  | cons c m ih =>
    obtain ⟨j, u⟩ := c
    simp only [Memory.write]
    split
    · simp [Memory.read, eq_comm (a := k) (b := i)]
    · split
      · next hj =>
        subst hj
        by_cases h : j = k
        · simp [Memory.read, h]
        · simp [Memory.read, h, eq_comm (a := k) (b := j)]
      · next hj =>
        simp only [Memory.read, ih]
        by_cases h : j = k
        · subst h; simp [hj]
        · simp [h]

/-- Rising from a higher bound is rising from a lower one. -/
theorem Memory.risingFrom_mono {lo hi : Nat} (h : lo ≤ hi) (m : Memory) (hm : Memory.risingFrom hi m = true) :
    Memory.risingFrom lo m = true := by
  cases m with
  | nil => rfl
  | cons c m =>
    obtain ⟨k, v⟩ := c
    simp only [Memory.risingFrom, Bool.and_eq_true, decide_eq_true_eq] at hm ⊢
    exact ⟨h.trans hm.1, hm.2⟩

/-- A write at an index not below the bound keeps the indices rising from it. -/
theorem Memory.risingFrom_write (m : Memory) (lo i : Nat) (v : Byte) (hi : lo ≤ i)
    (hm : Memory.risingFrom lo m = true) : Memory.risingFrom lo (m.write i v) = true := by
  induction m generalizing lo with
  | nil => simp [Memory.write, Memory.risingFrom, hi]
  | cons c m ih =>
    obtain ⟨k, u⟩ := c
    simp only [Memory.risingFrom, Bool.and_eq_true, decide_eq_true_eq] at hm
    simp only [Memory.write]
    split
    · next h => simp only [Memory.risingFrom, Bool.and_eq_true, decide_eq_true_eq]; exact ⟨hi, h, hm.2⟩
    · split
      · next h => subst h; simpa [Memory.risingFrom, hi] using hm.2
      · next h1 h2 =>
        simp only [Memory.risingFrom, Bool.and_eq_true, decide_eq_true_eq]
        exact ⟨hm.1, ih (k + 1) (by omega) hm.2⟩

/-- A write below 256 keeps every index below 256. -/
theorem Memory.all_write (m : Memory) (i : Nat) (v : Byte) (hi : i < Config.bufSize)
    (hm : m.all (fun c => decide (c.1 < Config.bufSize)) = true) :
    (m.write i v).all (fun c => decide (c.1 < Config.bufSize)) = true := by
  induction m with
  | nil => simpa [Memory.write] using hi
  | cons c m ih =>
    obtain ⟨k, u⟩ := c
    simp only [List.all_cons, Bool.and_eq_true, decide_eq_true_eq] at hm
    simp only [Memory.write]
    split
    · simp only [List.all_cons, Bool.and_eq_true, decide_eq_true_eq]; exact ⟨hi, hm⟩
    · split
      · simp only [List.all_cons, Bool.and_eq_true, decide_eq_true_eq]; exact ⟨hi, hm.2⟩
      · simp only [List.all_cons, Bool.and_eq_true, decide_eq_true_eq]; exact ⟨hm.1, ih hm.2⟩

/-- Every write of a byte keeps the canonical form. -/
theorem Memory.wf_write (m : Memory) (i : Nat) (v : Byte) (hi : i < Config.bufSize) (hm : m.wf = true) :
    (m.write i v).wf = true := by
  simp only [Memory.wf, Bool.and_eq_true] at hm ⊢
  exact ⟨Memory.risingFrom_write m 0 i v (Nat.zero_le i) hm.1, Memory.all_write m i v hi hm.2⟩

/-- After reset nothing is listed, which is canonical. -/
theorem reset_buf_wf : State.reset.buf.wf = true := rfl

/-- A buffer index is below 256: the loop index as 8 bits, PTR. -/
theorem bufIndex_lt (q : Sequencer) : bufIndex q < Config.bufSize := (q.loopI.setWidth 8).isLt

theorem ptr_lt (s : State) : s.ptr.toNat < Config.bufSize := s.ptr.isLt

/-- `MemWrite` of the byte loop and of BUFDATA keeps the canonical form. -/
theorem setBufByte_wf (i : Nat) (v : Byte) (s : State) (hi : i < Config.bufSize) (hm : s.buf.wf = true) :
    (setBufByte i v s).buf.wf = true := Memory.wf_write s.buf i v hi hm

end Sys2Proof.Machine
end

