-- ==== Sys2Proof/Laws/Helpers.lean ====
section
/-! SUPPORT. One lemma for each helper of the pseudocode at trace level: which frames it sends and what it leaves. -/

namespace Sys2Proof.Machine

/-! ## What wire activity leaves -/

/-- State `t` is state `s` after wire activity with trace `tr` that ended a frame with the byte `x` in SHIFT: no
register, flag, buffer byte or response record has changed. -/
structure Ran (s t : State) (tr : List WireEvent) (x : Byte) : Prop where
  ie : t.ie = s.ie
  status : t.status = s.status
  result : t.result = s.result
  timing : t.timing = s.timing
  fpdat : t.fpdat = s.fpdat
  ptr : t.ptr = s.ptr
  buf : t.buf = s.buf
  cur : t.cur = s.cur
  fin : t.seq.fin = s.seq.fin
  loopI : t.seq.loopI = s.seq.loopI
  loopN : t.seq.loopN = s.seq.loopN
  lastResp : t.seq.lastResp = s.seq.lastResp
  respValid : t.seq.respValid = s.seq.respValid
  fst : t.seq.fst = s.seq.fst
  shift : t.seq.shift = x
  lines : t.lines.c2ck = true ∧ t.lines.oe = false ∧ t.lines.c2d = lastDriven s.lines.c2d tr
  trace : t.env.trace = s.env.trace ++ tr
  outside : t.env.inputs = s.env.inputs ∧ t.env.draws = s.env.draws ∧ t.env.prdata = s.env.prdata

theorem lastDriven_append (d : Bool) (t1 t2 : List WireEvent) :
    lastDriven d (t1 ++ t2) = lastDriven (lastDriven d t1) t2 := by
  induction t1 generalizing d with
  | nil => rfl
  | cons e t1 ih => cases e <;> simp [lastDriven, ih]

theorem Ran.trans {s t u : State} {t1 t2 : List WireEvent} {x y : Byte} (h1 : Ran s t t1 x) (h2 : Ran t u t2 y) :
    Ran s u (t1 ++ t2) y where
  ie := h2.ie.trans h1.ie
  status := h2.status.trans h1.status
  result := h2.result.trans h1.result
  timing := h2.timing.trans h1.timing
  fpdat := h2.fpdat.trans h1.fpdat
  ptr := h2.ptr.trans h1.ptr
  buf := h2.buf.trans h1.buf
  cur := h2.cur.trans h1.cur
  fin := h2.fin.trans h1.fin
  loopI := h2.loopI.trans h1.loopI
  loopN := h2.loopN.trans h1.loopN
  lastResp := h2.lastResp.trans h1.lastResp
  respValid := h2.respValid.trans h1.respValid
  fst := h2.fst.trans h1.fst
  shift := h2.shift
  lines := ⟨h2.lines.1, h2.lines.2.1, by rw [h2.lines.2.2, h1.lines.2.2, lastDriven_append]⟩
  trace := by rw [h2.trace, h1.trace, List.append_assoc]
  outside := ⟨h2.outside.1.trans h1.outside.1, h2.outside.2.1.trans h1.outside.2.1,
    h2.outside.2.2.trans h1.outside.2.2⟩

/-- From state `s` the steps `steps` use up the samples `bs` and leave the sequencer to go on with what follows them, in
state `t`. -/
def Goes (s : State) (steps : List SeqStep) (bs : List Bool) (t : State) : Prop :=
  ∀ rest more, andThen (fetch (steps ++ rest) s) (runEvents (bs ++ more)) = andThen (fetch rest t) (runEvents more)

theorem Goes.trans {s t u : State} {p1 p2 : List SeqStep} {b1 b2 : List Bool} (h1 : Goes s p1 b1 t)
    (h2 : Goes t p2 b2 u) : Goes s (p1 ++ p2) (b1 ++ b2) u := by
  intro rest more
  rw [List.append_assoc, List.append_assoc, h1 (p2 ++ rest) (b2 ++ more), h2 rest more]

/-- When the steps are all that is left, the operation finishes. -/
theorem Goes.finish {s t : State} {steps : List SeqStep} {bs : List Bool} (h : Goes s steps bs t) :
    andThen (fetch steps s) (runEvents bs) = .next (finishOp t) := by
  have := h [] []
  simpa [fetch] using this

/-! ## One frame -/

theorem lastDriven_frame (f : Frame) (d : Bool) : lastDriven d f.trace = f.lastBit := by
  have wait : ∀ (n : Nat) (d : Bool) (r : List WireEvent), lastDriven d (waitTrace n ++ r) = lastDriven d r := by
    intro n d r
    induction n with
    | zero => rfl
    | succ n ih => simpa [waitTrace, List.replicate_succ, lastDriven] using ih
  cases f with
  | addressWrite a => rfl
  | addressRead s => rfl
  | dataWrite v w =>
    simp only [Frame.trace, List.cons_append, List.nil_append, byteBits_eq, List.map_cons,
      List.map_nil, lastDriven, wait]
    rfl
  | dataRead w v =>
    simp only [Frame.trace, List.append_assoc, List.cons_append, List.nil_append, byteBits_eq, List.map_cons,
      List.map_nil, lastDriven, wait]
    rfl

/-- A frame from its begin, in a state whose steps left are `rest`. -/
theorem frame_runs (f : Frame) (s : State) (bs : List Bool) (h : samplesFit f.trace bs = true) :
    ∃ t, Ran s t f.trace f.byte ∧ t.seq.lastStatus = s.seq.lastStatus ∧
      ∀ rest more, runEvents (bs ++ more) (f.begin (withTodo rest s)) =
        andThen (fetch rest (withTodo rest t)) (runEvents more) := by
  obtain ⟨b, hb⟩ := runEvents_frame f bs h
  refine ⟨frameEnd f.kind s f.byte f.lastBit b (s.env.trace ++ f.trace),
    ⟨rfl, rfl, rfl, rfl, rfl, rfl, rfl, rfl, rfl, rfl, rfl, rfl, rfl, rfl, rfl,
      ⟨rfl, rfl, (lastDriven_frame f _).symm⟩, rfl, ⟨rfl, rfl, rfl⟩⟩, rfl, fun rest more => ?_⟩
  exact hb (withTodo rest s) more

/-! ## Fetching looks at its list, not at what the sequencer holds -/

@[simp] theorem withTodo_withTodo (p q : List SeqStep) (s : State) : withTodo p (withTodo q s) = withTodo p s := rfl

theorem fetch_withTodo (p q : List SeqStep) (s : State) : fetch p (withTodo q s) = fetch p s := by
  have respond : ∀ u : State, recordResponse (withTodo q u) = withTodo q (recordResponse u) := fun _ => rfl
  have store : ∀ u : State, setBufByte (bufIndex u.seq) u.seq.shift (withTodo q u) =
      withTodo q (setBufByte (bufIndex u.seq) u.seq.shift u) := fun _ => rfl
  have bump : ∀ u : State, bumpIndex (withTodo q u) = withTodo q (bumpIndex u) := fun _ => rfl
  have status : ∀ u : State, recordStatus (withTodo q u) = withTodo q (recordStatus u) := fun _ => rfl
  have seq : ∀ u : State, (withTodo q u).seq = { u.seq with todo := q } := fun _ => rfl
  have draw : ∀ (i : Nat) (u : State), drawForByte i (withTodo q u) = withTodo q (drawForByte i u) := by
    intro i u
    simp only [drawForByte, withTodo_buf]
    split <;> rfl
  have byte : ∀ (i : Nat) (u : State), bufByte (withTodo q u) i = bufByte u i := fun _ _ => rfl
  have index : ∀ u : Sequencer, bufIndex { u with todo := q } = bufIndex u := fun _ => rfl
  induction p generalizing s with
  | nil => rfl
  | cons st p ih =>
    cases st with
    | frame ins b => rfl
    | command c => rfl
    | poll m e => rfl
    | pollTest m e => simp only [fetch, seq, status, withTodo_withTodo, ih]
    | check => rfl
    | checkRecord => simp only [fetch, respond, ih]
    | stopIfRejected =>
      simp only [fetch, seq, ih]
      rfl
    | sendBlock => simp only [fetch, seq, index, draw, byte, withTodo_withTodo, ih]
    | receiveBlock => simp only [fetch, seq, withTodo_withTodo, ih]
    | storeByte =>
      simp only [fetch, seq, index]
      rw [store, ih]
    | nextIndex => simp only [fetch, bump, ih]
    | pulse => rfl
    | settle => rfl

/-! ## A frame as a step -/

theorem issueFrame_frame (f : Frame) (s : State) :
    issueFrame (frameCode f.kind) f.sent s = .next (f.begin s) := by cases f <;> rfl

/-- A frame that a step issues, whatever stands behind the frame. -/
theorem frame_goes (f : Frame) (s : State) (bs : List Bool) (h : samplesFit f.trace bs = true) :
    ∃ t, Ran s t f.trace f.byte ∧ t.seq.lastStatus = s.seq.lastStatus ∧
      ∀ rest more, andThen (issueFrame (frameCode f.kind) f.sent (withTodo rest s)) (runEvents (bs ++ more)) =
        andThen (fetch rest t) (runEvents more) := by
  obtain ⟨t, hr, hl, ht⟩ := frame_runs f s bs h
  refine ⟨t, hr, hl, fun rest more => ?_⟩
  rw [issueFrame_frame, andThen_next, ht, fetch_withTodo]

theorem goes_frame (f : Frame) (s : State) (bs : List Bool) (h : samplesFit f.trace bs = true) :
    ∃ t, Ran s t f.trace f.byte ∧ t.seq.lastStatus = s.seq.lastStatus ∧
      Goes s [.frame (frameCode f.kind) f.sent] bs t := by
  obtain ⟨t, hr, hl, ht⟩ := frame_goes f s bs h
  exact ⟨t, hr, hl, fun rest more => ht rest more⟩

/-! ## The polling engine -/

@[simp] theorem framesTrace_nil : framesTrace [] = [] := rfl
@[simp] theorem framesTrace_cons (f : Frame) (fs : List Frame) : framesTrace (f :: fs) = f.trace ++ framesTrace fs := rfl
@[simp] theorem framesTrace_append (fs gs : List Frame) :
    framesTrace (fs ++ gs) = framesTrace fs ++ framesTrace gs := List.flatMap_append

/-- A record of the status byte is no change that `Ran` speaks of. -/
theorem Ran.record {s t : State} {tr : List WireEvent} {x : Byte} (h : Ran s t tr x) : Ran s (recordStatus t) tr x :=
  ⟨h.ie, h.status, h.result, h.timing, h.fpdat, h.ptr, h.buf, h.cur, h.fin, h.loopI, h.loopN, h.lastResp, h.respValid,
    h.fst, h.shift, h.lines, h.trace, h.outside⟩

/-- The test of a status byte that does not meet the condition issues the next address read. -/
theorem fetch_pollTest_unmet {m : Byte} {e : Bool} {t : State} (h : pollMet m e t.seq.shift = false)
    (rest : List SeqStep) : fetch (.pollTest m e :: rest) t = fetch (.poll m e :: rest) (recordStatus t) := by
  simp [fetch, h]

theorem fetch_pollTest_met {m : Byte} {e : Bool} {t : State} (h : pollMet m e t.seq.shift = true)
    (rest : List SeqStep) : fetch (.pollTest m e :: rest) t = fetch rest (recordStatus t) := by
  simp [fetch, h]

/-- Address reads that do not meet the condition: the poll goes on (42_status_polling.md R140). -/
theorem poll_unmet (m : Byte) (e : Bool) (xs : List Byte) (s : State) (bs : List Bool)
    (hx : xs.all (fun x => !pollMet m e x) = true) (h : samplesFit (framesTrace (xs.map .addressRead)) bs = true) :
    ∃ t, t.status = s.status ∧ ∀ rest more,
      andThen (fetch (.poll m e :: rest) s) (runEvents (bs ++ more)) =
        andThen (fetch (.poll m e :: rest) t) (runEvents more) := by
  induction xs generalizing s bs with
  | nil =>
    obtain rfl := samplesFit_nil.mp h
    exact ⟨s, rfl, fun _ _ => rfl⟩
  | cons x xs ih =>
    simp only [List.map_cons, framesTrace_cons, samplesFit_append] at h
    obtain ⟨b1, b2, rfl, h1, h2⟩ := h
    simp only [List.all_cons, Bool.and_eq_true, Bool.not_eq_true'] at hx
    obtain ⟨t, hr, -, ht⟩ := frame_goes (.addressRead x) s b1 h1
    obtain ⟨u, hu, hgo⟩ := ih (recordStatus t) b2 hx.2 h2
    refine ⟨u, hu.trans hr.status, fun rest more => ?_⟩
    rw [← hgo, ← fetch_pollTest_unmet (by rw [hr.shift]; exact hx.1), ← ht, List.append_assoc]
    rfl

/-- `wait_for_bit` with a script that ends it (42_status_polling.md R140). -/
theorem goes_poll (m : Byte) (e : Bool) (p : PollScript) (s : State) (bs : List Bool) (hp : p.fits m e = true)
    (h : samplesFit (framesTrace p.frames) bs = true) :
    ∃ t, Ran s t (framesTrace p.frames) p.last ∧ t.seq.lastStatus = p.last ∧ Goes s [.poll m e] bs t := by
  obtain ⟨before, last⟩ := p
  simp only [PollScript.fits, Bool.and_eq_true] at hp
  simp only [PollScript.frames] at h ⊢
  induction before generalizing s bs with
  | nil =>
    simp only [List.map_nil, List.nil_append, framesTrace_cons, framesTrace_nil, List.append_nil] at h ⊢
    obtain ⟨t, hr, -, ht⟩ := frame_goes (.addressRead last) s bs h
    refine ⟨recordStatus t, hr.record, hr.shift, fun rest more => ?_⟩
    rw [← fetch_pollTest_met (by rw [hr.shift]; exact hp.2), ← ht]
    rfl
  | cons x xs ih =>
    simp only [List.map_cons, List.cons_append, framesTrace_cons, samplesFit_append] at h ⊢
    obtain ⟨b1, b2, rfl, h1, h2⟩ := h
    simp only [List.all_cons, Bool.and_eq_true, Bool.not_eq_true'] at hp
    obtain ⟨t, hr, -, ht⟩ := frame_goes (.addressRead x) s b1 h1
    obtain ⟨u, hu, hl, hgo⟩ := ih (recordStatus t) b2 h2 ⟨hp.1.2, hp.2⟩
    refine ⟨u, by simpa using hr.record.trans hu, hl, fun rest more => ?_⟩
    rw [← hgo]
    simp only [List.singleton_append]
    rw [← fetch_pollTest_unmet (by rw [hr.shift]; exact hp.1.1), ← ht, List.append_assoc]
    rfl

/-- `write_with_busy(v)` (R144). -/
theorem goes_writeWithBusy (v : Byte) (x : WriteScript) (s : State) (bs : List Bool) (hx : x.fits = true)
    (h : samplesFit (framesTrace (x.frames v)) bs = true) :
    ∃ t, Ran s t (framesTrace (x.frames v)) x.poll.last ∧ Goes s (writeWithBusy v) bs t := by
  simp only [WriteScript.frames, framesTrace_cons, samplesFit_append] at h ⊢
  obtain ⟨b1, b2, rfl, h1, h2⟩ := h
  obtain ⟨t, hr, -, ht⟩ := goes_frame (.dataWrite v x.zeros) s b1 h1
  obtain ⟨u, hu, -, hgo⟩ := goes_poll _ _ x.poll t b2 hx h2
  exact ⟨u, hr.trans hu, ht.trans hgo⟩

/-- `read_with_ready()` (R146). -/
theorem goes_readWithReady (x : ReadScript) (s : State) (bs : List Bool) (hx : x.fits = true)
    (h : samplesFit (framesTrace x.frames) bs = true) :
    ∃ t, Ran s t (framesTrace x.frames) x.byte ∧ Goes s readWithReady bs t := by
  simp only [ReadScript.frames, framesTrace_append, framesTrace_cons, framesTrace_nil, List.append_nil,
    samplesFit_append] at h ⊢
  obtain ⟨b1, b2, rfl, h1, h2⟩ := h
  obtain ⟨t, hr, -, ht⟩ := goes_poll _ _ x.poll s b1 hx h1
  obtain ⟨u, hu, -, hgo⟩ := goes_frame (.dataRead x.zeros x.byte) t b2 h2
  exact ⟨u, hr.trans hu, ht.trans hgo⟩

/-- What `ok_or_not` records of the response `r` (R142). -/
def withResponse (r : Byte) (s : State) : State :=
  { s with seq := { s.seq with lastResp := r, respValid := true, fst := s.seq.fst + 1 } }

/-- Wire activity and then `ok_or_not` on the byte it read. -/
theorem Ran.check {s t : State} {tr : List WireEvent} {x : Byte} (h : Ran s t tr x) :
    Ran (withResponse x s) (recordResponse t) tr x :=
  ⟨h.ie, h.status, h.result, h.timing, h.fpdat, h.ptr, h.buf, h.cur, h.fin, h.loopI, h.loopN, h.shift, rfl,
    congrArg (· + 1) h.fst, h.shift, h.lines, h.trace, h.outside⟩

/-- Wire activity keeps what has been recorded before it. -/
theorem Ran.under {r : Byte} {s t : State} {tr : List WireEvent} {x : Byte} (h : Ran s t tr x) :
    Ran (withResponse r s) (withResponse r t) tr x :=
  ⟨h.ie, h.status, h.result, h.timing, h.fpdat, h.ptr, h.buf, h.cur, h.fin, h.loopI, h.loopN, rfl, rfl,
    congrArg (· + 1) h.fst, h.shift, h.lines, h.trace, h.outside⟩

/-- `ok_or_not()` (R142). -/
theorem goes_check (zeros : Nat) (r : Byte) (s : State) (bs : List Bool)
    (h : samplesFit (framesTrace [.dataRead zeros r]) bs = true) :
    ∃ t, Ran (withResponse r s) t (framesTrace [.dataRead zeros r]) r ∧ Goes s [.check] bs t := by
  simp only [framesTrace_cons, framesTrace_nil, List.append_nil] at h ⊢
  obtain ⟨t, hr, -, ht⟩ := frame_goes (.dataRead zeros r) s bs h
  exact ⟨recordResponse t, hr.check, fun rest more => ht (.checkRecord :: rest) more⟩

/-- A ready poll and `ok_or_not()`. -/
theorem goes_readyCheck (x : ReadScript) (s : State) (bs : List Bool) (hx : x.fits = true)
    (h : samplesFit (framesTrace x.frames) bs = true) :
    ∃ t, Ran (withResponse x.byte s) t (framesTrace x.frames) x.byte ∧
      Goes s [.poll Config.maskOutputReady true, .check] bs t := by
  simp only [ReadScript.frames, framesTrace_append, samplesFit_append] at h ⊢
  obtain ⟨b1, b2, rfl, h1, h2⟩ := h
  obtain ⟨t, hr, -, ht⟩ := goes_poll _ _ x.poll s b1 hx h1
  obtain ⟨u, hu, hgo⟩ := goes_check x.zeros x.byte t b2 h2
  exact ⟨u, hr.under.trans hu, ht.trans hgo⟩

/-- Every command byte, listed or not, is issued by `command_init` (30_encoding.md R101). -/
theorem issueCommand_eq (c : Byte) (s : State) : issueCommand c s = .next (commandInit c s) := by
  have key : ∀ i, decodeCommand c = .ok i → exec i s = .next (commandInit c s) := by
    intro i hi
    unfold decodeCommand at hi
    split at hi <;> first
      | (cases hi; done)
      | (next hc =>
          cases hi
          rw [show c = BitVec.ofNat 8 c.toNat by simp, hc]
          rfl)
  unfold issueCommand
  split
  · next i hi => exact key i hi
  · rfl

/-- `command_init(c)` (R148). -/
theorem goes_command (c : Byte) (x : CommandScript) (s : State) (bs : List Bool) (hx : x.fits = true)
    (h : samplesFit (framesTrace (x.frames s.fpdat c)) bs = true) :
    ∃ t, Ran (withResponse x.response.byte s) t (framesTrace (x.frames s.fpdat c)) x.response.byte ∧
      Goes s [.command c] bs t := by
  simp only [CommandScript.frames, framesTrace_cons, framesTrace_append, samplesFit_append] at h ⊢
  simp only [CommandScript.fits, Bool.and_eq_true] at hx
  obtain ⟨b1, b2, rfl, h1, b3, b4, rfl, h3, h4⟩ := h
  obtain ⟨t, hr, -, ht⟩ := goes_frame (.addressWrite s.fpdat) s b1 h1
  obtain ⟨u, hu, hgu⟩ := goes_writeWithBusy c x.write t b3 hx.1 h3
  obtain ⟨v, hv, hgv⟩ := goes_readyCheck x.response u b4 hx.2 h4
  refine ⟨v, hr.under.trans (hu.under.trans hv), fun rest more => ?_⟩
  have := (ht.trans (hgu.trans hgv)) rest more
  rw [← this]
  simp only [List.cons_append, List.nil_append, fetch, issueCommand_eq]
  rfl

/-- A check that accepted goes on; one that rejected ends the operation. -/
theorem goes_stopIfRejected {s : State} (h : isSuccess s.seq.lastResp = true) : Goes s [.stopIfRejected] [] s := by
  intro rest more
  simp [fetch, h]

theorem Goes.rejected {s t : State} {steps rest : List SeqStep} {bs : List Bool} (h : Goes s steps bs t)
    (hr : isSuccess t.seq.lastResp = false) :
    andThen (fetch (steps ++ .stopIfRejected :: rest) s) (runEvents bs) = .next (finishRejected t) := by
  have := h (.stopIfRejected :: rest) []
  rw [List.append_nil] at this
  rw [this]
  simp [fetch, hr]

/-- What WBLK and RBLK do before their second check is looked at (43_flash_programming.md R169, R170), when the first
one accepts. -/
theorem goes_headerBody (c : Byte) (fa : Half) (size : Byte) (x : HeaderScript) (s : State) (bs : List Bool)
    (hx : x.fits = true) (hc : x.command.response.byte = 0x0D)
    (h : samplesFit (framesTrace (x.frames s.fpdat c fa size)) bs = true) :
    ∃ t, Ran (withResponse x.response.byte (withResponse x.command.response.byte s)) t
        (framesTrace (x.frames s.fpdat c fa size)) x.response.byte ∧
      Goes s (commandOrStop c ++ writeWithBusy (highByte fa) ++ writeWithBusy (lowByte fa) ++ writeWithBusy size ++
        [.poll Config.maskOutputReady true, .check]) bs t := by
  simp only [HeaderScript.frames, framesTrace_append, samplesFit_append] at h ⊢
  simp only [HeaderScript.fits, Bool.and_eq_true] at hx
  obtain ⟨_, b5, rfl, ⟨_, b4, rfl, ⟨_, b3, rfl, ⟨b1, b2, rfl, h1, h2⟩, h3⟩, h4⟩, h5⟩ := h
  obtain ⟨t1, r1, g1⟩ := goes_command c x.command s b1 hx.1.1.1.1 h1
  obtain ⟨t2, r2, g2⟩ := goes_writeWithBusy (highByte fa) x.high t1 b2 hx.1.1.1.2 h2
  obtain ⟨t3, r3, g3⟩ := goes_writeWithBusy (lowByte fa) x.low t2 b3 hx.1.1.2 h3
  obtain ⟨t4, r4, g4⟩ := goes_writeWithBusy size x.size t3 b4 hx.1.2 h4
  obtain ⟨t5, r5, g5⟩ := goes_readyCheck x.response t4 b5 hx.2 h5
  have ok : isSuccess t1.seq.lastResp = true := by
    rw [r1.lastResp]
    simp [withResponse, isSuccess, hc, Config.successByte]
  have g := (((g1.trans (goes_stopIfRejected ok)).trans g2).trans g3).trans g4 |>.trans g5
  rw [List.append_nil] at g
  exact ⟨t5, (((r1.trans r2).trans r3).trans r4).under.trans r5, g⟩

/-! ## The byte loops of WBLK and RBLK -/

/-- The loop index at `i` and `d` free values drawn. -/
def withLoop (i : BitVec 9) (d : Nat) (s : State) : State :=
  { s with
    seq := { s.seq with loopI := i }
    env := { s.env with draws := d } }

/-- Where a byte loop has got to does not touch what wire activity leaves. -/
theorem Ran.loop {s t : State} {tr : List WireEvent} {x : Byte} (h : Ran s t tr x) (i : BitVec 9) (d : Nat) :
    Ran (withLoop i d s) (withLoop i d t) tr x :=
  ⟨h.ie, h.status, h.result, h.timing, h.fpdat, h.ptr, h.buf, h.cur, h.fin, rfl, h.loopN, h.lastResp, h.respValid,
    h.fst, h.shift, h.lines, h.trace, ⟨h.outside.1, rfl, h.outside.2.2⟩⟩

theorem withLoop_self (s : State) : withLoop s.seq.loopI s.env.draws s = s := rfl

/-- How many free values have been drawn after the byte at `i` has been read. -/
def drawsAfter (m : Memory) (i d : Nat) : Nat := if (m.read i).isSome then d else d + 1

theorem drawForByte_eq (i : Nat) (s : State) :
    drawForByte i s = withLoop s.seq.loopI (drawsAfter s.buf i s.env.draws) s := by
  unfold drawForByte drawsAfter
  cases s.buf.read i <;> rfl

theorem blockBytes_succ (m : Memory) (c i d : Nat) :
    blockBytes m (c + 1) i d =
      (m.read i).getD (Config.freeByte d) :: blockBytes m c (i + 1) (drawsAfter m i d) := by
  simp only [blockBytes, drawsAfter]
  cases m.read i <;> rfl

theorem bufIndex_of_lt {q : Sequencer} {i : Nat} (h : q.loopI = BitVec.ofNat 9 i) (hi : i < 256) : bufIndex q = i := by
  simp only [bufIndex, h, BitVec.toNat_setWidth, BitVec.toNat_ofNat]
  omega

theorem loop_lt {i n : Nat} (hi : i < n) (hn : n ≤ 256) : BitVec.ofNat 9 i < BitVec.ofNat 9 n := by
  simp only [BitVec.lt_def, BitVec.toNat_ofNat]
  omega

theorem loop_not_lt (i : Nat) : ¬ BitVec.ofNat 9 i < BitVec.ofNat 9 i := by simp

/-- The byte loop of WBLK from index `i` on (43_flash_programming.md R169): `s0` and `tr0` are the state before the loop
and the trace since then. -/
theorem goes_sendBlock (xs : List WriteScript) (i n : Nat) (s0 s : State) (tr0 : List WireEvent) (x0 : Byte)
    (bs : List Bool) (hr0 : Ran s0 s tr0 x0) (hi : s0.seq.loopI = BitVec.ofNat 9 i)
    (hn : s0.seq.loopN = BitVec.ofNat 9 n) (hlen : i + xs.length = n) (hn' : n ≤ 256)
    (hx : xs.all WriteScript.fits = true)
    (h : samplesFit (framesTrace (writesFrames (blockBytes s0.buf xs.length i s0.env.draws) xs)) bs = true) :
    ∃ t x d, Ran (withLoop (BitVec.ofNat 9 n) d s0) t
        (tr0 ++ framesTrace (writesFrames (blockBytes s0.buf xs.length i s0.env.draws) xs)) x ∧
      Goes s [.sendBlock] bs t := by
  induction xs generalizing i s0 s tr0 x0 bs with
  | nil =>
    obtain rfl : i = n := by simpa using hlen
    obtain rfl := samplesFit_nil.mp h
    refine ⟨s, x0, s0.env.draws, ?_, fun rest more => ?_⟩
    · rw [← hi, withLoop_self]
      simpa [writesFrames, blockBytes] using hr0
    · have : ¬ s.seq.loopI < s.seq.loopN := by rw [hr0.loopI, hr0.loopN, hi, hn]; exact loop_not_lt _
      simp only [List.singleton_append, List.nil_append, fetch, this, if_false]
  | cons y xs ih =>
    simp only [List.all_cons, Bool.and_eq_true] at hx
    simp only [List.length_cons] at hlen
    simp only [List.length_cons, blockBytes_succ] at h ⊢
    generalize hv : (s0.buf.read i).getD (Config.freeByte s0.env.draws) = v at h ⊢
    have hy : y.frames v = .dataWrite v y.zeros :: y.poll.frames := rfl
    simp only [writesFrames, List.zipWith_cons_cons, List.flatten_cons, hy, framesTrace_append, framesTrace_cons,
      samplesFit_append] at h ⊢
    obtain ⟨b1, b2, rfl, ⟨b3, b4, rfl, h3, h4⟩, h2⟩ := h
    have hidx : bufIndex s.seq = i := bufIndex_of_lt (hr0.loopI.trans hi) (by omega)
    have hlt : s.seq.loopI < s.seq.loopN := by rw [hr0.loopI, hr0.loopN, hi, hn]; exact loop_lt (by omega) hn'
    have hbyte : bufByte s (bufIndex s.seq) = v := by
      rw [hidx, bufByte, hr0.buf, hr0.outside.2.1, hv]
    have hdraw : drawForByte (bufIndex s.seq) s =
        withLoop (BitVec.ofNat 9 i) (drawsAfter s0.buf i s0.env.draws) s := by
      rw [hidx, drawForByte_eq, hr0.loopI, hi, hr0.buf, hr0.outside.2.1]
    obtain ⟨t, hrt, -, ht⟩ := frame_goes (.dataWrite v y.zeros)
      (withLoop (BitVec.ofNat 9 i) (drawsAfter s0.buf i s0.env.draws) s) b3 h3
    obtain ⟨u, hru, -, hgu⟩ := goes_poll _ _ y.poll t b4 hx.1 h4
    have hall := ((hr0.loop (BitVec.ofNat 9 i) (drawsAfter s0.buf i s0.env.draws)).trans (hrt.trans hru)).loop
      (BitVec.ofNat 9 (i + 1)) (drawsAfter s0.buf i s0.env.draws)
    obtain ⟨w, x, d, hw, hgw⟩ := ih (i + 1) (withLoop (BitVec.ofNat 9 (i + 1)) (drawsAfter s0.buf i s0.env.draws) s0)
      _ _ _ b2 hall rfl hn (by omega) hx.2 h2
    refine ⟨w, x, d, ?_, fun rest more => ?_⟩
    · simpa [writesFrames, withLoop, List.append_assoc] using hw
    · have hu : bumpIndex u = withLoop (BitVec.ofNat 9 (i + 1)) (drawsAfter s0.buf i s0.env.draws) u := by
        have e1 : u.seq.loopI + 1 = BitVec.ofNat 9 (i + 1) := by
          rw [(hrt.trans hru).loopI]
          show BitVec.ofNat 9 i + 1 = _
          exact (BitVec.ofNat_add i 1).symm
        have e2 : u.env.draws = drawsAfter s0.buf i s0.env.draws := (hrt.trans hru).outside.2.1
        simp only [bumpIndex, withLoop, e1, ← e2]
      rw [← hgw, ← hu]
      refine Eq.trans ?_ (hgu (.nextIndex :: .sendBlock :: rest) (b2 ++ more))
      refine Eq.trans ?_ (ht (.poll Config.maskInputBusy false :: .nextIndex :: .sendBlock :: rest) (b4 ++ (b2 ++ more)))
      simp only [List.singleton_append, fetch, hlt, if_true, hbyte, hdraw, List.append_assoc]
      rfl

/-- The bytes `ys` at the indices from `i` on. -/
def storeBytes (i : Nat) : List Byte → Memory → Memory
  | [], m => m
  | v :: ys, m => storeBytes (i + 1) ys (m.write i v)

theorem read_storeBytes (ys : List Byte) (i k : Nat) (m : Memory) :
    (storeBytes i ys m).read k =
      if i ≤ k ∧ k < i + ys.length then ys[k - i]? else m.read k := by
  induction ys generalizing i m with
  | nil => simp [storeBytes]
  | cons v ys ih =>
    simp only [storeBytes, ih, Memory.read_write, List.length_cons]
    by_cases h1 : i + 1 ≤ k ∧ k < i + 1 + ys.length
    · have h2 : i ≤ k ∧ k < i + (ys.length + 1) := by omega
      have h3 : k - i = (k - (i + 1)) + 1 := by omega
      rw [if_pos h1, if_pos h2, h3, List.getElem?_cons_succ]
    · rw [if_neg h1]
      by_cases h4 : k = i
      · subst h4
        rw [if_pos rfl, if_pos (by omega), Nat.sub_self, List.getElem?_cons_zero]
      · rw [if_neg h4, if_neg (by omega)]

/-- BUF as given. -/
def withBuf (m : Memory) (s : State) : State := { s with buf := m }

theorem Ran.withBuf {s t : State} {tr : List WireEvent} {x : Byte} (h : Ran s t tr x) (m : Memory) :
    Ran (Machine.withBuf m s) (Machine.withBuf m t) tr x :=
  ⟨h.ie, h.status, h.result, h.timing, h.fpdat, h.ptr, rfl, h.cur, h.fin, h.loopI, h.loopN, h.lastResp, h.respValid,
    h.fst, h.shift, h.lines, h.trace, h.outside⟩

/-- The byte loop of RBLK from index `i` on (R170). -/
theorem goes_receiveBlock (xs : List ReadScript) (i n : Nat) (s0 s : State) (tr0 : List WireEvent) (x0 : Byte)
    (bs : List Bool) (hr0 : Ran s0 s tr0 x0) (hi : s0.seq.loopI = BitVec.ofNat 9 i)
    (hn : s0.seq.loopN = BitVec.ofNat 9 n) (hlen : i + xs.length = n) (hn' : n ≤ 256)
    (hx : xs.all ReadScript.fits = true)
    (h : samplesFit (framesTrace (xs.flatMap ReadScript.frames)) bs = true) :
    ∃ t x, Ran (withLoop (BitVec.ofNat 9 n) s0.env.draws
          (withBuf (storeBytes i (xs.map ReadScript.byte) s0.buf) s0)) t
        (tr0 ++ framesTrace (xs.flatMap ReadScript.frames)) x ∧
      Goes s [.receiveBlock] bs t := by
  induction xs generalizing i s0 s tr0 x0 bs with
  | nil =>
    obtain rfl : i = n := by simpa using hlen
    obtain rfl := samplesFit_nil.mp h
    refine ⟨s, x0, ?_, fun rest more => ?_⟩
    · rw [← hi]
      have e : withLoop s0.seq.loopI s0.env.draws (Machine.withBuf s0.buf s0) = s0 := rfl
      simpa [storeBytes, e] using hr0
    · have : ¬ s.seq.loopI < s.seq.loopN := by rw [hr0.loopI, hr0.loopN, hi, hn]; exact loop_not_lt _
      simp only [List.singleton_append, List.nil_append, fetch, this, if_false]
  | cons y xs ih =>
    simp only [List.all_cons, Bool.and_eq_true] at hx
    simp only [List.length_cons] at hlen
    simp only [List.flatMap_cons, framesTrace_append, samplesFit_append] at h ⊢
    obtain ⟨b1, b2, rfl, h1, h2⟩ := h
    have hlt : s.seq.loopI < s.seq.loopN := by rw [hr0.loopI, hr0.loopN, hi, hn]; exact loop_lt (by omega) hn'
    obtain ⟨t, hrt, hgt⟩ := goes_readWithReady y s b1 hx.1 h1
    have hidx : bufIndex t.seq = i := bufIndex_of_lt (hrt.loopI.trans (hr0.loopI.trans hi)) (by omega)
    have hall := ((hr0.trans hrt).withBuf (s0.buf.write i y.byte)).loop (BitVec.ofNat 9 (i + 1)) s0.env.draws
    obtain ⟨w, x, hw, hgw⟩ := ih (i + 1)
      (withLoop (BitVec.ofNat 9 (i + 1)) s0.env.draws (withBuf (s0.buf.write i y.byte) s0))
      _ _ _ b2 hall rfl hn (by omega) hx.2 h2
    refine ⟨w, x, ?_, fun rest more => ?_⟩
    · simpa [storeBytes, withLoop, Machine.withBuf, List.append_assoc] using hw
    · have ht : bumpIndex (setBufByte (bufIndex t.seq) t.seq.shift t) =
          withLoop (BitVec.ofNat 9 (i + 1)) s0.env.draws (Machine.withBuf (s0.buf.write i y.byte) t) := by
        have e1 : t.seq.loopI + 1 = BitVec.ofNat 9 (i + 1) := by
          rw [hrt.loopI, hr0.loopI, hi]
          exact (BitVec.ofNat_add i 1).symm
        have e2 : t.env.draws = s0.env.draws := (hr0.trans hrt).outside.2.1
        have e3 : t.buf = s0.buf := (hr0.trans hrt).buf
        simp only [bumpIndex, setBufByte, hidx, hrt.shift, withLoop, Machine.withBuf, e1, e3, ← e2]
      rw [← hgw, ← ht]
      refine Eq.trans ?_ (hgt (.storeByte :: .nextIndex :: .receiveBlock :: rest) (b2 ++ more))
      simp only [List.singleton_append, fetch, hlt, if_true, List.append_assoc]
      rfl

/-! ## From acceptance to `finish` -/

/-- An accepted operation whose steps run through finishes. -/
theorem CompletesTo.of_goes {i : Instr} {s t : State} {steps : List SeqStep} {fin : Finish} {n : BitVec 9}
    {bs : List Bool} (h : exec i s = .next (accepted (encodeCmd i) steps fin n s))
    (hg : Goes (accepted (encodeCmd i) steps fin n s) steps bs t) : CompletesTo i bs s (finishOp t) :=
  ⟨_, h, rfl, hg.finish⟩

/-- An accepted operation whose check rejects stops there. -/
theorem CompletesTo.of_rejected {i : Instr} {s t : State} {all steps rest : List SeqStep} {fin : Finish}
    {n : BitVec 9} {bs : List Bool} (hall : all = steps ++ .stopIfRejected :: rest)
    (h : exec i s = .next (accepted (encodeCmd i) all fin n s))
    (hg : Goes (accepted (encodeCmd i) all fin n s) steps bs t) (hr : isSuccess t.seq.lastResp = false) :
    CompletesTo i bs s (finishRejected t) := by
  refine ⟨_, h, rfl, ?_⟩
  have := hg.rejected (rest := rest) hr
  rw [← hall] at this
  exact this

/-- The state in which `finish` runs has the wire activity of the operation behind it; `a` is the state after
acceptance with the responses recorded since. -/
theorem Ran.finished {i : Instr} {s a t : State} {tr : List WireEvent} {x : Byte} (h : Ran a t tr x)
    (hs : a.status = statusAccept s.status) (hc : a.cur = latchedOf (encodeCmd i))
    (hl : a.lines = s.lines) (he : a.env.trace = s.env.trace)
    (hr : a.ie = s.ie ∧ a.timing = s.timing ∧ a.fpdat = s.fpdat ∧ a.ptr = s.ptr) {ok : Bool} {data resp : Byte}
    {count : BitVec 9} {fstage : BitVec 2} :
    Finished i s (finishWith ok data resp count fstage t) tr ok data resp count fstage where
  status := by simp [finishWith, statusFinish, h.status, hs, statusAccept]
  result := rfl
  trace := by rw [← he]; exact h.trace
  lines := by simp [finishWith, IdleLines, h.lines.1, h.lines.2.1]
  last_driven := by rw [← hl]; exact h.lines.2.2
  sequencer_idle := ⟨rfl, rfl⟩
  latched := h.cur.trans hc
  registers := ⟨h.ie.trans hr.1, h.timing.trans hr.2.1, h.fpdat.trans hr.2.2.1, h.ptr.trans hr.2.2.2⟩

end Sys2Proof.Machine
end

