-- ==== Sys2Proof/Laws/Ops.lean ====
section
/-! SUPPORT. One lemma for each shared operation: everything it can do. `exec` of a host command, of a wire instruction
and of a command code; the fetch between two wire events; a host access; an edge of the sequencer; an edge of `clk`. -/

namespace Sys2Proof.Machine

/-! ## Executing one instruction -/

/-- The decode step refuses while busy and accepts while idle (10_state.md R43). -/
theorem acceptOp_busy {s : State} (h : s.status.busy = true) (i : Instr) (steps : List SeqStep) (fin : Finish)
    (n : BitVec 9) : acceptOp i steps fin n s = .next (raiseHostError .busyWrite s) := by simp [acceptOp, h]

theorem acceptOp_idle {s : State} (h : s.status.busy = false) (i : Instr) (steps : List SeqStep) (fin : Finish)
    (n : BitVec 9) : acceptOp i steps fin n s = .next (accepted (encodeCmd i) steps fin n s) := by simp [acceptOp, h]

theorem blockSize_le (size : Byte) : (blockSize size).toNat ≤ Config.bufSize := by
  unfold blockSize
  split
  · decide
  · have := size.isLt
    simp only [BitVec.toNat_setWidth, Config.bufSize]
    omega

/-- A host command while busy raises BUSY_WRITE. -/
theorem exec_busy {i : Instr} {s : State} (hi : IsCommand i = true) (h : s.status.busy = true) :
    exec i s = .next (raiseHostError .busyWrite s) := by
  cases i <;> first
    | (cases hi; done)
    | exact acceptOp_busy h _ _ _ _
    | (simp only [exec, execWfb, h, Bool.not_true, Bool.false_and, Bool.false_eq_true, if_false]
       exact acceptOp_busy h _ _ _ _)

/-- A well-formed host command while idle is accepted with steps that run at most two checks and no byte loop above 256
bytes. -/
theorem exec_idle {i : Instr} {s : State} (hi : IsCommand i = true) (hw : WellFormed i = true)
    (h : s.status.busy = false) :
    ∃ steps fin n, exec i s = .next (accepted (encodeCmd i) steps fin n s) ∧ checksIn steps ≤ 2 ∧
      n.toNat ≤ Config.bufSize ∧ SeqStep.storeByte ∉ steps := by
  cases i <;> first
    | (cases hi; done)
    | exact ⟨_, _, _, acceptOp_idle h _ _ _ _, by simp [checksIn, writeWithBusy, readWithReady, commandOrStop, blockHeader,
        addressWriteStep, addressReadStep, dataWriteStep, dataReadStep], by first | exact blockSize_le _ | decide,
        by simp [writeWithBusy, readWithReady, commandOrStop, blockHeader, addressWriteStep, addressReadStep,
          dataWriteStep, dataReadStep]⟩
    | (simp only [exec, execWfb, h, hw, Bool.not_true, Bool.and_false, Bool.false_eq_true, if_false]
       exact ⟨_, _, _, acceptOp_idle h _ _ _ _, by simp [checksIn], by decide, by simp⟩)

/-- WFB with mask 0x00 and expected bit 1 while idle raises ILLEGAL_OPERAND (30_encoding.md R92). -/
theorem exec_illFormed {i : Instr} {s : State} (hw : WellFormed i = false) (h : s.status.busy = false) :
    exec i s = .next (raiseHostError .illegalOperand s) := by
  cases i <;> first
    | cases hw
    | simp [exec, execWfb, h, hw]

/-- The decoder gives host commands only, and well-formed ones. -/
theorem decodeCmd_ok {w : Word} {i : Instr} (h : decodeCmd w = .ok i) : IsCommand i = true ∧ WellFormed i = true := by
  unfold decodeCmd at h
  split at h
  all_goals first
    | (cases h; exact ⟨rfl, rfl⟩)
    | cases h
    | (split at h
       · cases h
       · next hc => cases h; exact ⟨rfl, by simpa [WellFormed, imp_iff_not_or] using hc⟩)

/-! ## Fetching -/

/-- What the fetch may have changed between two wire events: the response records, the loop index, the number of free
values drawn, what is left to do, and a byte of BUF when there was one to store. -/
structure Passed (p : List SeqStep) (s u : State) (rest : List SeqStep) : Prop where
  host : u.ie = s.ie ∧ u.status = s.status ∧ u.result = s.result ∧ u.timing = s.timing ∧ u.fpdat = s.fpdat ∧
    u.ptr = s.ptr ∧ u.cur = s.cur
  lines : u.lines = s.lines ∧ u.sync = s.sync
  outside : u.env.inputs = s.env.inputs ∧ u.env.trace = s.env.trace ∧ u.env.prdata = s.env.prdata
  size : u.seq.loopN = s.seq.loopN
  sample : u.seq.sampleLatch = s.seq.sampleLatch
  checks : s.seq.fst.toNat + checksIn p ≤ 2 → u.seq.fst.toNat + checksIn rest ≤ 2
  buf_wf : s.buf.wf = true → u.buf.wf = true
  buf : SeqStep.storeByte ∉ p → u.buf = s.buf

theorem Passed.refl (p : List SeqStep) (s : State) : Passed p s s p :=
  ⟨⟨rfl, rfl, rfl, rfl, rfl, rfl, rfl⟩, ⟨rfl, rfl⟩, ⟨rfl, rfl, rfl⟩, rfl, rfl, id, id, fun _ => rfl⟩

/-- The fetch of one step, when it begins no event, hands on to the rest. -/
theorem Passed.trans {p q r : List SeqStep} {s t u : State} (h1 : Passed p s t q) (h2 : Passed q t u r)
    (hp : SeqStep.storeByte ∉ p → SeqStep.storeByte ∉ q) : Passed p s u r where
  host := ⟨h2.host.1.trans h1.host.1, h2.host.2.1.trans h1.host.2.1, h2.host.2.2.1.trans h1.host.2.2.1,
    h2.host.2.2.2.1.trans h1.host.2.2.2.1, h2.host.2.2.2.2.1.trans h1.host.2.2.2.2.1,
    h2.host.2.2.2.2.2.1.trans h1.host.2.2.2.2.2.1, h2.host.2.2.2.2.2.2.trans h1.host.2.2.2.2.2.2⟩
  lines := ⟨h2.lines.1.trans h1.lines.1, h2.lines.2.trans h1.lines.2⟩
  outside := ⟨h2.outside.1.trans h1.outside.1, h2.outside.2.1.trans h1.outside.2.1,
    h2.outside.2.2.trans h1.outside.2.2⟩
  size := h2.size.trans h1.size
  sample := h2.sample.trans h1.sample
  checks := fun h => h2.checks (h1.checks h)
  buf_wf := fun h => h2.buf_wf (h1.buf_wf h)
  buf := fun h => (h2.buf (hp h)).trans (h1.buf h)

/-- How a fetch ends: a frame, the pulse or the settle delay begins with `rest` left to do, or the operation finishes. -/
inductive Fetched (rest : List SeqStep) (u : State) : State → Prop
  | frame (k : FrameKind) (v : Byte) : Fetched rest u (beginFrame k v (withTodo rest u))
  | pulse : Fetched rest u (beginPulse (withTodo rest u))
  | settle : Fetched rest u (beginSettle (withTodo rest u))
  | finish : Fetched rest u (finishOp u)
  | rejected : Fetched rest u (finishRejected u)

theorem issueFrame_begins (ins : BitVec 2) (v : Byte) (s : State) :
    ∃ k w, issueFrame ins v s = .next (beginFrame k w s) := by
  unfold issueFrame decodeWire
  split
  · exact ⟨_, _, rfl⟩
  · split
    · exact ⟨_, _, rfl⟩
    · split <;> exact ⟨_, _, rfl⟩

/-- A fetch that issues a frame. -/
theorem fetched_frame {p rest : List SeqStep} {s u : State} (ins : BitVec 2) (v : Byte) (hp : Passed p s u rest) :
    ∃ u' rest' t, issueFrame ins v (withTodo rest u) = .next t ∧ Passed p s u' rest' ∧ Fetched rest' u' t := by
  obtain ⟨k, w, h⟩ := issueFrame_begins ins v (withTodo rest u)
  exact ⟨u, rest, _, h, hp, .frame k w⟩

/-- Every fetch answers a next state, in one of the ways of `Fetched`. -/
theorem fetch_cases (p : List SeqStep) (s : State) :
    ∃ u rest t, fetch p s = .next t ∧ Passed p s u rest ∧ Fetched rest u t := by
  induction p generalizing s with
  | nil => exact ⟨s, [], _, rfl, .refl _ _, .finish⟩
  | cons st p ih =>
    -- a step that only hands on
    have pass : ∀ t : State, Passed (st :: p) s t p → fetch (st :: p) s = fetch p t →
        ∃ u rest t, fetch (st :: p) s = .next t ∧ Passed (st :: p) s u rest ∧ Fetched rest u t := by
      intro t ht he
      obtain ⟨u, rest, v, hf, hp, hv⟩ := ih t
      exact ⟨u, rest, v, he.trans hf, ht.trans hp (fun h => fun h' => h (List.mem_cons_of_mem _ h')), hv⟩
    cases st with
    | frame ins b =>
      exact fetched_frame ins b ⟨⟨rfl, rfl, rfl, rfl, rfl, rfl, rfl⟩, ⟨rfl, rfl⟩, ⟨rfl, rfl, rfl⟩, rfl, rfl, id, id, fun _ => rfl⟩
    | command c =>
      refine ⟨s, commandRest c ++ p, _, issueCommand_eq c _,
        ⟨⟨rfl, rfl, rfl, rfl, rfl, rfl, rfl⟩, ⟨rfl, rfl⟩, ⟨rfl, rfl, rfl⟩, rfl, rfl, ?_, id, fun _ => rfl⟩, .frame .addressWrite s.fpdat⟩
      intro h
      exact h
    | poll m e =>
      exact fetched_frame _ _ ⟨⟨rfl, rfl, rfl, rfl, rfl, rfl, rfl⟩, ⟨rfl, rfl⟩, ⟨rfl, rfl, rfl⟩, rfl, rfl, id, id, fun _ => rfl⟩
    | pollTest m e =>
      by_cases h : pollMet m e s.seq.shift = true
      · exact pass (recordStatus s)
          ⟨⟨rfl, rfl, rfl, rfl, rfl, rfl, rfl⟩, ⟨rfl, rfl⟩, ⟨rfl, rfl, rfl⟩, rfl, rfl, id, id, fun _ => rfl⟩ (by simp only [fetch, h, if_true])
      · simp only [fetch, h]
        exact fetched_frame _ _ ⟨⟨rfl, rfl, rfl, rfl, rfl, rfl, rfl⟩, ⟨rfl, rfl⟩, ⟨rfl, rfl, rfl⟩, rfl, rfl, id, id, fun _ => rfl⟩
    | check =>
      exact fetched_frame _ _ ⟨⟨rfl, rfl, rfl, rfl, rfl, rfl, rfl⟩, ⟨rfl, rfl⟩, ⟨rfl, rfl, rfl⟩, rfl, rfl, id, id, fun _ => rfl⟩
    | checkRecord =>
      refine pass (recordResponse s)
        ⟨⟨rfl, rfl, rfl, rfl, rfl, rfl, rfl⟩, ⟨rfl, rfl⟩, ⟨rfl, rfl, rfl⟩, rfl, rfl, ?_, id, fun _ => rfl⟩ rfl
      intro h
      simp only [checksIn] at h
      have e : (recordResponse s).seq.fst.toNat = (s.seq.fst.toNat + 1) % 4 := rfl
      omega
    | stopIfRejected =>
      by_cases h : isSuccess s.seq.lastResp = true
      · exact pass s ⟨⟨rfl, rfl, rfl, rfl, rfl, rfl, rfl⟩, ⟨rfl, rfl⟩, ⟨rfl, rfl, rfl⟩, rfl, rfl, id, id, fun _ => rfl⟩
          (by simp only [fetch, h, if_true])
      · exact ⟨s, .stopIfRejected :: p, _, by simp only [fetch, h]; rfl, .refl _ _, .rejected⟩
    | sendBlock =>
      by_cases h : s.seq.loopI < s.seq.loopN
      · rw [show fetch (.sendBlock :: p) s = issueFrame Config.insDataWrite (bufByte s (bufIndex s.seq))
            (withTodo (.poll Config.maskInputBusy false :: .nextIndex :: .sendBlock :: p)
              (drawForByte (bufIndex s.seq) s)) from if_pos h, drawForByte_eq]
        exact fetched_frame _ _ ⟨⟨rfl, rfl, rfl, rfl, rfl, rfl, rfl⟩, ⟨rfl, rfl⟩, ⟨rfl, rfl, rfl⟩, rfl, rfl, id, id, fun _ => rfl⟩
      · exact pass s ⟨⟨rfl, rfl, rfl, rfl, rfl, rfl, rfl⟩, ⟨rfl, rfl⟩, ⟨rfl, rfl, rfl⟩, rfl, rfl, id, id, fun _ => rfl⟩
          (by simp only [fetch, h, if_false])
    | receiveBlock =>
      by_cases h : s.seq.loopI < s.seq.loopN
      · simp only [fetch, h, if_true]
        exact fetched_frame _ _ ⟨⟨rfl, rfl, rfl, rfl, rfl, rfl, rfl⟩, ⟨rfl, rfl⟩, ⟨rfl, rfl, rfl⟩, rfl, rfl, id, id, fun _ => rfl⟩
      · exact pass s ⟨⟨rfl, rfl, rfl, rfl, rfl, rfl, rfl⟩, ⟨rfl, rfl⟩, ⟨rfl, rfl, rfl⟩, rfl, rfl, id, id, fun _ => rfl⟩
          (by simp only [fetch, h, if_false])
    | storeByte =>
      exact pass (setBufByte (bufIndex s.seq) s.seq.shift s)
        ⟨⟨rfl, rfl, rfl, rfl, rfl, rfl, rfl⟩, ⟨rfl, rfl⟩, ⟨rfl, rfl, rfl⟩, rfl, rfl, id,
          setBufByte_wf _ _ _ (bufIndex_lt _), fun h => absurd List.mem_cons_self h⟩ rfl
    | nextIndex =>
      exact pass (bumpIndex s)
        ⟨⟨rfl, rfl, rfl, rfl, rfl, rfl, rfl⟩, ⟨rfl, rfl⟩, ⟨rfl, rfl, rfl⟩, rfl, rfl, id, id, fun _ => rfl⟩ rfl
    | pulse =>
      exact ⟨s, p, _, rfl, ⟨⟨rfl, rfl, rfl, rfl, rfl, rfl, rfl⟩, ⟨rfl, rfl⟩, ⟨rfl, rfl, rfl⟩, rfl, rfl, id, id, fun _ => rfl⟩,
        .pulse⟩
    | settle =>
      exact ⟨s, p, _, rfl, ⟨⟨rfl, rfl, rfl, rfl, rfl, rfl, rfl⟩, ⟨rfl, rfl⟩, ⟨rfl, rfl, rfl⟩, rfl, rfl, id, id, fun _ => rfl⟩,
        .settle⟩

/-! ## Host accesses -/

/-- A completed host write: a register or an error record changes, or an operation is accepted. -/
inductive HostWritten (r : HostReg) (w : Word) (s : State) : State → Prop
  | ignored (h : r = .result ∨ r = .reserved) : HostWritten r w s s
  | ctrl (h : r = .ctrl) : HostWritten r w s { s with ie := w.getLsbD 0 }
  | status (h : r = .status) : HostWritten r w s (acknowledge w s)
  | timing (h : r = .timing) (hb : s.status.busy = false) : HostWritten r w s { s with timing := timingOfWord w }
  | devcfg (h : r = .devcfg) (hb : s.status.busy = false) : HostWritten r w s { s with fpdat := w.extractLsb' 0 8 }
  | bufptr (h : r = .bufptr) (hb : s.status.busy = false) : HostWritten r w s { s with ptr := w.extractLsb' 0 8 }
  | bufdata (h : r = .bufdata) (hb : s.status.busy = false) :
      HostWritten r w s (bumpPtr (setBufByte s.ptr.toNat (w.extractLsb' 0 8) s))
  | error (e : HostError) : HostWritten r w s (raiseHostError e s)
  | accepted (h : r = .cmd) (hb : s.status.busy = false) (i : Instr) (steps : List SeqStep) (fin : Finish) (n : BitVec 9)
      (hd : decodeCmd w = .ok i) (hc : checksIn steps ≤ 2) (hn : n.toNat ≤ Config.bufSize)
      (hs : SeqStep.storeByte ∉ steps) :
      HostWritten r w s (latchWord w (Machine.accepted (encodeCmd i) steps fin n s))

theorem hostWrite_cases (r : HostReg) (w : Word) (s : State) :
    ∃ t, hostWrite r w s = .next t ∧ HostWritten r w s t := by
  have guarded : ∀ f : State → State, (s.status.busy = false → HostWritten r w s (f s)) →
      ∃ t, (Host.Outcome.next (unlessBusy f s) : Outcome State Fault Refusal) = .next t ∧ HostWritten r w s t := by
    intro f hf
    refine ⟨_, rfl, ?_⟩
    unfold unlessBusy
    split
    · exact .error _
    · next h => exact hf (by simpa using h)
  cases r with
  | ctrl => exact ⟨_, rfl, .ctrl rfl⟩
  | status => exact ⟨_, rfl, .status rfl⟩
  | result => exact ⟨_, rfl, .ignored (.inl rfl)⟩
  | reserved => exact ⟨_, rfl, .ignored (.inr rfl)⟩
  | timing => exact guarded _ (.timing rfl)
  | devcfg => exact guarded _ (.devcfg rfl)
  | bufptr => exact guarded _ (.bufptr rfl)
  | bufdata => exact guarded _ (.bufdata rfl)
  | cmd =>
    simp only [hostWrite, writeCmd]
    split
    · next i hi =>
      obtain ⟨hc, hw⟩ := decodeCmd_ok hi
      by_cases hb : s.status.busy = true
      · rw [if_pos hb, exec_busy hc hb]
        exact ⟨_, rfl, .error _⟩
      · have hb' : s.status.busy = false := by simpa using hb
        obtain ⟨steps, fin, n, he, h2, hn, hs⟩ := exec_idle hc hw hb'
        rw [if_neg hb, he]
        exact ⟨_, rfl, .accepted rfl hb' i steps fin n hi h2 hn hs⟩
    · exact guarded _ fun _ => .error _

/-- Only a write to CMD makes the block busy. -/
theorem HostWritten.busy {r : HostReg} {w : Word} {s t : State} (h : HostWritten r w s t) (hr : r ≠ .cmd) :
    t.status.busy = s.status.busy := by
  cases h with
  | accepted h => exact absurd h hr
  | _ => rfl

/-- A completed host read changes `prdata`, and on BUFDATA the pointer or the error record. -/
inductive HostRead (r : HostReg) (s : State) : State → Prop
  | plain (h : r ≠ .bufdata) : HostRead r s (notePrdata (readReg r s) s)
  | busy (h : r = .bufdata) (hb : s.status.busy = true) :
      HostRead r s (notePrdata 0 (raiseHostError .busyRead s))
  | idle (h : r = .bufdata) (hb : s.status.busy = false) :
      HostRead r s (notePrdata (byteWord (bufByte s s.ptr.toNat)) (bumpPtr (drawForByte s.ptr.toNat s)))

/-- No host read starts or ends an operation. -/
theorem HostRead.busy_eq {r : HostReg} {s t : State} (h : HostRead r s t) : t.status.busy = s.status.busy := by
  cases h with
  | idle => rw [drawForByte_eq]; rfl
  | _ => rfl

theorem hostRead_cases (r : HostReg) (s : State) : HostRead r s (hostRead r s) := by
  by_cases hr : r = .bufdata
  · subst hr
    by_cases hb : s.status.busy = true
    · simp only [hostRead, readEffect, readReg, hb, if_true]
      exact .busy rfl hb
    · simp only [hostRead, readEffect, readReg, hb]
      exact .idle rfl (by simpa using hb)
  · have e : readEffect r s = s := by cases r <;> first | rfl | exact absurd rfl hr
    simp only [hostRead, e]
    exact .plain hr

/-! ## Edges -/

theorem strobeDone_next {k : FrameKind} {p q : WirePos} {s : State}
    (h : nextPos k s.seq.bitCount s.sync.last p = some q) :
    strobeDone k p s = .next (beginStrobe k q (shiftData p s.sync.last
      (noteEvent (strobeEvent k s.seq.shift s.seq.bitCount s.sync.last p) (latchSample s.sync.last s)))) := by
  simp only [strobeDone, h]

theorem strobeDone_last {k : FrameKind} {p : WirePos} {s : State}
    (h : nextPos k s.seq.bitCount s.sync.last p = none) :
    strobeDone k p s = fetchNext (shiftData p s.sync.last
      (noteEvent (strobeEvent k s.seq.shift s.seq.bitCount s.sync.last p) (latchSample s.sync.last s))) := by
  simp only [strobeDone, h]

/-- What the host side of a cycle may set: STATUS, IE, the inputs and the read data. -/
structure HostSide where
  status : Status
  ie : Bool
  inputs : List CycleInput
  prdata : Word

/-- The host side of a state, and a state with another host side. -/
def hostSide (s : State) : HostSide :=
  { status := s.status, ie := s.ie, inputs := s.env.inputs, prdata := s.env.prdata }
def withHost (h : HostSide) (s : State) : State :=
  { s with
    status := h.status
    ie := h.ie
    env := { s.env with inputs := h.inputs, prdata := h.prdata } }

/-- STATUS after a sequencer edge that left state `t` and began with the given STATUS: a `finish`, which leaves no wire
event, writes its fields; else STATUS is as it was. -/
def statusAfter (st : Status) (t : State) : Status :=
  if t.seq.event = none then statusFinish t.status.ok t.status.fstage st else st

/-- What an edge of the sequencer leaves, when it begins with another host side. -/
def overHost (h : HostSide) (x : Outcome State Fault Refusal) : Outcome State Fault Refusal :=
  andThen x fun t => .next (withHost { h with status := statusAfter h.status t } t)

theorem issueFrame_withHost (ins : BitVec 2) (v : Byte) (h : HostSide) (s : State) :
    issueFrame ins v (withHost h s) = overHost h (issueFrame ins v s) := by
  unfold issueFrame decodeWire
  split
  · rfl
  · split
    · rfl
    · split <;> rfl

/-- No decision of the fetch looks at the host side. -/
theorem fetch_withHost (p : List SeqStep) (h : HostSide) (s : State) :
    fetch p (withHost h s) = overHost h (fetch p s) := by
  induction p generalizing s with
  | nil => rfl
  | cons step p ih =>
    cases step with
    | frame ins b => exact issueFrame_withHost ins b h (withTodo p s)
    | command c => simp only [fetch, issueCommand_eq]; rfl
    | poll m e => exact issueFrame_withHost _ _ h (withTodo (.pollTest m e :: p) s)
    | pollTest m e =>
      simp only [fetch, show (withHost h s).seq = s.seq from rfl]
      split
      · exact ih (recordStatus s)
      · exact issueFrame_withHost _ _ h (withTodo (.pollTest m e :: p) (recordStatus s))
    | check => exact issueFrame_withHost _ _ h (withTodo (.checkRecord :: p) s)
    | checkRecord => exact ih (recordResponse s)
    | stopIfRejected =>
      simp only [fetch, show (withHost h s).seq = s.seq from rfl]
      split
      · exact ih s
      · rfl
    | sendBlock =>
      simp only [fetch, show (withHost h s).seq = s.seq from rfl]
      split
      · rw [drawForByte_eq, drawForByte_eq]
        exact issueFrame_withHost _ _ h
          (withTodo _ (withLoop s.seq.loopI (drawsAfter s.buf (bufIndex s.seq) s.env.draws) s))
      · exact ih s
    | receiveBlock =>
      simp only [fetch, show (withHost h s).seq = s.seq from rfl]
      split
      · exact issueFrame_withHost _ _ h (withTodo _ s)
      · exact ih s
    | storeByte => exact ih (setBufByte (bufIndex s.seq) s.seq.shift s)
    | nextIndex => exact ih (bumpIndex s)
    | pulse => rfl
    | settle => rfl

/-- The end of a wire event does not look at the host side either. -/
theorem eventDone_withHost (e : Event) (h : HostSide) (s : State) :
    eventDone e (withHost h s) = overHost h (eventDone e s) := by
  cases e with
  | strobe k p =>
    have shifted : ∀ b u, shiftData p b (withHost h u) = withHost h (shiftData p b u) := by
      intro b u
      cases p <;> rfl
    simp only [eventDone]
    cases hn : nextPos k s.seq.bitCount s.sync.last p with
    | none =>
      rw [strobeDone_last (s := withHost h s) hn, strobeDone_last hn]
      refine Eq.trans (congrArg fetchNext (shifted s.sync.last (noteEvent _ (latchSample s.sync.last s)))) ?_
      exact fetch_withHost _ h _
    | some q =>
      rw [strobeDone_next (s := withHost h s) hn, strobeDone_next hn]
      cases p <;> rfl
  | pulse => exact fetch_withHost _ h (noteEvent _ s)
  | settle => exact fetch_withHost _ h (noteEvent _ s)

/-- The STATUS that the end of a wire event leaves. -/
theorem eventDone_status {e : Event} {s u : State} (h : eventDone e s = .next u) :
    u.status = statusAfter s.status u := by
  have h' := eventDone_withHost e (hostSide s) s
  rw [show withHost (hostSide s) s = s from rfl, h] at h'
  exact congrArg State.status (Host.Outcome.next.inj h')

/-- Every edge of the sequencer answers a next state. -/
theorem sequencerEdge_next (s : State) : ∃ t, sequencerEdge s = .next t := by
  have fetched : ∀ u, ∃ t, fetchNext u = .next t := fun u => by
    obtain ⟨_, _, t, h, -, -⟩ := fetch_cases u.seq.todo u
    exact ⟨t, h⟩
  have done : ∀ e, ∃ t, eventDone e s = .next t := by
    intro e
    cases e with
    | strobe k p =>
      simp only [eventDone]
      cases h : nextPos k s.seq.bitCount s.sync.last p with
      | none => rw [strobeDone_last h]; exact fetched _
      | some q => exact ⟨_, strobeDone_next h⟩
    | pulse => exact fetched _
    | settle => exact fetched _
  unfold sequencerEdge
  split
  · split
    · exact fetched s
    · next e _ =>
      unfold tickEvent
      split
      · exact ⟨_, rfl⟩
      · split <;> exact ⟨_, rfl⟩
      · split
        · exact ⟨_, rfl⟩
        · exact done e
  · exact ⟨s, rfl⟩

/-- With no operation running the sequencer does nothing. -/
theorem sequencerEdge_idle {s : State} (h : s.status.busy = false) : sequencerEdge s = .next s := by
  simp [sequencerEdge, h]

/-- What no edge of the sequencer touches: the registers the host writes, the error record, the latched operands, the
synchroniser, the inputs. -/
structure HostSideKept (s t : State) : Prop where
  registers : t.ie = s.ie ∧ t.timing = s.timing ∧ t.fpdat = s.fpdat ∧ t.ptr = s.ptr ∧ t.cur = s.cur
  error : t.status.err = s.status.err ∧ t.status.errCode = s.status.errCode
  sync : t.sync = s.sync
  outside : t.env.inputs = s.env.inputs ∧ t.env.prdata = s.env.prdata

theorem HostSideKept.refl (s : State) : HostSideKept s s := ⟨⟨rfl, rfl, rfl, rfl, rfl⟩, ⟨rfl, rfl⟩, rfl, ⟨rfl, rfl⟩⟩

theorem HostSideKept.trans {s t u : State} (h1 : HostSideKept s t) (h2 : HostSideKept t u) : HostSideKept s u where
  registers := ⟨h2.registers.1.trans h1.registers.1, h2.registers.2.1.trans h1.registers.2.1,
    h2.registers.2.2.1.trans h1.registers.2.2.1, h2.registers.2.2.2.1.trans h1.registers.2.2.2.1,
    h2.registers.2.2.2.2.trans h1.registers.2.2.2.2⟩
  error := ⟨h2.error.1.trans h1.error.1, h2.error.2.trans h1.error.2⟩
  sync := h2.sync.trans h1.sync
  outside := ⟨h2.outside.1.trans h1.outside.1, h2.outside.2.trans h1.outside.2⟩

theorem fetch_kept {p : List SeqStep} {s t : State} (h : fetch p s = .next t) : HostSideKept s t := by
  obtain ⟨u, rest, v, hf, hp, hv⟩ := fetch_cases p s
  rw [hf] at h
  obtain rfl := Host.Outcome.next.inj h
  have hu : HostSideKept s u :=
    ⟨⟨hp.host.1, hp.host.2.2.2.1, hp.host.2.2.2.2.1, hp.host.2.2.2.2.2.1, hp.host.2.2.2.2.2.2⟩,
      ⟨congrArg Status.err hp.host.2.1, congrArg Status.errCode hp.host.2.1⟩, hp.lines.2,
      ⟨hp.outside.1, hp.outside.2.2⟩⟩
  refine hu.trans ?_
  cases hv <;> exact ⟨⟨rfl, rfl, rfl, rfl, rfl⟩, ⟨rfl, rfl⟩, rfl, ⟨rfl, rfl⟩⟩

/-- A fetch leaves SAMPLE_LATCH as it is. -/
theorem fetch_sample {p : List SeqStep} {s t : State} (h : fetch p s = .next t) :
    t.seq.sampleLatch = s.seq.sampleLatch := by
  obtain ⟨u, rest, v, hf, hp, hv⟩ := fetch_cases p s
  rw [hf] at h
  obtain rfl := Host.Outcome.next.inj h
  rw [← hp.sample]
  cases hv <;> rfl

theorem shiftData_kept (p : WirePos) (b : Bool) (s : State) : HostSideKept s (shiftData p b s) := by
  cases p <;> exact ⟨⟨rfl, rfl, rfl, rfl, rfl⟩, ⟨rfl, rfl⟩, rfl, ⟨rfl, rfl⟩⟩

theorem eventDone_kept {e : Event} {s t : State} (h : eventDone e s = .next t) : HostSideKept s t := by
  have note : ∀ ev, HostSideKept s (noteEvent ev s) := fun _ => ⟨⟨rfl, rfl, rfl, rfl, rfl⟩, ⟨rfl, rfl⟩, rfl, ⟨rfl, rfl⟩⟩
  cases e with
  | strobe k p =>
    simp only [eventDone] at h
    have ht : HostSideKept s (shiftData p s.sync.last
        (noteEvent (strobeEvent k s.seq.shift s.seq.bitCount s.sync.last p) (latchSample s.sync.last s))) :=
      HostSideKept.trans (t := noteEvent (strobeEvent k s.seq.shift s.seq.bitCount s.sync.last p)
        (latchSample s.sync.last s)) ⟨⟨rfl, rfl, rfl, rfl, rfl⟩, ⟨rfl, rfl⟩, rfl, ⟨rfl, rfl⟩⟩ (shiftData_kept _ _ _)
    cases hn : nextPos k s.seq.bitCount s.sync.last p with
    | none =>
      rw [strobeDone_last hn] at h
      exact ht.trans (fetch_kept h)
    | some q =>
      rw [strobeDone_next hn] at h
      obtain rfl := Host.Outcome.next.inj h
      exact ht.trans ⟨⟨rfl, rfl, rfl, rfl, rfl⟩, ⟨rfl, rfl⟩, rfl, ⟨rfl, rfl⟩⟩
  | pulse => exact (note _).trans (fetch_kept h)
  | settle => exact (note _).trans (fetch_kept h)

/-- Every strobe leaves the last synchroniser stage in SAMPLE_LATCH (40_signal_byte.md R110). -/
theorem strobeDone_sample {k : FrameKind} {p : WirePos} {s t : State} (h : strobeDone k p s = .next t) :
    t.seq.sampleLatch = s.sync.last := by
  have shifted : ∀ u : State, (shiftData p s.sync.last u).seq.sampleLatch = u.seq.sampleLatch := by
    intro u
    cases p <;> rfl
  cases hn : nextPos k s.seq.bitCount s.sync.last p with
  | none =>
    rw [strobeDone_last hn] at h
    rw [fetch_sample h, shifted]
    rfl
  | some q =>
    rw [strobeDone_next hn] at h
    obtain rfl := Host.Outcome.next.inj h
    exact shifted _

theorem sequencerEdge_kept {s t : State} (h : sequencerEdge s = .next t) : HostSideKept s t := by
  unfold sequencerEdge at h
  split at h
  · split at h
    · exact fetch_kept h
    · unfold tickEvent at h
      split at h
      · obtain rfl := Host.Outcome.next.inj h
        exact ⟨⟨rfl, rfl, rfl, rfl, rfl⟩, ⟨rfl, rfl⟩, rfl, ⟨rfl, rfl⟩⟩
      · split at h <;> obtain rfl := Host.Outcome.next.inj h <;>
          exact ⟨⟨rfl, rfl, rfl, rfl, rfl⟩, ⟨rfl, rfl⟩, rfl, ⟨rfl, rfl⟩⟩
      · split at h
        · obtain rfl := Host.Outcome.next.inj h
          exact ⟨⟨rfl, rfl, rfl, rfl, rfl⟩, ⟨rfl, rfl⟩, rfl, ⟨rfl, rfl⟩⟩
        · exact eventDone_kept h
  · obtain rfl := Host.Outcome.next.inj h
    exact .refl s

/-- What no bus cycle touches: the synchroniser, the lines, the inputs, the trace. -/
theorem busEdge_kept {c : CycleInput} {s t : State} (h : busEdge c s = .next t) :
    t.sync = s.sync ∧ t.lines = s.lines ∧ t.env.inputs = s.env.inputs ∧ t.env.trace = s.env.trace := by
  unfold busEdge at h
  split at h
  · obtain ⟨u, hu, hc⟩ := hostWrite_cases (hostReg c.paddr) c.pwdata s
    rw [hu] at h
    obtain rfl := Host.Outcome.next.inj h
    cases hc <;> exact ⟨rfl, rfl, rfl, rfl⟩
  · split at h
    · obtain rfl := Host.Outcome.next.inj h
      generalize hr : hostRead (hostReg c.paddr) s = u
      have hc := hostRead_cases (hostReg c.paddr) s
      rw [hr] at hc
      cases hc with
      | plain _ => exact ⟨rfl, rfl, rfl, rfl⟩
      | busy _ _ => exact ⟨rfl, rfl, rfl, rfl⟩
      | idle _ _ => rw [drawForByte_eq]; exact ⟨rfl, rfl, rfl, rfl⟩
    · obtain rfl := Host.Outcome.next.inj h
      exact ⟨rfl, rfl, rfl, rfl⟩

/-- Every bus cycle answers a next state. -/
theorem busEdge_next (c : CycleInput) (s : State) : ∃ t, busEdge c s = .next t := by
  unfold busEdge
  split
  · obtain ⟨t, h, -⟩ := hostWrite_cases (hostReg c.paddr) c.pwdata s
    exact ⟨t, h⟩
  · split <;> exact ⟨_, rfl⟩

/-- A step without reset: the bus cycle, then the sequencer, then the synchroniser. -/
theorem step_run {s t : State} (hr : (inputNow s).rstN = true) (h : step s = .next t) :
    ∃ u v, busEdge (inputNow s) s = .next u ∧ sequencerEdge u = .next v ∧
      t = dropInput (syncEdge (inputNow s) s.lines v) := by
  obtain ⟨u, hu⟩ := busEdge_next (inputNow s) s
  obtain ⟨v, hv⟩ := sequencerEdge_next u
  refine ⟨u, v, hu, hv, ?_⟩
  simp only [step, clockEdge, hr, if_true, hu, hv, andThen_next] at h
  exact (Host.Outcome.next.inj h).symm

/-- The synchroniser shifts by one stage in every step without reset (10_state.md R42); its first stage takes what the
block drives, else the level given (70_reset_and_hazards.md R230). -/
theorem step_sync {s t : State} (hr : (inputNow s).rstN = true) (h : step s = .next t) :
    t.sync.last = s.sync.first ∧ t.env.inputs = s.env.inputs.tail ∧
      (s.lines.oe = true → t.sync.first = s.lines.c2d) ∧
      ∀ b, (inputNow s).c2di = some b → t.sync.first = c2dLevel s.lines b := by
  obtain ⟨u, v, hu, hv, rfl⟩ := step_run hr h
  have h1 := busEdge_kept hu
  have h2 := sequencerEdge_kept hv
  have h3 : v.sync = s.sync := h2.sync.trans h1.1
  have h4 : v.env.inputs = s.env.inputs := h2.outside.1.trans h1.2.2.1
  refine ⟨by simp [h3], by simp [h4], fun ho => ?_, fun b hb => ?_⟩
  · simp [pinLevel, c2dLevel_driven ho]
  · simp [pinLevel, hb]

end Sys2Proof.Machine
end

