-- ==== Sys2Proof/Laws/Edges.lean ====
section
/-! SUPPORT. Runs of quiet cycles: what the block does from one edge to the next while the host is silent. -/

namespace Sys2Proof.Machine

/-! ## Runs -/

theorem run_succ {n : Nat} {s t : State} (h : step s = .next t) :
    Host.Core.run core (n + 1) s = Host.Core.run core n t := by
  simp only [Host.Core.run, core]
  rw [h]

theorem run_add (m n : Nat) (s t : State) (h : Host.Core.run core m s = .next t) :
    Host.Core.run core (m + n) s = Host.Core.run core n t := by
  induction m generalizing s with
  | zero =>
    obtain rfl := Host.Outcome.next.inj h
    rw [Nat.zero_add]
  | succ m ih =>
    cases hs : step s with
    | next u =>
      rw [run_succ hs] at h
      rw [Nat.add_right_comm, run_succ hs, ih u h]
    | fault r =>
      simp only [Host.Core.run, core] at h
      rw [hs] at h
      cases h
    | refused r =>
      simp only [Host.Core.run, core] at h
      rw [hs] at h
      cases h

/-- One more step at the end of a run. -/
theorem run_step {n : Nat} {s t u : State} (h : Host.Core.run core n s = .next t) (hs : step t = .next u) :
    Host.Core.run core (n + 1) s = .next u := by
  rw [run_add n 1 s t h, run_succ hs]
  rfl

/-! ## One quiet cycle -/

/-- The edge that ends a cycle without a reset or a host access. -/
theorem step_quiet {s : State} (h : QuietCycle (inputNow s) = true) :
    step s = andThen (sequencerEdge s) fun v => .next (dropInput (syncEdge (inputNow s) s.lines v)) := by
  simp only [QuietCycle, Bool.and_eq_true, Bool.not_eq_true'] at h
  simp [step, clockEdge, busEdge, isWrite, isRead, h.1, h.2]

theorem step_tick {s : State} {e : Event} (h : QuietCycle (inputNow s) = true) (hb : s.status.busy = true)
    (he : s.seq.event = some e) :
    step s = andThen (tickEvent e s) fun v => .next (dropInput (syncEdge (inputNow s) s.lines v)) := by
  rw [step_quiet h]
  simp only [sequencerEdge, hb, if_true, he]

theorem quietFor_zero (s : State) : QuietFor 0 s = true := rfl

/-- The first of some quiet cycles; after the last given input the host is silent. -/
theorem quietFor_succ {n : Nat} {s : State} (h : QuietFor (n + 1) s = true) :
    QuietCycle (inputNow s) = true ∧ ∀ t : State, t.env.inputs = s.env.inputs.tail → QuietFor n t = true := by
  unfold QuietFor inputNow at *
  cases hi : s.env.inputs with
  | nil =>
    refine ⟨rfl, fun t ht => ?_⟩
    rw [ht]
    simp
  | cons c r =>
    rw [hi] at h
    simp only [List.take_succ_cons, List.all_cons, Bool.and_eq_true] at h
    refine ⟨h.1, fun t ht => ?_⟩
    rw [ht]
    exact h.2

theorem quietFor_le {m n : Nat} {s : State} (h : QuietFor n s = true) (hm : m ≤ n) : QuietFor m s = true := by
  unfold QuietFor at *
  rw [List.all_eq_true] at *
  intro x hx
  exact h x (by
    rw [← Nat.min_eq_left hm, ← List.take_take] at hx
    exact List.mem_of_mem_take hx)

/-- State `t` is state `s` some cycles later, within one wire event: only the phase, its counter, C2CK, the synchroniser
and the outside world have moved. -/
structure Within (ph : Phase) (count : BitVec 23) (c2ck : Bool) (s t : State) : Prop where
  lines : t.lines = { s.lines with c2ck := c2ck }
  seq : t.seq = { s.seq with phase := ph, count := count }
  host : t.ie = s.ie ∧ t.status = s.status ∧ t.result = s.result ∧ t.timing = s.timing ∧ t.fpdat = s.fpdat ∧
    t.ptr = s.ptr ∧ t.buf = s.buf ∧ t.cur = s.cur
  trace : t.env.trace = s.env.trace ∧ t.env.prdata = s.env.prdata

theorem Within.refl (s : State) : Within s.seq.phase s.seq.count s.lines.c2ck s s :=
  ⟨rfl, rfl, ⟨rfl, rfl, rfl, rfl, rfl, rfl, rfl, rfl⟩, ⟨rfl, rfl⟩⟩

theorem Within.trans {p q : Phase} {m n : BitVec 23} {a b : Bool} {s t u : State} (h1 : Within p m a s t)
    (h2 : Within q n b t u) : Within q n b s u where
  lines := by rw [h2.lines, h1.lines]
  seq := by rw [h2.seq, h1.seq]
  host := ⟨h2.host.1.trans h1.host.1, h2.host.2.1.trans h1.host.2.1, h2.host.2.2.1.trans h1.host.2.2.1,
    h2.host.2.2.2.1.trans h1.host.2.2.2.1, h2.host.2.2.2.2.1.trans h1.host.2.2.2.2.1,
    h2.host.2.2.2.2.2.1.trans h1.host.2.2.2.2.2.1, h2.host.2.2.2.2.2.2.1.trans h1.host.2.2.2.2.2.2.1,
    h2.host.2.2.2.2.2.2.2.trans h1.host.2.2.2.2.2.2.2⟩
  trace := ⟨h2.trace.1.trans h1.trace.1, h2.trace.2.trans h1.trace.2⟩

theorem within_edge (c : CycleInput) (l : Lines) (ph : Phase) (n : BitVec 23) (a : Bool) (s v : State) (h : Within ph n a s v) :
    Within ph n a s (dropInput (syncEdge c l v)) ∧
      (dropInput (syncEdge c l v)).env.inputs = v.env.inputs.tail ∧
      (dropInput (syncEdge c l v)).sync = { first := pinLevel c l v, last := v.sync.first } := by
  unfold syncEdge drawForPin
  split <;> exact ⟨⟨h.lines, h.seq, h.host, h.trace⟩, rfl, rfl⟩

/-- SETUP is one cycle; then C2CK falls. -/
theorem step_setup {s : State} {e : Event} (hq : QuietCycle (inputNow s) = true) (hb : s.status.busy = true)
    (he : s.seq.event = some e) (hp : s.seq.phase = .setup) :
    ∃ t, step s = .next t ∧ Within .low (lowCycles s.timing e) false s t ∧ t.env.inputs = s.env.inputs.tail ∧
      t.sync = { first := pinLevel (inputNow s) s.lines s, last := s.sync.first } := by
  refine ⟨_, by rw [step_tick hq hb he]; simp only [tickEvent, hp]; rfl, ?_⟩
  exact within_edge _ _ _ _ _ _ _ ⟨rfl, rfl, ⟨rfl, rfl, rfl, rfl, rfl, rfl, rfl, rfl⟩, ⟨rfl, rfl⟩⟩

/-- A LOW or HIGH phase that has more than this cycle left goes on. -/
theorem step_count {s : State} {e : Event} (hq : QuietCycle (inputNow s) = true) (hb : s.status.busy = true)
    (he : s.seq.event = some e) (hp : s.seq.phase ≠ .setup) (hc : 1 < s.seq.count) :
    ∃ t, step s = .next t ∧ Within s.seq.phase (s.seq.count - 1) s.lines.c2ck s t ∧
      t.env.inputs = s.env.inputs.tail ∧ t.sync = { first := pinLevel (inputNow s) s.lines s, last := s.sync.first } := by
  refine ⟨dropInput (syncEdge (inputNow s) s.lines (countDown s)), ?_,
    within_edge _ _ _ _ _ _ _ ⟨rfl, rfl, ⟨rfl, rfl, rfl, rfl, rfl, rfl, rfl, rfl⟩, ⟨rfl, rfl⟩⟩⟩
  rw [step_tick hq hb he]
  unfold tickEvent
  split
  · next h => exact absurd h hp
  · rw [if_pos hc, andThen_next]
  · rw [if_pos hc, andThen_next]

/-- The last cycle of the LOW phase: then C2CK rises. -/
theorem step_low_end {s : State} {e : Event} (hq : QuietCycle (inputNow s) = true) (hb : s.status.busy = true)
    (he : s.seq.event = some e) (hp : s.seq.phase = .low) (hc : ¬ 1 < s.seq.count) :
    ∃ t, step s = .next t ∧ Within .high (highCycles s.timing e) true s t ∧ t.env.inputs = s.env.inputs.tail ∧
      t.sync = { first := pinLevel (inputNow s) s.lines s, last := s.sync.first } := by
  refine ⟨_, by rw [step_tick hq hb he]; simp only [tickEvent, hp, if_neg hc]; rfl, ?_⟩
  exact within_edge _ _ _ _ _ _ _ ⟨rfl, rfl, ⟨rfl, rfl, rfl, rfl, rfl, rfl, rfl, rfl⟩, ⟨rfl, rfl⟩⟩

/-- The last cycle of the HIGH phase: the event completes. -/
theorem step_high_end {s : State} {e : Event} (hq : QuietCycle (inputNow s) = true) (hb : s.status.busy = true)
    (he : s.seq.event = some e) (hp : s.seq.phase = .high) (hc : ¬ 1 < s.seq.count) :
    step s = andThen (eventDone e s) fun v => .next (dropInput (syncEdge (inputNow s) s.lines v)) := by
  rw [step_tick hq hb he]
  simp only [tickEvent, hp, if_neg hc]

/-- Within a phase of `n` cycles, `m` cycles later, for every `m` below `n`. -/
theorem run_phase (m : Nat) (s : State) (e : Event) (hq : QuietFor m s = true) (hb : s.status.busy = true)
    (he : s.seq.event = some e) (hp : s.seq.phase ≠ .setup) (hm : m < s.seq.count.toNat) :
    ∃ t, Host.Core.run core m s = .next t ∧
      Within s.seq.phase (s.seq.count - BitVec.ofNat 23 m) s.lines.c2ck s t ∧
      t.env.inputs = s.env.inputs.drop m := by
  induction m generalizing s with
  | zero => exact ⟨s, rfl, by simpa using Within.refl s, rfl⟩
  | succ m ih =>
    obtain ⟨h1, h2⟩ := quietFor_succ hq
    have hlt := s.seq.count.isLt
    obtain ⟨t, ht, hw, hi, -⟩ := step_count h1 hb he hp (by
      rw [BitVec.lt_def]
      show 1 < _
      omega)
    have hcount : (s.seq.count - 1).toNat = s.seq.count.toNat - 1 := by
      rw [BitVec.toNat_sub]
      show (2 ^ 23 - 1 + s.seq.count.toNat) % 2 ^ 23 = _
      omega
    obtain ⟨u, hu, hv, hj⟩ := ih t (h2 t hi) (by rw [hw.host.2.1]; exact hb) (by rw [hw.seq]; exact he)
      (by rw [hw.seq]; exact hp) (by
        rw [hw.seq]
        show m < (s.seq.count - 1).toNat
        omega)
    refine ⟨u, by rw [run_succ ht, hu], ?_, by rw [hj, hi, List.drop_tail]⟩
    have hall := hw.trans hv
    have e1 : t.seq.phase = s.seq.phase := by rw [hw.seq]
    have e2 : t.seq.count = s.seq.count - 1 := by rw [hw.seq]
    have e3 : t.lines.c2ck = s.lines.c2ck := by rw [hw.lines]
    rw [e1, e2, e3] at hall
    have e4 : s.seq.count - 1 - BitVec.ofNat 23 m = s.seq.count - BitVec.ofNat 23 (m + 1) := by
      rw [BitVec.ofNat_add, show BitVec.ofNat 23 1 = 1 from rfl]
      ring
    rwa [e4] at hall

theorem quietFor_drop (m n : Nat) (s : State) (h : QuietFor (m + n) s = true) :
    ∀ t : State, t.env.inputs = s.env.inputs.drop m → QuietFor n t = true := by
  intro t ht
  unfold QuietFor at *
  rw [ht]
  rw [List.all_eq_true] at *
  intro x hx
  apply h x
  rw [List.take_add]
  exact List.mem_append_right _ hx

/-- One cycle of a phase of `n` is left after `n - 1`. -/
theorem count_left {c : BitVec 23} {n : Nat} (hc : c.toNat = n) (hn : 1 ≤ n) : c - BitVec.ofNat 23 (n - 1) = 1 := by
  apply BitVec.eq_of_toNat_eq
  have := c.isLt
  rw [BitVec.toNat_sub, BitVec.toNat_ofNat]
  show _ = 1
  omega

/-! ## A whole wire event with a LOW and a HIGH phase -/

/-- A wire event from its SETUP cycle on, with `l` cycles of LOW and `h` of HIGH: where it is after `j` cycles, for every
`j` before its end. -/
theorem run_event {s : State} {e : Event} {l h : Nat} (hb : s.status.busy = true) (he : s.seq.event = some e)
    (hp : s.seq.phase = .setup) (hc : s.lines.c2ck = true) (hl : (lowCycles s.timing e).toNat = l)
    (hh : (highCycles s.timing e).toNat = h) (hl1 : 1 ≤ l) (hh1 : 1 ≤ h) (hq : QuietFor (1 + l + h) s = true) (j : Nat)
    (hj : j < 1 + l + h) :
    ∃ v ph n, Host.Core.run core j s = .next v ∧ Within ph n (decide (j = 0 ∨ l < j)) s v ∧
      v.env.inputs = s.env.inputs.drop j ∧ (j = l + h → ph = .high ∧ ¬ 1 < n) := by
  rcases Nat.eq_zero_or_pos j with rfl | hpos
  · refine ⟨s, .setup, s.seq.count, rfl, ?_, rfl, by omega⟩
    have := Within.refl s
    rw [hp, hc] at this
    exact this
  obtain ⟨h1, h2⟩ := quietFor_succ (n := l + h) (by rw [show l + h + 1 = 1 + l + h by omega]; exact hq)
  obtain ⟨a, ha, wa, ia, -⟩ := step_setup h1 hb he hp
  have qa := h2 a ia
  have ba : a.status.busy = true := by rw [wa.host.2.1]; exact hb
  have ea : a.seq.event = some e := by rw [wa.seq]; exact he
  have pa : a.seq.phase = .low := by rw [wa.seq]
  have na : a.seq.count = lowCycles s.timing e := by rw [wa.seq]
  have ta : a.timing = s.timing := wa.host.2.2.2.1
  by_cases hjl : j ≤ l
  · obtain ⟨v, hv, wv, iv⟩ := run_phase (j - 1) a e (quietFor_le qa (by omega)) ba ea (by rw [pa]; decide)
      (by rw [na, hl]; omega)
    refine ⟨v, .low, lowCycles s.timing e - BitVec.ofNat 23 (j - 1), ?_, ?_, ?_, by omega⟩
    · rw [show j = (j - 1) + 1 by omega, run_succ ha]
      exact hv
    · rw [pa, na, show a.lines.c2ck = false by rw [wa.lines]] at wv
      rw [show decide (j = 0 ∨ l < j) = false by simp; omega]
      exact wa.trans wv
    · rw [iv, ia, List.drop_tail, show j - 1 + 1 = j by omega]
  · -- the last LOW cycle, then HIGH
    obtain ⟨b, hrb, wb, ib⟩ := run_phase (l - 1) a e (quietFor_le qa (by omega)) ba ea (by rw [pa]; decide)
      (by rw [na, hl]; omega)
    rw [pa, na, show a.lines.c2ck = false by rw [wa.lines]] at wb
    have hsb : Host.Core.run core l s = .next b := by
      rw [show l = (l - 1) + 1 by omega, run_succ ha]
      exact hrb
    have wsb := wa.trans wb
    have isb : b.env.inputs = s.env.inputs.drop l := by rw [ib, ia, List.drop_tail, show l - 1 + 1 = l by omega]
    have qb : QuietFor (h + 1) b = true := by
      have := quietFor_drop l (h + 1) s (by rw [show l + (h + 1) = 1 + l + h by omega]; exact hq)
      exact this b isb
    obtain ⟨h3, h4⟩ := quietFor_succ qb
    have cb : ¬ 1 < b.seq.count := by
      rw [wsb.seq]
      show ¬ 1 < lowCycles s.timing e - BitVec.ofNat 23 (l - 1)
      rw [count_left hl hl1]
      decide
    obtain ⟨c, hc', wc, ic, -⟩ := step_low_end h3 (by rw [wsb.host.2.1]; exact hb) (by rw [wsb.seq]; exact he)
      (by rw [wsb.seq]) cb
    have wsc := wsb.trans wc
    have tb : b.timing = s.timing := wsb.host.2.2.2.1
    rw [tb] at wsc
    obtain ⟨v, hv, wv, iv⟩ := run_phase (j - l - 1) c e (quietFor_le (h4 c ic) (by omega))
      (by rw [wsc.host.2.1]; exact hb) (by rw [wsc.seq]; exact he)
      (by rw [show c.seq.phase = .high by rw [wsc.seq]]; decide)
      (by rw [wsc.seq]; show _ < (highCycles s.timing e).toNat; rw [hh]; omega)
    refine ⟨v, .high, highCycles s.timing e - BitVec.ofNat 23 (j - l - 1), ?_, ?_, ?_, ?_⟩
    · rw [show j = l + ((j - l - 1) + 1) by omega, run_add l _ s b hsb, run_succ hc']
      exact hv
    · rw [show c.seq.phase = .high by rw [wsc.seq], show c.seq.count = highCycles s.timing e by rw [wsc.seq],
        show c.lines.c2ck = true by rw [wsc.lines]] at wv
      rw [show decide (j = 0 ∨ l < j) = true by simp; omega]
      exact wsc.trans wv
    · rw [iv, ic, isb, List.drop_tail, List.drop_drop]
      congr 1
      omega
    · intro hend
      refine ⟨rfl, ?_⟩
      rw [show j - l - 1 = h - 1 by omega, count_left hh hh1]
      decide

end Sys2Proof.Machine
end

