-- ==== Sys2Proof/Laws/PerInstr.lean ====
section
/-! SUPPORT. For every instruction: its encoding has the bits of its row of spec/opcode_table.json. -/

namespace Sys2Proof.Laws.Row

/-- An encoding as the number the opcode table's mask and match speak of. -/
def number : Encoding → Nat
  | .hostCommand w => w.toNat
  | .wireFrame ins _ => ins.toNat
  | .commandByte code => code.toNat

/-- The mask and the match of an instruction's row, copied from spec/opcode_table.json. -/
def row : Instr → Nat × Nat
  | .aw _ => (0x000000FF, 0x00000001)
  | .ar => (0x000000FF, 0x00000002)
  | .dw _ => (0x000000FF, 0x00000003)
  | .dr => (0x000000FF, 0x00000004)
  | .wfb _ _ => (0x000000FF, 0x00000008)
  | .okq => (0x000000FF, 0x00000009)
  | .cinit _ => (0x000000FF, 0x0000000A)
  | .wrb _ => (0x000000FF, 0x0000000B)
  | .rdr => (0x000000FF, 0x0000000C)
  | .reset => (0x000000FF, 0x00000010)
  | .init => (0x000000FF, 0x00000011)
  | .wsfr _ _ => (0x000000FF, 0x00000012)
  | .rsfr _ => (0x000000FF, 0x00000013)
  | .wdir _ _ => (0x000000FF, 0x00000014)
  | .rdir _ => (0x000000FF, 0x00000015)
  | .erase => (0x000000FF, 0x00000016)
  | .wblk _ _ => (0x000000FF, 0x00000017)
  | .rblk _ _ => (0x000000FF, 0x00000018)
  | .c2Dr => (0b11, 0b00)
  | .c2Dw _ => (0b11, 0b01)
  | .c2Ar => (0b11, 0b10)
  | .c2Aw _ => (0b11, 0b11)
  | .fpGetVersion => (0xFF, 0x01)
  | .fpGetDerivative => (0xFF, 0x02)
  | .fpDeviceErase => (0xFF, 0x03)
  | .fpBlockRead => (0xFF, 0x06)
  | .fpBlockWrite => (0xFF, 0x07)
  | .fpPageErase => (0xFF, 0x08)
  | .fpDirectRead => (0xFF, 0x09)
  | .fpDirectWrite => (0xFF, 0x0A)
  | .fpIndirectRead => (0xFF, 0x0B)
  | .fpIndirectWrite => (0xFF, 0x0C)

/-- The fixed bits of the instruction's row stand in its encoding. -/
def Statement (i : Instr) : Prop := number (encode i) &&& (row i).1 = (row i).2

/-- The fixed bits of a CMD word are its OP field. -/
theorem number_cmdWord (op b : Byte) (w : Half) : number (.hostCommand (cmdWord op b w)) &&& 0x000000FF = op.toNat := by
  have h := congrArg BitVec.toNat (opField_cmdWord op b w)
  simp only [opField, BitVec.extractLsb'_toNat, Nat.shiftRight_zero] at h
  rw [← h]
  exact Nat.and_two_pow_sub_one_eq_mod _ 8

theorem aw (a : Byte) : Statement (.aw a) := number_cmdWord _ _ _
theorem ar : Statement .ar := number_cmdWord _ _ _
theorem dw (v : Byte) : Statement (.dw v) := number_cmdWord _ _ _
theorem dr : Statement .dr := number_cmdWord _ _ _
theorem wfb (m : Byte) (e : Bool) : Statement (.wfb m e) := number_cmdWord _ _ _
theorem okq : Statement .okq := number_cmdWord _ _ _
theorem cinit (c : Byte) : Statement (.cinit c) := number_cmdWord _ _ _
theorem wrb (v : Byte) : Statement (.wrb v) := number_cmdWord _ _ _
theorem rdr : Statement .rdr := number_cmdWord _ _ _
theorem reset : Statement .reset := number_cmdWord _ _ _
theorem init : Statement .init := number_cmdWord _ _ _
theorem wsfr (a : Byte) (v : Byte) : Statement (.wsfr a v) := number_cmdWord _ _ _
theorem rsfr (a : Byte) : Statement (.rsfr a) := number_cmdWord _ _ _
theorem wdir (a : Byte) (v : Byte) : Statement (.wdir a v) := number_cmdWord _ _ _
theorem rdir (a : Byte) : Statement (.rdir a) := number_cmdWord _ _ _
theorem erase : Statement .erase := number_cmdWord _ _ _
theorem wblk (fa : Half) (n : Byte) : Statement (.wblk fa n) := number_cmdWord _ _ _
theorem rblk (fa : Half) (n : Byte) : Statement (.rblk fa n) := number_cmdWord _ _ _
theorem c2Dr : Statement .c2Dr := rfl
theorem c2Dw (v : Byte) : Statement (.c2Dw v) := by show 1 &&& 3 = 1; rfl
theorem c2Ar : Statement .c2Ar := rfl
theorem c2Aw (a : Byte) : Statement (.c2Aw a) := by show 3 &&& 3 = 3; rfl
theorem fpGetVersion : Statement .fpGetVersion := rfl
theorem fpGetDerivative : Statement .fpGetDerivative := rfl
theorem fpDeviceErase : Statement .fpDeviceErase := rfl
theorem fpBlockRead : Statement .fpBlockRead := rfl
theorem fpBlockWrite : Statement .fpBlockWrite := rfl
theorem fpPageErase : Statement .fpPageErase := rfl
theorem fpDirectRead : Statement .fpDirectRead := rfl
theorem fpDirectWrite : Statement .fpDirectWrite := rfl
theorem fpIndirectRead : Statement .fpIndirectRead := rfl
theorem fpIndirectWrite : Statement .fpIndirectWrite := rfl

end Sys2Proof.Laws.Row
end

