-- ==== Sys2Proof/Laws/Responsive.lean ====
section
/-! SUPPORT. An operation under a sequence of sampled levels `σ`, wire event by wire event: how far each strobe, frame,
poll and byte loop takes it when the target is responsive (70_reset_and_hazards.md R235). -/

namespace Sys2Proof.Machine

variable {i : Instr} {s : State} {σ : Nat → Bool}

/-- One more wire event. -/
theorem operate_succ {n : Nat} {t : State} (h : operate i (samplesUpTo σ n) s = .next t) :
    operate i (samplesUpTo σ (n + 1)) s = completeEvent (σ n) t := by
  have e : samplesUpTo σ (n + 1) = samplesUpTo σ n ++ [σ n] := by simp [samplesUpTo, List.range_succ]
  unfold operate at *
  cases h1 : exec i s with
  | next a =>
    rw [h1, andThen_next] at h
    rw [andThen_next]
    cases h2 : fetchNext a with
    | next b =>
      rw [h2, andThen_next] at h
      rw [andThen_next, e, runEvents_append, h, andThen_next, runEvents_cons]
      exact andThen_right _
    | fault r => cases r
    | refused r => rw [h2] at h; cases h
  | fault r => cases r
  | refused r => rw [h1] at h; cases h

/-! ## Strobes -/

/-- A strobe before STOP takes one wire event. -/
theorem operate_strobe {n : Nat} {k : FrameKind} {p q : WirePos} {r : State} {v : Byte} {bit : BitVec 3}
    {c2d last latch : Bool} {tr : List WireEvent}
    (h : operate i (samplesUpTo σ n) s = .next (inStrobe k p r v bit c2d last latch tr))
    (hn : nextPos k bit (heard k v bit p (σ n)) p = some q) :
    ∃ v c2d last latch tr, operate i (samplesUpTo σ (n + 1)) s =
      .next (inStrobe k q r v (bitAfter p bit) c2d last latch tr) := by
  rw [operate_succ h, completeEvent_inStrobe hn]
  exact ⟨_, _, _, _, _, rfl⟩

/-- The operation has come to the fetch of `rest` in state `r'`, from a state `r` with the same loop index and size. -/
structure Reaches (i : Instr) (s : State) (σ : Nat → Bool) (rest : List SeqStep) (r : State) (n : Nat) (r' : State) :
    Prop where
  run : operate i (samplesUpTo σ n) s = fetch rest r'
  lines : IdleLines r'.lines = true
  loop : r'.seq.loopI = r.seq.loopI ∧ r'.seq.loopN = r.seq.loopN

theorem Reaches.trans {p rest : List SeqStep} {r r1 r2 : State} {n1 n2 : Nat} (h1 : Reaches i s σ p r n1 r1)
    (h2 : Reaches i s σ rest r1 n2 r2) : Reaches i s σ rest r n2 r2 :=
  ⟨h2.run, h2.lines, h2.loop.1.trans h1.loop.1, h2.loop.2.trans h1.loop.2⟩

/-- STOP takes one wire event, and the sequencer goes on with the byte of the frame in SHIFT. -/
theorem operate_stop {n : Nat} {k : FrameKind} {r : State} {rest : List SeqStep} {v : Byte} {c2d last latch : Bool}
    {tr : List WireEvent}
    (h : operate i (samplesUpTo σ n) s = .next (inStrobe k .stop (withTodo rest r) v 0 c2d last latch tr)) :
    ∃ r', Reaches i s σ rest r (n + 1) r' ∧ r'.seq.shift = v :=
  ⟨_, ⟨(operate_succ h).trans (completeEvent_stop ..), rfl, rfl, rfl⟩, rfl⟩

/-- A WAIT loop of a responsive target ends (40_signal_byte.md R120). -/
theorem operate_wait (hR : TargetResponsive i s σ) {n : Nat} {k : FrameKind} {r : State} {v : Byte}
    {c2d last latch : Bool} {tr : List WireEvent}
    (h : operate i (samplesUpTo σ n) s = .next (inStrobe k .wait r v 0 c2d last latch tr)) :
    ∃ n c2d last latch tr, operate i (samplesUpTo σ n) s =
      .next (inStrobe k (if k = .dataWrite then .stop else .dataIn) r v 0 c2d last latch tr) := by
  obtain ⟨m, hm, hs⟩ := hR.wait n _ k h rfl
  obtain ⟨d, rfl⟩ := Nat.exists_eq_add_of_le hm
  have ends : ∀ {n last latch tr},
      operate i (samplesUpTo σ n) s = .next (inStrobe k .wait r v 0 c2d last latch tr) → σ n = true →
      ∃ n c2d last latch tr, operate i (samplesUpTo σ n) s =
        .next (inStrobe k (if k = .dataWrite then .stop else .dataIn) r v 0 c2d last latch tr) := by
    intro n last latch tr h hb
    refine ⟨n + 1, ?_⟩
    rw [operate_succ h, completeEvent_inStrobe (q := if k = .dataWrite then .stop else .dataIn)
      (by show nextPos _ _ (σ n) _ = _; rw [hb]; rfl)]
    exact ⟨_, _, _, _, rfl⟩
  induction d generalizing n last latch tr with
  | zero => exact ends h hs
  | succ d ih =>
    cases hb : σ n with
    | true => exact ends h hb
    | false =>
      have h' := operate_succ h
      rw [completeEvent_inStrobe (q := .wait) (by show nextPos _ _ (σ n) _ = _; rw [hb]; rfl)] at h'
      exact ih h' (by omega) (by rw [← hs]; congr 1; omega)

/-- The eight strobes of a byte received: where each of them is, and STOP after them. -/
theorem operate_readByte {n : Nat} {k : FrameKind} {r : State} {v : Byte} {c2d last latch : Bool}
    {tr : List WireEvent}
    (h : operate i (samplesUpTo σ n) s = .next (inStrobe k .dataIn r v 0 c2d last latch tr)) :
    (∀ j < 8, ∃ v b c2d last latch tr, operate i (samplesUpTo σ (n + j)) s =
        .next (inStrobe k .dataIn r v b c2d last latch tr)) ∧
      ∃ v c2d last latch tr, operate i (samplesUpTo σ (n + 8)) s =
        .next (inStrobe k .stop r v 0 c2d last latch tr) := by
  obtain ⟨_, _, _, _, _, h1⟩ := operate_strobe (q := .dataIn) h rfl
  obtain ⟨_, _, _, _, _, h2⟩ := operate_strobe (q := .dataIn) h1 rfl
  obtain ⟨_, _, _, _, _, h3⟩ := operate_strobe (q := .dataIn) h2 rfl
  obtain ⟨_, _, _, _, _, h4⟩ := operate_strobe (q := .dataIn) h3 rfl
  obtain ⟨_, _, _, _, _, h5⟩ := operate_strobe (q := .dataIn) h4 rfl
  obtain ⟨_, _, _, _, _, h6⟩ := operate_strobe (q := .dataIn) h5 rfl
  obtain ⟨_, _, _, _, _, h7⟩ := operate_strobe (q := .dataIn) h6 rfl
  obtain ⟨_, _, _, _, _, h8⟩ := operate_strobe (q := .stop) h7 rfl
  refine ⟨fun j hj => ?_, _, _, _, _, _, h8⟩
  interval_cases j
  · exact ⟨_, _, _, _, _, _, h⟩
  · exact ⟨_, _, _, _, _, _, h1⟩
  · exact ⟨_, _, _, _, _, _, h2⟩
  · exact ⟨_, _, _, _, _, _, h3⟩
  · exact ⟨_, _, _, _, _, _, h4⟩
  · exact ⟨_, _, _, _, _, _, h5⟩
  · exact ⟨_, _, _, _, _, _, h6⟩
  · exact ⟨_, _, _, _, _, _, h7⟩

/-- The eight strobes of a byte sent. -/
theorem operate_writeByte {n : Nat} {k : FrameKind} {r : State} {v : Byte} {c2d last latch : Bool}
    {tr : List WireEvent}
    (h : operate i (samplesUpTo σ n) s = .next (inStrobe k .dataOut r v 0 c2d last latch tr)) :
    ∃ v c2d last latch tr, operate i (samplesUpTo σ (n + 8)) s =
      .next (inStrobe k (if k = .dataWrite then .wait else .stop) r v 0 c2d last latch tr) := by
  obtain ⟨_, _, _, _, _, h1⟩ := operate_strobe (q := .dataOut) h rfl
  obtain ⟨_, _, _, _, _, h2⟩ := operate_strobe (q := .dataOut) h1 rfl
  obtain ⟨_, _, _, _, _, h3⟩ := operate_strobe (q := .dataOut) h2 rfl
  obtain ⟨_, _, _, _, _, h4⟩ := operate_strobe (q := .dataOut) h3 rfl
  obtain ⟨_, _, _, _, _, h5⟩ := operate_strobe (q := .dataOut) h4 rfl
  obtain ⟨_, _, _, _, _, h6⟩ := operate_strobe (q := .dataOut) h5 rfl
  obtain ⟨_, _, _, _, _, h7⟩ := operate_strobe (q := .dataOut) h6 rfl
  obtain ⟨_, _, _, _, _, h8⟩ :=
    operate_strobe (q := if k = .dataWrite then .wait else .stop) h7 rfl
  exact ⟨_, _, _, _, _, h8⟩

/-- The START strobe and the two strobes of the instruction code: where each of them is, and what follows them. -/
theorem operate_header {n : Nat} {k : FrameKind} {v : Byte} {r : State}
    (h : operate i (samplesUpTo σ n) s = .next (beginFrame k v r)) :
    (∃ v c2d last latch tr, operate i (samplesUpTo σ (n + 1)) s =
        .next (inStrobe k .ins0 r v 0 c2d last latch tr)) ∧
      (∃ v c2d last latch tr, operate i (samplesUpTo σ (n + 2)) s =
        .next (inStrobe k .ins1 r v 0 c2d last latch tr)) ∧
      ∃ v c2d last latch tr, operate i (samplesUpTo σ (n + 3)) s =
        .next (inStrobe k (afterHeader k) r v 0 c2d last latch tr) := by
  rw [beginFrame_eq] at h
  obtain ⟨_, _, _, _, _, h1⟩ := operate_strobe (q := .ins0) h rfl
  obtain ⟨_, _, _, _, _, h2⟩ := operate_strobe (q := .ins1) h1 rfl
  obtain ⟨_, _, _, _, _, h3⟩ := operate_strobe (q := afterHeader k) h2 rfl
  exact ⟨⟨_, _, _, _, _, h1⟩, ⟨_, _, _, _, _, h2⟩, _, _, _, _, _, h3⟩

/-! ## Frames and helpers -/

/-- A frame that has begun ends. -/
theorem reaches_frame (hR : TargetResponsive i s σ) {n : Nat} {k : FrameKind} {v : Byte} {rest : List SeqStep}
    {r : State} (h : operate i (samplesUpTo σ n) s = .next (beginFrame k v (withTodo rest r))) :
    ∃ n' r', Reaches i s σ rest r n' r' := by
  obtain ⟨-, -, _, _, _, _, _, h3⟩ := operate_header h
  cases k with
  | addressWrite =>
    obtain ⟨_, _, _, _, _, h4⟩ := operate_writeByte h3
    exact ⟨_, (operate_stop h4).imp fun _ h => h.1⟩
  | addressRead =>
    obtain ⟨-, _, _, _, _, _, h4⟩ := operate_readByte h3
    exact ⟨_, (operate_stop h4).imp fun _ h => h.1⟩
  | dataWrite =>
    obtain ⟨_, _, _, _, _, h4⟩ := operate_strobe (q := .rsv1) h3 rfl
    obtain ⟨_, _, _, _, _, h5⟩ := operate_strobe (q := .dataOut) h4 rfl
    obtain ⟨_, _, _, _, _, h6⟩ := operate_writeByte h5
    obtain ⟨_, _, _, _, _, h7⟩ := operate_wait hR h6
    exact ⟨_, (operate_stop h7).imp fun _ h => h.1⟩
  | dataRead =>
    obtain ⟨_, _, _, _, _, h4⟩ := operate_strobe (q := .rsv1) h3 rfl
    obtain ⟨_, _, _, _, _, h5⟩ := operate_strobe (q := .wait) h4 rfl
    obtain ⟨_, _, _, _, _, h6⟩ := operate_wait hR h5
    obtain ⟨-, _, _, _, _, _, h7⟩ := operate_readByte h6
    exact ⟨_, (operate_stop h7).imp fun _ h => h.1⟩

/-- The address reads of a `wait_for_bit` end when one of them, `d` events on, meets the condition
(42_status_polling.md R140). -/
theorem reaches_pollEnd {n d : Nat} {r u : State} {m : Byte} {e : Bool} {rest : List SeqStep}
    (h : operate i (samplesUpTo σ n) s = .next (beginFrame .addressRead 0 (withTodo (.pollTest m e :: rest) r)))
    (hu : After i s σ (n + d) u) (hev : u.seq.event = some (.strobe .addressRead .stop))
    (hmet : pollMet m e u.seq.shift = true) : ∃ n' r', Reaches i s σ rest r n' r' := by
  induction d using Nat.strongRecOn generalizing n r with
  | ind d ih =>
    obtain ⟨⟨_, _, _, _, _, h1⟩, ⟨_, _, _, _, _, h2⟩, _, _, _, _, _, h3⟩ := operate_header h
    obtain ⟨hj, _, _, _, _, _, h4⟩ := operate_readByte h3
    obtain ⟨r', h5, hshift⟩ := operate_stop h4
    have same : ∀ {t}, operate i (samplesUpTo σ (n + d)) s = .next t → u = t := fun ht =>
      Host.Outcome.next.inj (Eq.trans hu.symm ht)
    by_cases ht : pollMet m e r'.seq.shift = true
    · refine ⟨_, recordStatus r', h5.run.trans ?_, h5.lines, h5.loop⟩
      simp only [fetch, ht, if_true]
    · -- the address read that meets the condition is a later one
      have hd : 12 ≤ d := by
        by_contra hlt
        have early : ∀ {p v b c2d last latch tr}, p ≠ .stop → operate i (samplesUpTo σ (n + d)) s =
            .next (inStrobe .addressRead p (withTodo (.pollTest m e :: rest) r) v b c2d last latch tr) → False := by
          intro p v b c2d last latch tr hp ho
          rw [same ho] at hev
          have : some (Event.strobe .addressRead p) = some (.strobe .addressRead .stop) := hev
          exact hp (by simpa using this)
        rcases (by omega : d = 0 ∨ d = 1 ∨ d = 2 ∨ d = 11 ∨ (3 ≤ d ∧ d < 11)) with rfl | rfl | rfl | rfl | hd
        · rw [beginFrame_eq] at h
          exact early (by decide) h
        · exact early (by decide) h1
        · exact early (by decide) h2
        · obtain rfl := same h4
          exact ht (by rw [hshift]; exact hmet)
        · obtain ⟨_, _, _, _, _, _, h6⟩ := hj (d - 3) (by omega)
          rw [show n + 3 + (d - 3) = n + d by omega] at h6
          exact early (by decide) h6
      have h6 : operate i (samplesUpTo σ (n + 12)) s =
          .next (beginFrame .addressRead 0 (withTodo (.pollTest m e :: rest) (recordStatus r'))) := by
        refine h5.run.trans ?_
        simp only [fetch, ht]
        rfl
      obtain ⟨n', r2, h7⟩ := ih (d - 12) (by omega) h6 (by rw [show n + 12 + (d - 12) = n + d by omega]; exact hu)
      exact ⟨n', r2, h7.run, h7.lines, h7.loop.1.trans h5.loop.1, h7.loop.2.trans h5.loop.2⟩

/-- A `wait_for_bit` whose address read has begun ends when the target is responsive. -/
theorem reaches_pollRead (hR : TargetResponsive i s σ) {n : Nat} {r : State} {m : Byte} {e : Bool}
    {rest : List SeqStep}
    (h : operate i (samplesUpTo σ n) s = .next (beginFrame .addressRead 0 (withTodo (.pollTest m e :: rest) r))) :
    ∃ n' r', Reaches i s σ rest r n' r' := by
  obtain ⟨M, u, hM, hu, hev, -, hmet⟩ := hR.poll n _ m e rest h rfl rfl
  obtain ⟨d, rfl⟩ := Nat.exists_eq_add_of_le hM
  exact reaches_pollEnd h hu hev hmet

theorem reaches_frameStep (hR : TargetResponsive i s σ) {n : Nat} {ins : BitVec 2} {b : Byte} {rest : List SeqStep}
    {r : State} (h : operate i (samplesUpTo σ n) s = fetch (.frame ins b :: rest) r) :
    ∃ n' r', Reaches i s σ rest r n' r' := by
  obtain ⟨k, w, hk⟩ := issueFrame_begins ins b (withTodo rest r)
  exact reaches_frame hR (h.trans hk)

theorem reaches_poll (hR : TargetResponsive i s σ) {n : Nat} {m : Byte} {e : Bool} {rest : List SeqStep} {r : State}
    (h : operate i (samplesUpTo σ n) s = fetch (.poll m e :: rest) r) : ∃ n' r', Reaches i s σ rest r n' r' :=
  reaches_pollRead hR h

theorem reaches_check (hR : TargetResponsive i s σ) {n : Nat} {rest : List SeqStep} {r : State}
    (h : operate i (samplesUpTo σ n) s = fetch (.check :: rest) r) : ∃ n' r', Reaches i s σ rest r n' r' := by
  obtain ⟨n', r', h'⟩ := reaches_frame (k := .dataRead) (v := 0) (rest := .checkRecord :: rest) (r := r) hR h
  exact ⟨n', recordResponse r', h'.run, h'.lines, h'.loop⟩

/-- `command_init(c)` ends (42_status_polling.md R148). -/
theorem reaches_command (hR : TargetResponsive i s σ) {n : Nat} {c : Byte} {rest : List SeqStep} {r : State}
    (h : operate i (samplesUpTo σ n) s = fetch (.command c :: rest) r) : ∃ n' r', Reaches i s σ rest r n' r' := by
  have h0 : operate i (samplesUpTo σ n) s =
      .next (beginFrame .addressWrite r.fpdat (withTodo (commandRest c ++ rest) r)) := h.trans (issueCommand_eq c _)
  obtain ⟨_, _, h1⟩ := reaches_frame hR h0
  obtain ⟨_, _, h2⟩ := reaches_frameStep hR h1.run
  obtain ⟨_, _, h3⟩ := reaches_poll hR h2.run
  obtain ⟨_, _, h4⟩ := reaches_poll hR h3.run
  obtain ⟨_, _, h5⟩ := reaches_check hR h4.run
  exact ⟨_, _, (((h1.trans h2).trans h3).trans h4).trans h5⟩

theorem reaches_pulse {n : Nat} {rest : List SeqStep} {r : State}
    (h : operate i (samplesUpTo σ n) s = fetch (.pulse :: rest) r) : ∃ n' r', Reaches i s σ rest r n' r' :=
  ⟨n + 1, _, operate_succ (t := beginPulse (withTodo rest r)) h, rfl, rfl, rfl⟩

theorem reaches_settle {n : Nat} {rest : List SeqStep} {r : State}
    (h : operate i (samplesUpTo σ n) s = fetch (.settle :: rest) r) : ∃ n' r', Reaches i s σ rest r n' r' :=
  ⟨n + 1, _, operate_succ (t := beginSettle (withTodo rest r)) h, rfl, rfl, rfl⟩

/-! ## The byte loops -/

theorem bumpIndex_toNat {r : State} (h : r.seq.loopI < r.seq.loopN) (hn : r.seq.loopN.toNat ≤ Config.bufSize) :
    (r.seq.loopI + 1).toNat = r.seq.loopI.toNat + 1 := by
  rw [BitVec.lt_def] at h
  simp only [Config.bufSize] at hn
  rw [BitVec.toNat_add]
  show (_ + 1) % 512 = _
  omega

/-- The byte loop of WBLK ends, `d` bytes before its size at the latest (43_flash_programming.md R169). -/
theorem reaches_sendBlock (hR : TargetResponsive i s σ) (d : Nat) {n : Nat} {rest : List SeqStep} {r : State}
    (hl : IdleLines r.lines = true) (hN : r.seq.loopN.toNat ≤ Config.bufSize)
    (hd : r.seq.loopN.toNat - r.seq.loopI.toNat ≤ d)
    (h : operate i (samplesUpTo σ n) s = fetch (.sendBlock :: rest) r) :
    ∃ n' r', operate i (samplesUpTo σ n') s = fetch rest r' ∧ IdleLines r'.lines = true ∧
      r'.seq.loopN = r.seq.loopN := by
  by_cases hlt : r.seq.loopI < r.seq.loopN
  · induction d generalizing n r with
    | zero => rw [BitVec.lt_def] at hlt; omega
    | succ d ih =>
      obtain ⟨k, w, hk⟩ := issueFrame_begins Config.insDataWrite (bufByte r (bufIndex r.seq))
        (withTodo (.poll Config.maskInputBusy false :: .nextIndex :: .sendBlock :: rest)
          (drawForByte (bufIndex r.seq) r))
      have h0 : operate i (samplesUpTo σ n) s = .next (beginFrame k w
          (withTodo (.poll Config.maskInputBusy false :: .nextIndex :: .sendBlock :: rest)
            (drawForByte (bufIndex r.seq) r))) := by
        rw [h, ← hk]
        simp only [fetch, hlt, if_true]
      obtain ⟨_, _, h1⟩ := reaches_frame hR h0
      obtain ⟨n2, r2, h2⟩ := reaches_poll hR h1.run
      have h3 := h1.trans h2
      rw [drawForByte_eq] at h3
      have eI : r2.seq.loopI = r.seq.loopI := h3.loop.1
      have eN : r2.seq.loopN = r.seq.loopN := h3.loop.2
      have eB : (bumpIndex r2).seq.loopI.toNat = r.seq.loopI.toNat + 1 := by
        show (r2.seq.loopI + 1).toNat = _
        rw [eI, bumpIndex_toNat hlt hN]
      by_cases hlt2 : (bumpIndex r2).seq.loopI < (bumpIndex r2).seq.loopN
      · obtain ⟨n4, r4, h4, h5, h6⟩ := ih (n := n2) (r := bumpIndex r2) h3.lines
          (by show r2.seq.loopN.toNat ≤ _; rw [eN]; exact hN)
          (by rw [eB]; show r2.seq.loopN.toNat - _ ≤ _; rw [eN]; omega) h3.run hlt2
        exact ⟨n4, r4, h4, h5, h6.trans eN⟩
      · refine ⟨n2, bumpIndex r2, h3.run.trans ?_, h3.lines, eN⟩
        show fetch (.sendBlock :: rest) (bumpIndex r2) = _
        simp only [fetch, hlt2, if_false]
  · exact ⟨n, r, h.trans (by simp only [fetch, hlt, if_false]), hl, rfl⟩

/-- The byte loop of RBLK ends, `d` bytes before its size at the latest (43_flash_programming.md R170). -/
theorem reaches_receiveBlock (hR : TargetResponsive i s σ) (d : Nat) {n : Nat} {rest : List SeqStep} {r : State}
    (hl : IdleLines r.lines = true) (hN : r.seq.loopN.toNat ≤ Config.bufSize)
    (hd : r.seq.loopN.toNat - r.seq.loopI.toNat ≤ d)
    (h : operate i (samplesUpTo σ n) s = fetch (.receiveBlock :: rest) r) :
    ∃ n' r', operate i (samplesUpTo σ n') s = fetch rest r' ∧ IdleLines r'.lines = true ∧
      r'.seq.loopN = r.seq.loopN := by
  by_cases hlt : r.seq.loopI < r.seq.loopN
  · induction d generalizing n r with
    | zero => rw [BitVec.lt_def] at hlt; omega
    | succ d ih =>
      have h0 : operate i (samplesUpTo σ n) s = .next (beginFrame .addressRead 0
          (withTodo (.pollTest Config.maskOutputReady true :: dataReadStep :: .storeByte :: .nextIndex ::
            .receiveBlock :: rest) r)) := by
        refine h.trans ?_
        simp only [fetch, hlt, if_true]
        rfl
      obtain ⟨_, _, h1⟩ := reaches_pollRead hR h0
      obtain ⟨n2, r2, h2⟩ := reaches_frameStep hR h1.run
      have h3 := h1.trans h2
      let r3 := bumpIndex (setBufByte (bufIndex r2.seq) r2.seq.shift r2)
      have eN : r3.seq.loopN = r.seq.loopN := h3.loop.2
      have eB : r3.seq.loopI.toNat = r.seq.loopI.toNat + 1 := by
        show (r2.seq.loopI + 1).toNat = _
        rw [h3.loop.1, bumpIndex_toNat hlt hN]
      by_cases hlt2 : r3.seq.loopI < r3.seq.loopN
      · obtain ⟨n4, r4, h4, h5, h6⟩ := ih (n := n2) (r := r3) h3.lines (by rw [eN]; exact hN)
          (by rw [eB, eN]; omega) h3.run hlt2
        exact ⟨n4, r4, h4, h5, h6.trans eN⟩
      · refine ⟨n2, r3, h3.run.trans ?_, h3.lines, eN⟩
        show fetch (.receiveBlock :: rest) r3 = _
        simp only [fetch, hlt2, if_false]
  · exact ⟨n, r, h.trans (by simp only [fetch, hlt, if_false]), hl, rfl⟩

end Sys2Proof.Machine
end

