-- ==== Sys2Proof/Tests/Slice0.lean ====
section
/-! SUPPORT. Tests: decoding of words written out from the spec, one-step tests with expected results from
95_test_vectors.md (the vector is named at each), and for every obligation with hypotheses a concrete state and operands
that meet all of them. -/

namespace Sys2Proof.Tests

open Sys2Proof.Machine

/-! ## Well-formedness -/

/-- WFB with mask 0x00 and expected bit 1 is ill formed (30_encoding.md R92); its three neighbours are not. -/
theorem test_wellFormed_refuses_wfb : WellFormed (.wfb 0x00 true) = false := by decide
theorem test_wellFormed_wfb_neighbours :
    WellFormed (.wfb 0x00 false) = true ∧ WellFormed (.wfb 0x01 true) = true ∧ WellFormed (.wfb 0x80 true) = true := by
  decide

/-! ## Decoding: words of 95_test_vectors.md, and of the tables of 30_encoding.md -/

/-- V-B3 -/
theorem test_decode_aw : decodeCmd 0x0000B401 = .ok (.aw 0xB4) := by decide
/-- V-B4 -/
theorem test_decode_ar : decodeCmd 0x00000002 = .ok (.ar) := by decide
/-- V-B6 -/
theorem test_decode_dw : decodeCmd 0x0000FF03 = .ok (.dw 0xFF) := by decide
/-- V-B7 -/
theorem test_decode_dr : decodeCmd 0x00000004 = .ok (.dr) := by decide
/-- V-C5 -/
theorem test_decode_wfb : decodeCmd 0x00018008 = .ok (.wfb 0x80 true) := by decide
/-- V-C7 -/
theorem test_decode_okq : decodeCmd 0x00000009 = .ok (.okq) := by decide
/-- V-C14 -/
theorem test_decode_cinit : decodeCmd 0x0000030A = .ok (.cinit 0x03) := by decide
/-- V-C11 -/
theorem test_decode_wrb : decodeCmd 0x0000A50B = .ok (.wrb 0xA5) := by decide
/-- V-C13 -/
theorem test_decode_rdr : decodeCmd 0x0000000C = .ok (.rdr) := by decide
/-- V-D1 -/
theorem test_decode_reset : decodeCmd 0x00000010 = .ok (.reset) := by decide
/-- V-D2 -/
theorem test_decode_init : decodeCmd 0x00000011 = .ok (.init) := by decide
/-- V-D3 -/
theorem test_decode_wsfr : decodeCmd 0x008FB212 = .ok (.wsfr 0xB2 0x8F) := by decide
/-- V-D5 -/
theorem test_decode_rsfr : decodeCmd 0x00000113 = .ok (.rsfr 0x01) := by decide
/-- V-D6 -/
theorem test_decode_wdir : decodeCmd 0x00558014 = .ok (.wdir 0x80 0x55) := by decide
/-- V-D8 -/
theorem test_decode_rdir : decodeCmd 0x00008015 = .ok (.rdir 0x80) := by decide
/-- V-D11 -/
theorem test_decode_erase : decodeCmd 0x00000016 = .ok (.erase) := by decide
/-- V-D14 -/
theorem test_decode_wblk : decodeCmd 0x12340117 = .ok (.wblk 0x1234 0x01) := by decide
/-- V-D17 -/
theorem test_decode_rblk : decodeCmd 0x01000218 = .ok (.rblk 0x0100 0x02) := by decide

/-- The codes of 30_encoding.md R82, bit 1 then bit 0. -/
theorem test_decode_c2Dr : decodeWire 0b00 0x5A = .c2Dr := by decide
theorem test_decode_c2Dw : decodeWire 0b01 0x5A = .c2Dw 0x5A := by decide
theorem test_decode_c2Ar : decodeWire 0b10 0x5A = .c2Ar := by decide
theorem test_decode_c2Aw : decodeWire 0b11 0x5A = .c2Aw 0x5A := by decide

/-- The codes of 30_encoding.md R95. -/
theorem test_decode_commandCodes :
    decodeCommand 0x01 = .ok .fpGetVersion ∧ decodeCommand 0x02 = .ok .fpGetDerivative ∧
      decodeCommand 0x03 = .ok .fpDeviceErase ∧ decodeCommand 0x06 = .ok .fpBlockRead ∧
      decodeCommand 0x07 = .ok .fpBlockWrite ∧ decodeCommand 0x08 = .ok .fpPageErase ∧
      decodeCommand 0x09 = .ok .fpDirectRead ∧ decodeCommand 0x0A = .ok .fpDirectWrite ∧
      decodeCommand 0x0B = .ok .fpIndirectRead ∧ decodeCommand 0x0C = .ok .fpIndirectWrite := by decide

/-- The gaps of the table of command codes. -/
theorem test_decode_unlistedCommands :
    decodeCommand 0x00 = .error .unlistedCommand ∧ decodeCommand 0x04 = .error .unlistedCommand ∧
      decodeCommand 0x05 = .error .unlistedCommand ∧ decodeCommand 0x0D = .error .unlistedCommand := by decide

/-- V-E11, V-E12, V-E17: illegal OP values, the ends of every gap of the opcode map. -/
theorem test_decode_illegalOps :
    decodeCmd 0x00000000 = .error .illegalOp ∧ decodeCmd 0x00000005 = .error .illegalOp ∧
      decodeCmd 0x00000007 = .error .illegalOp ∧ decodeCmd 0x0000000D = .error .illegalOp ∧
      decodeCmd 0x0000000F = .error .illegalOp ∧ decodeCmd 0x00000019 = .error .illegalOp ∧
      decodeCmd 0x00000080 = .error .illegalOp ∧ decodeCmd 0x000000FF = .error .illegalOp ∧
      decodeCmd 0x12345678 = .error .illegalOp := by decide

/-- V-C6: WFB 0x00, 1. -/
theorem test_decode_illegalOperand : decodeCmd 0x00010008 = .error .illegalOperand := by decide

/-- Words of the opcode table: a CMD row, a wire row, a command-code row, and a number that is no row's. -/
theorem test_decodeTableWord :
    decodeTableWord 32 0x00558014 = some (.wdir 0x80 0x55) ∧ decodeTableWord 8 0x17 = some (.wblk 0x0000 0x00) ∧
      decodeTableWord 2 0b11 = some (.c2Aw 0x00) ∧ decodeTableWord 8 0x07 = some .fpBlockWrite ∧
      decodeTableWord 8 0x00 = some .c2Dr ∧ decodeTableWord 32 0x000000FF = none := by decide

/-! ## One step -/

/-- Whether a step answers a next state with a given property. -/
def nextMeets (x : Outcome State Fault Refusal) (p : State → Bool) : Bool :=
  match x with
  | .next t => p t
  | .fault _ => false
  | .refused _ => false

/-- After reset, in a cycle in which the host writes `w` to the register at `paddr`. -/
def writing (paddr : BitVec 6) (w : Word) : State :=
  { State.reset with env := { State.reset.env with inputs := [writeInput paddr w] } }

/-- The first wire event of the accepted operation, with the byte it sends. -/
def begins (k : FrameKind) (byte : Byte) (t : State) : Bool :=
  t.status.busy && decide (t.seq.event = some (.strobe k .start)) && t.seq.shift == byte

/-- A running operation in the last cycle of the STOP strobe of a frame that left `byte` in SHIFT, with the given steps
left. -/
def atStop (k : FrameKind) (byte : Byte) (todo : List SeqStep) (fin : Finish) : State :=
  { State.reset with
    status := { State.reset.status with busy := true }
    seq :=
      { Sequencer.reset with
        todo := todo, fin := fin, event := some (.strobe k .stop), phase := .high, count := 1, shift := byte } }

/-- V-B3, V-B10 -/
theorem test_aw_begins : nextMeets (step (writing 0x08 0x0000B401)) (fun t => begins .addressWrite 0xB4 t) = true := by decide
/-- 10_state.md R43, 30_encoding.md R99: the ignored field W is latched -/
theorem test_aw_word_is_latched_whole : nextMeets (step (writing 0x08 0x1234B401)) (fun t => decide (t.cur = { op := 0x01, b := 0xB4, w := 0x1234 })) = true := by decide
/-- V-B4 -/
theorem test_ar_begins : nextMeets (step (writing 0x08 0x00000002)) (fun t => begins .addressRead 0x00 t) = true := by decide
/-- V-B6 -/
theorem test_dw_begins : nextMeets (step (writing 0x08 0x0000FF03)) (fun t => begins .dataWrite 0xFF t) = true := by decide
/-- V-B7 -/
theorem test_dr_begins : nextMeets (step (writing 0x08 0x00000004)) (fun t => begins .dataRead 0x00 t) = true := by decide
/-- V-C1 -/
theorem test_wfb_begins : nextMeets (step (writing 0x08 0x00010108)) (fun t => begins .addressRead 0x00 t) = true := by decide
/-- V-C7 -/
theorem test_okq_begins : nextMeets (step (writing 0x08 0x00000009)) (fun t => begins .dataRead 0x00 t) = true := by decide
/-- V-C14: the address write of 0xB4 -/
theorem test_cinit_begins : nextMeets (step (writing 0x08 0x0000030A)) (fun t => begins .addressWrite 0xB4 t) = true := by decide
/-- V-C11 -/
theorem test_wrb_begins : nextMeets (step (writing 0x08 0x0000A50B)) (fun t => begins .dataWrite 0xA5 t) = true := by decide
/-- V-C13 -/
theorem test_rdr_begins : nextMeets (step (writing 0x08 0x0000000C)) (fun t => begins .addressRead 0x00 t) = true := by decide
/-- V-D3 -/
theorem test_wsfr_begins : nextMeets (step (writing 0x08 0x008FB212)) (fun t => begins .addressWrite 0xB2 t) = true := by decide
/-- V-D5 -/
theorem test_rsfr_begins : nextMeets (step (writing 0x08 0x00000113)) (fun t => begins .addressWrite 0x01 t) = true := by decide
/-- V-D6 -/
theorem test_wdir_begins : nextMeets (step (writing 0x08 0x00558014)) (fun t => begins .addressWrite 0xB4 t) = true := by decide
/-- V-D8 -/
theorem test_rdir_begins : nextMeets (step (writing 0x08 0x00008015)) (fun t => begins .addressWrite 0xB4 t) = true := by decide
/-- V-D11 -/
theorem test_erase_begins : nextMeets (step (writing 0x08 0x00000016)) (fun t => begins .addressWrite 0xB4 t) = true := by decide
/-- V-D16: size byte 0 is 256 bytes -/
theorem test_wblk_begins : nextMeets (step (writing 0x08 0xFFFF0017)) (fun t => begins .addressWrite 0xB4 t && t.seq.loopN == 256) = true := by decide
/-- V-D17 -/
theorem test_rblk_begins : nextMeets (step (writing 0x08 0x01000218)) (fun t => begins .addressWrite 0xB4 t && t.seq.loopN == 2) = true := by decide
/-- V-D1: C2CK is high in the first cycle, C2D released -/
theorem test_reset_begins : nextMeets (step (writing 0x08 0x00000010)) (fun t => t.status.busy && decide (t.seq.event = some .pulse) && t.lines.c2ck &&
      !t.lines.oe) = true := by decide
/-- V-D2 -/
theorem test_init_begins : nextMeets (step (writing 0x08 0x00000011)) (fun t => t.status.busy && decide (t.seq.event = some .pulse)) = true := by decide

/-- V-C17: `command_init` addresses DEVCFG.FPDAT. -/
theorem test_cinit_uses_fpdat :
    nextMeets (step { writing 0x08 0x0000030A with fpdat := 0xC4 }) (begins .addressWrite 0xC4) = true := by decide

/-- V-C6: refused with ERRCODE 4, nothing starts. -/
theorem test_wfb_refused :
    nextMeets (step (writing 0x08 0x00010008)) (fun t => !t.status.busy && t.status.err && t.status.errCode == 4) =
      true := by decide

/-- V-B4: AR finishes with RESULT 0x000000A5, DONE and OK. -/
theorem test_ar_finishes :
    nextMeets (step (atStop .addressRead 0xA5 [] { data := .frameByte, checked := false, counted := false }))
      (fun t => resultWord t.result == 0x000000A5 && !t.status.busy && t.status.done && t.status.ok) = true := by decide

/-- V-B6: a WAIT sample 0 is followed by another WAIT strobe. -/
theorem test_dw_wait_goes_on :
    nextMeets (completeEvent false (beginStrobe .dataWrite .wait (atStop .dataWrite 0xFF [] { data := .zero, checked := false, counted := false })))
      (fun t => decide (t.seq.event = some (.strobe .dataWrite .wait))) = true := by decide

/-- V-B9: the strobe after the 1 of the WAIT is data. -/
theorem test_dr_data_follows_wait :
    nextMeets (completeEvent true (beginStrobe .dataRead .wait (atStop .dataRead 0x00 [] { data := .zero, checked := false, counted := false })))
      (fun t => decide (t.seq.event = some (.strobe .dataRead .dataIn) ∧ t.seq.shift = 0x00)) = true := by decide

/-- V-C1: a poll of 0x00 does not meet `WFB 0x01, 1`; the next address read begins. -/
theorem test_wfb_polls_on :
    nextMeets (step (atStop .addressRead 0x00 [.pollTest 0x01 true] { data := .status, checked := false, counted := false }))
      (begins .addressRead 0x00) = true := by decide

/-- V-C2: a poll of 0x02 meets `WFB 0x03, 1`; DATA = 0x02. -/
theorem test_wfb_finishes :
    nextMeets (step (atStop .addressRead 0x02 [.pollTest 0x03 true] { data := .status, checked := false, counted := false }))
      (fun t => resultWord t.result == 0x00000002 && t.status.ok && !t.status.busy) = true := by decide

/-- V-C7: the success byte. -/
theorem test_okq_accepts :
    nextMeets (step (atStop .dataRead 0x0D [.checkRecord] { data := .response, checked := true, counted := false }))
      (fun t => resultWord t.result == 0x00000D0D && t.status.ok && t.status.fstage == 0) = true := by decide

/-- V-C9: bit 7 counts too. -/
theorem test_okq_rejects :
    nextMeets (step (atStop .dataRead 0x8D [.checkRecord] { data := .response, checked := true, counted := false }))
      (fun t => resultWord t.result == 0x00008D8D && !t.status.ok && t.status.fstage == 1) = true := by decide

/-- V-C12: WRB ends on 0x01. -/
theorem test_wrb_finishes :
    nextMeets (step (atStop .addressRead 0x01 [.pollTest 0x02 false] { data := .zero, checked := false, counted := false }))
      (fun t => resultWord t.result == 0x00000000 && t.status.ok && !t.status.busy) = true := by decide

/-- V-C13: RDR goes on to its data read on 0x03. -/
theorem test_rdr_reads_on_0x03 :
    nextMeets (step (atStop .addressRead 0x03 [.pollTest 0x01 true, dataReadStep] { data := .zero, checked := false, counted := false })) (begins .dataRead 0x00) =
      true := by decide

/-- V-D3: the data write of WSFR. -/
theorem test_wsfr_writes_value :
    nextMeets (step (atStop .addressWrite 0xB2 [dataWriteStep 0x8F] { data := .zero, checked := false, counted := false })) (begins .dataWrite 0x8F) = true := by decide

/-- V-D7: rejected at its first check, RESULT 0x00000100, FSTAGE 1. -/
theorem test_wdir_rejected :
    nextMeets (step (atStop .dataRead 0x01 (.checkRecord :: .stopIfRejected :: writeWithBusy 0x80) { data := .zero, checked := false, counted := false }))
      (fun t => resultWord t.result == 0x00000100 && !t.status.ok && t.status.fstage == 1 && !t.status.busy) = true := by
  decide

/-- V-D8: the poll for output-ready clear goes on on 0x01. -/
theorem test_rdir_waits_for_ready_clear :
    nextMeets (step (atStop .addressRead 0x01 (.pollTest 0x01 false :: readWithReady) { data := .zero, checked := false, counted := false }))
      (begins .addressRead 0x00) = true := by decide

/-- V-D13: rejected at its second check, RESULT 0x00000100, FSTAGE 2. -/
theorem test_erase_second_check :
    nextMeets
      (step
        (let s := atStop .dataRead 0x01 [.checkRecord] { data := .zero, checked := true, counted := false }
         { s with seq := { s.seq with fst := 1, respValid := true, lastResp := 0x0D } }))
      (fun t => resultWord t.result == 0x00000100 && !t.status.ok && t.status.fstage == 2) = true := by decide

/-- V-D14: BUF[0] = 0x99 is the byte sent. -/
theorem test_wblk_sends_byte :
    nextMeets
      (step
        (let s := atStop .dataRead 0x0D [.sendBlock] { data := .zero, checked := false, counted := true }
         { s with buf := [(0, 0x99)], seq := { s.seq with loopN := 1 } }))
      (begins .dataWrite 0x99) = true := by decide

/-- V-D17: the second byte goes to BUF[1], and RESULT is 0x00020D00. -/
theorem test_rblk_stores_last_byte :
    nextMeets
      (step
        (let s := atStop .dataRead 0x22 [.storeByte, .nextIndex, .receiveBlock]
          { data := .zero, checked := false, counted := true }
         { s with
           buf := [(0, 0x11)]
           seq := { s.seq with loopI := 1, loopN := 2, fst := 2, respValid := true, lastResp := 0x0D } }))
      (fun t => resultWord t.result == 0x00020D00 && decide (t.buf = [(0, 0x11), (1, 0x22)]) && t.status.ok) = true := by
  decide

/-- V-A6: with samples 0,0,0,0,0,0,0,1 the byte is 0x80: its last sample is bit 7. -/
theorem test_c2Ar_last_bit :
    nextMeets
      (completeEvent true
        (let s := atStop .addressRead 0x00 [] { data := .zero, checked := false, counted := false }
         beginStrobe .addressRead .dataIn { s with seq := { s.seq with bitCount := 7 } }))
      (fun t => t.seq.shift == 0x80 && decide (t.seq.event = some (.strobe .addressRead .stop))) = true := by decide

/-- V-A5: the instruction code of an address read, bit 0 first: O0, O1. -/
theorem test_c2Ar_code : driveBit .addressRead 0 0 .ins0 = some false ∧ driveBit .addressRead 0 0 .ins1 = some true := by
  decide

/-- V-A5: of a data write: O1, O0. -/
theorem test_c2Dw_code : driveBit .dataWrite 0 0 .ins0 = some true ∧ driveBit .dataWrite 0 0 .ins1 = some false := by
  decide

/-- V-C14: a command code begins the address write of FPDAT and then sends its own byte. -/
theorem test_fpDeviceErase_begins :
    nextMeets (exec .fpDeviceErase State.reset)
      (fun t => decide (t.seq.event = some (.strobe .addressWrite .start) ∧ t.seq.shift = 0xB4 ∧
        t.seq.todo.head? = some (.frame 0b01 0x03))) = true := by decide

/-- V-A1: after the SETUP cycle C2CK is low for TLOW = 1 cycle. -/
theorem test_strobe_low :
    nextMeets (step { beginStrobe .addressWrite .ins0 (atStop .addressWrite 0 [] { data := .zero, checked := false, counted := false }) with
        timing := { tlow := 1, thigh := 3, usdiv := 1 } })
      (fun t => decide (t.seq.phase = .low ∧ t.seq.count = 1 ∧ t.lines = { c2ck := false, oe := true, c2d := true })) =
      true := by decide

/-- 70_reset_and_hazards.md R230: while the block drives C2D high, the input record cannot pull it low, and no free value
is drawn; released, the record gives the level. -/
theorem test_driven_line_reads_driven_level :
    (let low := { quietInput with c2di := some false }
     let s := atStop .addressRead 0 [] { data := .zero, checked := false, counted := false }
     nextMeets (step { beginStrobe .addressRead .ins1 s with env := { s.env with inputs := [low] } })
        (fun t => t.sync.first) = true ∧
      nextMeets (step (beginStrobe .addressRead .ins1 s)) (fun t => t.sync.first && t.env.draws == 0) = true ∧
      nextMeets (step { beginStrobe .addressRead .dataIn s with
          env := { s.env with inputs := [{ quietInput with c2di := some true }] } }) (fun t => t.sync.first) = true ∧
      nextMeets (completeEvent false (beginStrobe .addressRead .ins1 s)) (fun t => t.seq.sampleLatch) = true) := by
  decide

/-- V-D2: the settle delay with USDIV = 1 is 20000 cycles. -/
theorem test_settle_cycles : highCycles { tlow := 1, thigh := 3, usdiv := 1 } .settle = 20000 := by decide

/-- L1-1: with USDIV = 50, 1000 low cycles, 100 high cycles, 1 000 000 settle cycles. -/
theorem test_pulse_cycles :
    lowCycles State.reset.timing .pulse = 1000 ∧ highCycles State.reset.timing .pulse = 100 ∧
      highCycles State.reset.timing .settle = 1000000 := by decide

/-! ## Host registers -/

/-- V-E1: what the registers read after reset. -/
theorem test_reset_reads :
    readReg .ctrl State.reset = 0 ∧ readReg .status State.reset &&& 0x0007FFFF = 0x00010000 ∧
      readReg .cmd State.reset = 0 ∧ readReg .result State.reset = 0 ∧ readReg .timing State.reset = 0x00322020 ∧
      readReg .devcfg State.reset = 0x000000B4 ∧ readReg .bufptr State.reset = 0 := by decide

/-- V-A3, V-E2, V-E3: TIMING stores legal values. -/
theorem test_timing_words :
    timingWord (timingOfWord 0x00000000) = 0x00010301 ∧ timingWord (timingOfWord 0xFFFFFFFF) = 0x00FFFFFF ∧
      timingWord (timingOfWord 0x00320202) = 0x00320302 := by decide

/-- V-E4. -/
theorem test_devcfg_write :
    nextMeets (step (writing 0x14 0x12345678)) (fun t => readReg .devcfg t == 0x00000078) = true := by decide

/-- V-E5: BUF[255], and PTR wraps. -/
theorem test_bufdata_wraps :
    nextMeets (step { writing 0x1C 0x00000011 with ptr := 0xFF })
      (fun t => decide (t.buf = [(255, 0x11)]) && t.ptr == 0x00) = true := by decide

/-- V-E8: refused while busy. -/
theorem test_busy_timing_write :
    nextMeets (step { writing 0x10 0x00000000 with status := { State.reset.status with busy := true } })
      (fun t => readReg .timing t == 0x00322020 && t.status.err && t.status.errCode == 2) = true := by decide

/-- V-E9. -/
theorem test_busy_bufdata_read :
    (let t := hostRead .bufdata { State.reset with status := { State.reset.status with busy := true } }
     t.env.prdata = 0 ∧ t.ptr = 0 ∧ t.status.err = true ∧ t.status.errCode = 3) := by decide

/-- V-E10: the busy check comes first. -/
theorem test_busy_before_illegal :
    nextMeets (step { writing 0x08 0x000000FF with status := { State.reset.status with busy := true } })
      (fun t => t.status.errCode == 2) = true := by decide

/-- V-E13: the latest error wins. -/
theorem test_latest_error_wins :
    nextMeets (step { writing 0x08 0x00000000 with status := { State.reset.status with err := true, errCode := 3 } })
      (fun t => t.status.err && t.status.errCode == 1) = true := by decide

/-- V-E14 and V-E15. -/
theorem test_status_acknowledge :
    (acknowledge 0x00000002 { State.reset with status := { State.reset.status with done := true, err := true, errCode := 2 } }).status =
        { State.reset.status with err := true, errCode := 2 } ∧
      (acknowledge 0xFFFFFFFF { State.reset with status := { State.reset.status with done := true, ok := true, err := true, errCode := 2, fstage := 2 } }).status =
        { State.reset.status with ok := true, fstage := 2 } := by decide

/-- V-E18: `paddr[1:0]` is ignored. -/
theorem test_cmd_at_0x0B : nextMeets (step (writing 0x0B 0x00000001)) (begins .addressWrite 0x00) = true := by decide

/-- V-E20: the set by `finish` wins. -/
theorem test_finish_wins :
    nextMeets (step { atStop .addressWrite 0x00 [] { data := .zero, checked := false, counted := false } with env := (writing 0x04 0x00000002).env })
      (fun t => t.status.done && !t.status.busy) = true := by decide

/-- V-E23: an edge with `rst_n` = 0 in the middle of an operation. -/
theorem test_reset_edge :
    nextMeets (step { atStop .dataWrite 0xAD [.check] { data := .zero, checked := false, counted := false } with
        buf := [(3, 0x77)]
        env := { State.reset.env with inputs := [{ quietInput with rstN := false }] } })
      (fun t => decide (t.status = State.reset.status ∧ t.seq = Sequencer.reset ∧ t.buf = [(3, 0x77)] ∧
        t.lines = { c2ck := true, oe := false, c2d := false })) = true := by decide

/-- 70_reset_and_hazards.md R226: at 50 MHz with the source's examples of the bounds (80 ns, 5 microseconds, 120 ns) the
reset timing is legal, and the fastest timing of the vectors is not. -/
theorem test_timing_ok :
    TimingOk 50000000 80000 5000000 120000 State.reset.timing = true ∧
      TimingOk 50000000 80000 5000000 120000 { tlow := 1, thigh := 3, usdiv := 1 } = false := by decide

/-- 30_encoding.md R104: operations as text. -/
theorem test_asmText : asmText (.wblk 0x1234 0x02) = "WBLK 4660, 2" ∧ asmText (.wfb 0x01 true) = "WFB 1, 1" := by decide

/-- V-B3 and V-B9 read back by the monitor (30_encoding.md R103). -/
theorem test_monitor :
    readFrame [.z, .o true, .o true, .o false, .o false, .o true, .o false, .o true, .o true, .o false, .o true, .z] =
        some (.addressWrite 0xB4, []) ∧
      readFrame [.z, .o false, .o false, .o false, .o false, .i true, .i true, .i false, .i false, .i false, .i false,
        .i false, .i false, .i false, .z] = some (.dataRead 0 0x01, []) := by decide

/-! ## Witnesses: a state and operands that meet all hypotheses of an obligation together -/

/-- Sampled levels that show a trace. -/
def answers (tr : List WireEvent) : List Bool :=
  tr.map fun e =>
    match e with
    | .i b => b
    | .z => false
    | .o _ => true
    | .pulse _ _ => false
    | .idle _ => true

theorem answers_fit (tr : List WireEvent) : samplesFit tr (answers tr) = true := by
  induction tr with
  | nil => rfl
  | cons e tr ih =>
    simp only [answers, List.map_cons, samplesFit, Bool.and_eq_true] at ih ⊢
    exact ⟨by cases e <;> simp [WireEvent.fits], ih⟩

/-- An idle block with an old error, IE set, C2D last driven high. -/
def idleState : State :=
  { State.reset with
    ie := true
    status := { busy := false, done := true, ok := true, err := true, errCode := 3, fstage := 2 }
    timing := { tlow := 1, thigh := 3, usdiv := 1 }
    buf := [(0, 0x99), (7, 0x12)]
    lines := { c2ck := true, oe := false, c2d := true } }

/-- A block in the SETUP cycle of a strobe of an address read. -/
def runningState : State :=
  beginStrobe .addressRead .dataIn
    { idleState with
      status := { busy := true, done := false, ok := false, err := true, errCode := 2, fstage := 0 }
      cur := { op := 0x02, b := 0, w := 0 }
      seq := { Sequencer.reset with fin := { data := .frameByte, checked := false, counted := false }, bitCount := 3 } }

def pollScript : PollScript := { before := [0x02, 0x83], last := 0x01 }
def writeScript : WriteScript := { zeros := 2, poll := pollScript }
def readScript (d : Byte) : ReadScript := { poll := { before := [0x00, 0x02], last := 0x03 }, zeros := 1, byte := d }
def commandScript (r : Byte) : CommandScript := { write := writeScript, response := readScript r }
def headerScript (r1 r2 : Byte) : HeaderScript :=
  { command := commandScript r1, high := writeScript, low := writeScript, size := writeScript, response := readScript r2 }

/-! ### Encoding -/

theorem witness_DecodeEncodeRoundTrip : WellFormed (.wfb 0x00 false) = true := by decide

theorem witness_UnusedCommandBitsAreIgnored : WellFormed (.wfb 0x00 ((0xFFFE : Half).getLsbD 0)) = true := by decide

/-- Each range of illegal OP values, at both its ends. -/
theorem witness_IllegalOpcodeRaisesIllegalOp :
    idleState.status.busy = false ∧ opField 0xFFFFFF00 = 0x00 ∧
      (0x05 ≤ (opField 0xFFFFFF05).toNat ∧ (opField 0xFFFFFF05).toNat ≤ 0x07) ∧
      (0x05 ≤ (opField 0x00000007).toNat ∧ (opField 0x00000007).toNat ≤ 0x07) ∧
      (0x0D ≤ (opField 0x0000000D).toNat ∧ (opField 0x0000000D).toNat ≤ 0x0F) ∧
      (0x0D ≤ (opField 0x0000000F).toNat ∧ (opField 0x0000000F).toNat ≤ 0x0F) ∧
      0x19 ≤ (opField 0x00000019).toNat ∧ 0x19 ≤ (opField 0x000000FF).toNat := by decide

theorem witness_WfbZeroMaskExpectedOneIsRefused :
    idleState.status.busy = false ∧ opField 0xFFFF0008 = 0x08 ∧ bField 0xFFFF0008 = 0x00 ∧
      (wField 0xFFFF0008).getLsbD 0 = true := by decide

/-! ### Acceptance -/

theorem witness_IdleCommandIsAccepted :
    IsCommand (.wfb 0x00 false) = true ∧ WellFormed (.wfb 0x00 false) = true ∧ idleState.status.busy = false := by decide

theorem witness_BusyCommandIsRefused : runningState.status.busy = true ∧ IsCommand (.wblk 0xFFFF 0x00) = true := by decide

/-! ### Operations -/

theorem witness_AwSendsAddressWriteFrame :
    idleState.status.busy = false ∧
      samplesFit (framesTrace [.addressWrite 0xB4]) (answers (framesTrace [.addressWrite 0xB4])) = true :=
  ⟨rfl, answers_fit _⟩

theorem witness_ArReadsStatusByte :
    idleState.status.busy = false ∧
      samplesFit (framesTrace [.addressRead 0xA5]) (answers (framesTrace [.addressRead 0xA5])) = true :=
  ⟨rfl, answers_fit _⟩

theorem witness_DwSendsDataWriteFrame :
    idleState.status.busy = false ∧
      samplesFit (framesTrace [.dataWrite 0xFF 2]) (answers (framesTrace [.dataWrite 0xFF 2])) = true :=
  ⟨rfl, answers_fit _⟩

theorem witness_DrReadsDataByte :
    idleState.status.busy = false ∧
      samplesFit (framesTrace [.dataRead 0 0x01]) (answers (framesTrace [.dataRead 0 0x01])) = true :=
  ⟨rfl, answers_fit _⟩

theorem witness_WfbPollsUntilConditionMet :
    WellFormed (.wfb 0x01 true) = true ∧ idleState.status.busy = false ∧
      (PollScript.fits 0x01 true { before := [0x00, 0xFE], last := 0x01 }) = true ∧
      samplesFit (framesTrace (PollScript.frames { before := [0x00, 0xFE], last := 0x01 }))
        (answers (framesTrace (PollScript.frames { before := [0x00, 0xFE], last := 0x01 }))) = true :=
  ⟨rfl, rfl, by decide, answers_fit _⟩

/-- The byte 0x0D, and one that differs from it in bit 7 alone. -/
theorem witness_OkqAcceptsSuccessByteOnly :
    idleState.status.busy = false ∧
      samplesFit (framesTrace [.dataRead 1 0x0D]) (answers (framesTrace [.dataRead 1 0x0D])) = true ∧
      samplesFit (framesTrace [.dataRead 1 0x8D]) (answers (framesTrace [.dataRead 1 0x8D])) = true :=
  ⟨rfl, answers_fit _, answers_fit _⟩

theorem witness_WrbWritesThenPollsInputBusy :
    idleState.status.busy = false ∧ writeScript.fits = true ∧
      samplesFit (framesTrace (writeScript.frames 0xA5)) (answers (framesTrace (writeScript.frames 0xA5))) = true :=
  ⟨rfl, by decide, answers_fit _⟩

theorem witness_RdrPollsReadyThenReads :
    idleState.status.busy = false ∧ (readScript 0x5A).fits = true ∧
      samplesFit (framesTrace (readScript 0x5A).frames) (answers (framesTrace (readScript 0x5A).frames)) = true :=
  ⟨rfl, by decide, answers_fit _⟩

theorem witness_CinitRunsCommandInit :
    idleState.status.busy = false ∧ (commandScript 0x02).fits = true ∧
      samplesFit (framesTrace ((commandScript 0x02).frames idleState.fpdat 0x07))
        (answers (framesTrace ((commandScript 0x02).frames idleState.fpdat 0x07))) = true :=
  ⟨rfl, by decide, answers_fit _⟩

theorem witness_WfbHangsWhileConditionUnmet :
    WellFormed (.wfb 0x01 true) = true ∧ idleState.status.busy = false ∧
      ([0x00, 0xFE] : List Byte).all (fun x => !pollMet 0x01 true x) = true ∧
      samplesFit (framesTrace (([0x00, 0xFE] : List Byte).map .addressRead))
        (answers (framesTrace (([0x00, 0xFE] : List Byte).map .addressRead))) = true :=
  ⟨rfl, rfl, by decide, answers_fit _⟩

theorem witness_ResetPulsesTarget : idleState.status.busy = false := rfl

theorem witness_InitSendsKeySequence :
    idleState.status.busy = false ∧
      ∃ bs, samplesFit
        ([.pulse (20 * idleState.timing.usdiv.toNat) (2 * idleState.timing.usdiv.toNat)] ++
          framesTrace [.addressWrite 0x02, .dataWrite 0x02 0, .dataWrite 0x04 1, .dataWrite 0x01 2] ++
          [.idle (20000 * idleState.timing.usdiv.toNat)]) bs = true :=
  ⟨rfl, _, answers_fit _⟩

/-- The two clauses: WSFR and RSFR. -/
theorem witness_SfrAccessIsTwoFrames :
    idleState.status.busy = false ∧
      (∃ bs, samplesFit (framesTrace [.addressWrite 0xB2, .dataWrite 0x8F 0]) bs = true) ∧
      ∃ bs, samplesFit (framesTrace [.addressWrite 0x00, .dataRead 3 0x28]) bs = true :=
  ⟨rfl, ⟨_, answers_fit _⟩, _, answers_fit _⟩

/-- The two clauses: accepted and rejected. -/
theorem witness_WdirWritesOrStops :
    idleState.status.busy = false ∧ (commandScript 0x0D).fits = true ∧ (commandScript 0x0C).fits = true ∧
      writeScript.fits = true ∧ (commandScript 0x0D).response.byte = 0x0D ∧ (commandScript 0x0C).response.byte ≠ 0x0D ∧
      (∃ bs, samplesFit
        (framesTrace ((commandScript 0x0D).frames idleState.fpdat 0x0A ++ writeScript.frames 0x80 ++
          writeScript.frames 0x01 ++ writeScript.frames 0x55)) bs = true) ∧
      ∃ bs, samplesFit (framesTrace ((commandScript 0x0C).frames idleState.fpdat 0x0A)) bs = true :=
  ⟨rfl, by decide, by decide, by decide, rfl, by decide, ⟨_, answers_fit _⟩, _, answers_fit _⟩

theorem witness_RdirReadsOrStops :
    idleState.status.busy = false ∧ (commandScript 0x0D).fits = true ∧ (commandScript 0x00).fits = true ∧
      writeScript.fits = true ∧ (PollScript.fits 0x01 false { before := [0x01, 0x01], last := 0x00 }) = true ∧
      (readScript 0x00).fits = true ∧
      (commandScript 0x0D).response.byte = 0x0D ∧ (commandScript 0x00).response.byte ≠ 0x0D ∧
      (∃ bs, samplesFit
        (framesTrace ((commandScript 0x0D).frames idleState.fpdat 0x09 ++ writeScript.frames 0x80 ++
          writeScript.frames 0x01 ++ PollScript.frames { before := [0x01, 0x01], last := 0x00 } ++
          (readScript 0x00).frames)) bs = true) ∧
      ∃ bs, samplesFit (framesTrace ((commandScript 0x00).frames idleState.fpdat 0x09)) bs = true :=
  ⟨rfl, by decide, by decide, by decide, by decide, by decide, rfl, by decide, ⟨_, answers_fit _⟩, _, answers_fit _⟩

/-- Accepted at both checks, rejected at the second, rejected at the first. -/
theorem witness_EraseArmsOnlyAfterAcceptance :
    idleState.status.busy = false ∧ (commandScript 0x0D).fits = true ∧ (commandScript 0x02).fits = true ∧
      writeScript.fits = true ∧ (readScript 0x0D).fits = true ∧ (readScript 0x01).fits = true ∧
      (commandScript 0x0D).response.byte = 0x0D ∧ (commandScript 0x02).response.byte ≠ 0x0D ∧
      (∃ bs, samplesFit
        (framesTrace ((commandScript 0x0D).frames idleState.fpdat 0x03 ++ writeScript.frames 0xDE ++
          writeScript.frames 0xAD ++ writeScript.frames 0xA5 ++ (readScript 0x0D).frames)) bs = true) ∧
      (∃ bs, samplesFit
        (framesTrace ((commandScript 0x0D).frames idleState.fpdat 0x03 ++ writeScript.frames 0xDE ++
          writeScript.frames 0xAD ++ writeScript.frames 0xA5 ++ (readScript 0x01).frames)) bs = true) ∧
      ∃ bs, samplesFit (framesTrace ((commandScript 0x02).frames idleState.fpdat 0x03)) bs = true :=
  ⟨rfl, by decide, by decide, by decide, by decide, by decide, rfl, by decide, ⟨_, answers_fit _⟩, ⟨_, answers_fit _⟩, _,
    answers_fit _⟩

theorem replicate_all {α : Type} (n : Nat) (x : α) (f : α → Bool) (h : f x = true) :
    (List.replicate n x).all f = true := by
  rw [List.all_eq_true]
  intro y hy
  rw [List.eq_of_mem_replicate hy]
  exact h

/-- Size byte 0, which is 256 bytes, most of them never written; and size byte 1. -/
theorem witness_WblkSendsBlock :
    idleState.status.busy = false ∧ (headerScript 0x0D 0x0D).fits = true ∧
      (headerScript 0x0D 0x0D).command.response.byte = 0x0D ∧ (headerScript 0x0D 0x0D).response.byte = 0x0D ∧
      (List.replicate 256 writeScript).length = (if (0x00 : Byte) = 0 then 256 else (0x00 : Byte).toNat) ∧
      (List.replicate 256 writeScript).all WriteScript.fits = true ∧
      [writeScript].length = (if (0x01 : Byte) = 0 then 256 else (0x01 : Byte).toNat) ∧
      [writeScript].all WriteScript.fits = true ∧ pollScript.fits 0x01 true = false ∧
      (PollScript.fits 0x01 true { before := [], last := 0x01 }) = true ∧
      (∃ bs, samplesFit
        (framesTrace ((headerScript 0x0D 0x0D).frames idleState.fpdat 0x07 0xFFFF 0x00 ++
          writesFrames (blockBytes idleState.buf 256 0 idleState.env.draws) (List.replicate 256 writeScript) ++
          PollScript.frames { before := [], last := 0x01 })) bs = true) ∧
      ∃ bs, samplesFit
        (framesTrace ((headerScript 0x0D 0x0D).frames idleState.fpdat 0x07 0x1234 0x01 ++
          writesFrames (blockBytes idleState.buf 1 0 idleState.env.draws) [writeScript] ++
          PollScript.frames { before := [], last := 0x01 })) bs = true :=
  ⟨rfl, by decide, rfl, rfl, List.length_replicate.trans (by decide), replicate_all _ _ _ (by decide), by decide, by decide, by decide, by decide,
    ⟨_, answers_fit _⟩, _, answers_fit _⟩

theorem witness_RblkFillsBuffer :
    idleState.status.busy = false ∧ (headerScript 0x0D 0x0D).fits = true ∧
      (headerScript 0x0D 0x0D).command.response.byte = 0x0D ∧ (headerScript 0x0D 0x0D).response.byte = 0x0D ∧
      (List.replicate 256 (readScript 0x44)).length = (if (0x00 : Byte) = 0 then 256 else (0x00 : Byte).toNat) ∧
      (List.replicate 256 (readScript 0x44)).all ReadScript.fits = true ∧
      [readScript 0x11, readScript 0x22].length = (if (0x02 : Byte) = 0 then 256 else (0x02 : Byte).toNat) ∧
      [readScript 0x11, readScript 0x22].all ReadScript.fits = true ∧
      (∃ bs, samplesFit
        (framesTrace ((headerScript 0x0D 0x0D).frames idleState.fpdat 0x06 0x0000 0x00 ++
          (List.replicate 256 (readScript 0x44)).flatMap ReadScript.frames)) bs = true) ∧
      ∃ bs, samplesFit
        (framesTrace ((headerScript 0x0D 0x0D).frames idleState.fpdat 0x06 0x0100 0x02 ++
          [readScript 0x11, readScript 0x22].flatMap ReadScript.frames)) bs = true :=
  ⟨rfl, by decide, rfl, rfl, List.length_replicate.trans (by decide), replicate_all _ _ _ (by decide), by decide, by decide, ⟨_, answers_fit _⟩, _,
    answers_fit _⟩

/-- Rejected at the first check, and at the second. -/
theorem witness_RejectedBlockTransfersNothing :
    idleState.status.busy = false ∧ (headerScript 0xFF 0x0D).fits = true ∧
      (headerScript 0xFF 0x0D).command.response.byte ≠ 0x0D ∧ (headerScript 0x0D 0x03).fits = true ∧
      (headerScript 0x0D 0x03).command.response.byte = 0x0D ∧ (headerScript 0x0D 0x03).response.byte ≠ 0x0D ∧
      (∃ bs, samplesFit (framesTrace ((headerScript 0xFF 0x0D).command.frames idleState.fpdat 0x06)) bs = true) ∧
      ∃ bs, samplesFit (framesTrace ((headerScript 0x0D 0x03).frames idleState.fpdat 0x07 0x1234 0x01)) bs = true :=
  ⟨rfl, by decide, by decide, by decide, rfl, by decide, ⟨_, answers_fit _⟩, _, answers_fit _⟩

/-! ### Wire instructions and command codes -/

/-- A frame of each kind. -/
theorem witness_WireInstructionRunsItsFrame :
    samplesFit (Frame.trace (.addressWrite 0xB4)) (answers (Frame.trace (.addressWrite 0xB4))) = true ∧
      samplesFit (Frame.trace (.addressRead 0xA5)) (answers (Frame.trace (.addressRead 0xA5))) = true ∧
      samplesFit (Frame.trace (.dataWrite 0x02 3)) (answers (Frame.trace (.dataWrite 0x02 3))) = true ∧
      samplesFit (Frame.trace (.dataRead 0 0xFF)) (answers (Frame.trace (.dataRead 0 0xFF))) = true :=
  ⟨answers_fit _, answers_fit _, answers_fit _, answers_fit _⟩

theorem witness_CommandCodeBeginsCommandInit :
    (Instr.fpIndirectWrite, 0x0C#8) ∈
      [(Instr.fpGetVersion, 0x01#8), (.fpGetDerivative, 0x02#8), (.fpDeviceErase, 0x03#8), (.fpBlockRead, 0x06#8),
        (.fpBlockWrite, 0x07#8), (.fpPageErase, 0x08#8), (.fpDirectRead, 0x09#8), (.fpDirectWrite, 0x0A#8),
        (.fpIndirectRead, 0x0B#8), (.fpIndirectWrite, 0x0C#8)] := by decide

/-! ### A step runs the decoded instruction -/

/-- In a cycle in which the host reads the register at `paddr`. -/
def reading (paddr : BitVec 6) (s : State) : State := { s with env := { s.env with inputs := [readInput paddr] } }

/-- V-E1: TIMING as the host reads it after reset. -/
theorem test_read_step : nextMeets (step (reading 0x10 State.reset)) (fun t => t.env.prdata == 0x00322020) = true := by
  decide

/-- 10_state.md R39, R21: a read of BUFDATA moves PTR on at the edge that ends its cycle. -/
theorem test_bufdata_read_step :
    nextMeets (step (reading 0x1C { State.reset with ptr := 0xFF, buf := [(255, 0x11)] }))
      (fun t => t.env.prdata == 0x00000011 && t.ptr == 0x00) = true := by decide

/-- Idle: a CMD word that names an operation and one that names none (at two of the byte addresses of CMD), a write to
another register, a read, no access. Running: a write, a read, no access. -/
theorem witness_StepRunsDecodedCommand :
    ((writing 0x08 0x0000B401).status.busy = false ∧ (inputNow (writing 0x08 0x0000B401)).rstN = true ∧
      HostWrites 0x08 0x0000B401 (writing 0x08 0x0000B401) ∧ hostReg 0x08 = .cmd ∧
      decodeCmd 0x0000B401 = .ok (.aw 0xB4)) ∧
    (HostWrites 0x0B 0x000000FF (writing 0x0B 0x000000FF) ∧ hostReg 0x0B = .cmd ∧
      decodeCmd 0x000000FF = .error .illegalOp) ∧
    (HostWrites 0x10 0x00000000 (writing 0x10 0x00000000) ∧ hostReg 0x10 ≠ .cmd) ∧
    (HostReads 0x1C (reading 0x1C idleState) ∧ (reading 0x1C idleState).status.busy = false) ∧
    (isAccess (inputNow idleState) = false ∧ (inputNow idleState).rstN = true ∧ idleState.status.busy = false) ∧
    (let s := { runningState with env := (writing 0x10 0x00000000).env }
     s.status.busy = true ∧ HostWrites 0x10 0x00000000 s) ∧
    (HostReads 0x04 (reading 0x04 runningState) ∧ (reading 0x04 runningState).status.busy = true) ∧
    isAccess (inputNow runningState) = false ∧ (inputNow runningState).rstN = true :=
  ⟨⟨rfl, rfl, ⟨rfl, rfl, rfl, rfl⟩, by decide, by decide⟩, ⟨⟨rfl, rfl, rfl, rfl⟩, by decide, by decide⟩,
    ⟨⟨rfl, rfl, rfl, rfl⟩, by decide⟩, ⟨⟨rfl, rfl, rfl⟩, rfl⟩, ⟨rfl, rfl, rfl⟩, ⟨rfl, rfl, rfl, rfl, rfl⟩,
    ⟨⟨rfl, rfl, rfl⟩, rfl⟩, rfl, rfl⟩

/-- A frame and a command code as the next step. -/
theorem witness_StepRunsNextWireInstruction :
    (let s := atStop .addressWrite 0xB4 [dataWriteStep 0x03, .check] { data := .zero, checked := false, counted := false }
     QuietCycle (inputNow s) = true ∧ s.status.busy = true ∧ s.seq.event = some (.strobe .addressWrite .stop) ∧
       s.seq.phase = .high ∧ s.seq.count.toNat ≤ 1 ∧ s.seq.todo = .frame 0b01 0x03 :: [.check]) ∧
    (let s := atStop .addressRead 0x00 [.command 0x03] { data := .zero, checked := false, counted := false }
     QuietCycle (inputNow s) = true ∧ s.status.busy = true ∧ s.seq.event = some (.strobe .addressRead .stop) ∧
       s.seq.phase = .high ∧ s.seq.count.toNat ≤ 1 ∧ s.seq.todo = .command 0x03 :: [] ∧
       decodeCommand 0x03 = .ok .fpDeviceErase) := by decide

/-- A word of each level. -/
theorem witness_PlacedTableWordIsRun :
    idleState.status.busy = false ∧ decodeTableWord 8 0x18 = some (.rblk 0x0000 0x00) ∧
      IsCommand (.rblk 0x0000 0x00) = true ∧ decodeTableWord 2 0b10 = some .c2Ar ∧ IsCommand .c2Ar = false ∧
      decodeTableWord 8 0x06 = some .fpBlockRead ∧ IsCommand .fpBlockRead = false := by decide

/-! ### Cycle timing -/

theorem witness_StrobeLastsOnePlusLowPlusHigh :
    runningState.status.busy = true ∧ runningState.seq.event = some (.strobe .addressRead .dataIn) ∧
      runningState.seq.phase = .setup ∧ runningState.lines.c2ck = true ∧ LegalTiming runningState.timing = true ∧
      QuietFor (strobeCycles runningState.timing) runningState = true := by decide

/-- V-A1: the pin of cycle 2 in a strobe with C2D released; and a strobe with C2D driven. -/
theorem witness_SampleIsPinTwoCyclesBeforeLast :
    (let c := { quietInput with c2di := some true }
     let s := { runningState with env := { runningState.env with inputs := [quietInput, quietInput, c] } }
     s.status.busy = true ∧ s.seq.event = some (.strobe .addressRead .dataIn) ∧ s.seq.phase = .setup ∧
       LegalTiming s.timing = true ∧ QuietFor (strobeCycles s.timing) s = true ∧ s.lines.oe = false ∧
       s.env.inputs[s.timing.tlow.toNat + s.timing.thigh.toNat - 2]? = some c ∧ c.c2di = some true) ∧
    (let s := beginStrobe .addressRead .ins1 runningState
     s.status.busy = true ∧ s.seq.event = some (.strobe .addressRead .ins1) ∧ s.seq.phase = .setup ∧
       LegalTiming s.timing = true ∧ QuietFor (strobeCycles s.timing) s = true ∧ s.lines.oe = true) := by decide

/-- The pulse at its first cycle, and a running operation that comes to the settle delay. -/
theorem witness_PulseAndSettleLengths :
    (let s := beginPulse runningState
     s.status.busy = true ∧ LegalTiming s.timing = true ∧ s.seq.event = some .pulse ∧ s.seq.phase = .setup ∧
       s.lines = { s.lines with c2ck := true, oe := false } ∧ QuietFor (1 + 22 * s.timing.usdiv.toNat) s = true) ∧
    runningState.status.busy = true ∧ LegalTiming runningState.timing = true ∧
      QuietFor (20000 * runningState.timing.usdiv.toNat) runningState = true :=
  ⟨by decide, rfl, by decide, by simp [QuietFor, runningState, beginStrobe, idleState, State.reset]⟩

/-- An idle block in whose present cycle the host writes `w` to CMD. -/
def commanding (w : Word) : State := { idleState with env := { idleState.env with inputs := [writeInput 0x08 w] } }

theorem witness_AwTakesTwelveStrobes :
    HostWrites 0x08 (encodeCmd (.aw 0xB4)) (commanding (encodeCmd (.aw 0xB4))) ∧
      (commanding (encodeCmd (.aw 0xB4))).status.busy = false ∧
      LegalTiming (commanding (encodeCmd (.aw 0xB4))).timing = true ∧
      ((commanding (encodeCmd (.aw 0xB4))).env.inputs.tail.take
        (12 * strobeCycles (commanding (encodeCmd (.aw 0xB4))).timing)).all QuietCycle = true :=
  ⟨⟨rfl, rfl, rfl, rfl⟩, rfl, by decide, by decide⟩

theorem witness_ResetOperationCycles :
    HostWrites 0x08 (encodeCmd .reset) (commanding (encodeCmd .reset)) ∧
      (commanding (encodeCmd .reset)).status.busy = false ∧ LegalTiming (commanding (encodeCmd .reset)).timing = true ∧
      ((commanding (encodeCmd .reset)).env.inputs.tail.take
        (1 + 22 * (commanding (encodeCmd .reset)).timing.usdiv.toNat)).all QuietCycle = true :=
  ⟨⟨rfl, rfl, rfl, rfl⟩, rfl, by decide, by decide⟩

theorem witness_WaitHangsWhilePinStaysLow :
    let c := { quietInput with c2di := some false }
    let s := { beginStrobe .dataRead .wait runningState with env := { runningState.env with inputs := List.replicate 8 c } }
    s.status.busy = true ∧ s.seq.event = some (.strobe .dataRead .wait) ∧ s.lines.oe = false ∧
      s.sync = { first := false, last := false } ∧
      8 ≤ s.env.inputs.length ∧ (s.env.inputs.take 8).all (fun c => QuietCycle c && c.c2di == some false) = true := by
  decide

/-! ### The whole machine -/

/-- The invariant holds in a state in the middle of a frame, and that state steps on. -/
theorem witness_StepKeepsInvariant : BlockInv runningState ∧ ∃ t, step runningState = .next t where
  left :=
    { buf_wf := by decide
      timing_legal := by decide
      no_error_no_code := by decide
      error_code := by decide
      stage := by decide
      checks := by decide
      size := by decide
      count := by decide
      running := by decide
      idle := by decide
      lines := by decide }
  right := ⟨_, rfl⟩

theorem witness_ResetEdgeAbandonsOperation :
    (inputNow { runningState with env := { runningState.env with inputs := [{ quietInput with rstN := false }] } }).rstN =
      false := rfl

/-- The host writes TIMING while an operation runs. -/
theorem witness_RunningOperationInputsAreFixed :
    let s := { runningState with env := (writing 0x10 0x00320202).env }
    s.status.busy = true ∧ (inputNow s).rstN = true ∧ ∃ t, step s = .next t := ⟨rfl, rfl, _, rfl⟩

/-- A refused write beside a silent host. -/
theorem witness_HostCannotDisturbRunningOperation :
    runningState.status.busy = true ∧ runningState.status.done = false ∧ (writeInput 0x18 0x00000005).rstN = true ∧
      quietInput.rstN = true ∧ (writeInput 0x18 0x00000005).c2di = quietInput.c2di ∧
      (∃ t, step { runningState with env := { runningState.env with inputs := [writeInput 0x18 0x00000005] } } = .next t) ∧
      ∃ u, step { runningState with env := { runningState.env with inputs := [quietInput] } } = .next u :=
  ⟨rfl, rfl, rfl, rfl, rfl, ⟨_, rfl⟩, _, rfl⟩

/-- A BUFDATA write while busy; and an idle block in which the host is silent. -/
theorem witness_BufferChangesOnlyByPortOrBlockRead :
    (let s := { runningState with env := (writing 0x1C 0x00000055).env }
     isWrite (inputNow s) = true ∧ hostReg (inputNow s).paddr = .bufdata ∧ s.status.busy = true ∧
       SeqStep.storeByte ∉ s.seq.todo ∧ ∃ t, step s = .next t) ∧
    isWrite (inputNow idleState) = false ∧ idleState.status.busy = false ∧ ∃ t, step idleState = .next t :=
  ⟨⟨rfl, by decide, rfl, by decide, _, rfl⟩, rfl, rfl, _, rfl⟩

/-- A running operation in the last cycle of the settle delay or of the reset pulse. -/
def atEnd (e : Event) : State :=
  { State.reset with
    status := { State.reset.status with busy := true }
    seq := { Sequencer.reset with event := some e, phase := .high, count := 1 } }

/-- A finish at the STOP of a frame, after a poll that is met, at a check that rejects, at the end of the byte loops, of the
pulse and of the settle delay; and each access in such a cycle. -/
theorem witness_FinishWinsOverClear :
    (let fin : Finish := { data := .zero, checked := false, counted := false }
     ∀ s ∈ [atStop .addressWrite 0x00 [] fin, atStop .addressRead 0x01 [.pollTest 0x01 true] fin,
        atStop .dataRead 0x01 [.checkRecord, .stopIfRejected, .pulse] fin, atStop .addressRead 0x00 [.sendBlock] fin,
        atStop .dataRead 0x00 [.storeByte, .nextIndex, .receiveBlock] fin, atEnd .pulse, atEnd .settle],
      ∃ e ∈ [Event.strobe .addressWrite .stop, .strobe .addressRead .stop, .strobe .dataRead .stop, .pulse, .settle],
        s.status.busy = true ∧ s.seq.event = some e ∧ s.seq.phase = .high ∧ s.seq.count.toNat ≤ 1 ∧
          nextMeets (eventDone e s) (fun u => !u.status.busy) = true) ∧
    (HostWrites 0x07 0x0000000A { atEnd .settle with env := (writing 0x07 0x0000000A).env } ∧ hostReg 0x07 = .status) ∧
    (HostWrites 0x18 0x00000001 { atEnd .settle with env := (writing 0x18 0x00000001).env } ∧
      hostReg 0x18 ∈ [HostReg.cmd, .timing, .devcfg, .bufptr, .bufdata]) ∧
    HostReads 0x1C (reading 0x1C (atEnd .settle)) ∧ hostReg 0x1C = .bufdata :=
  ⟨by decide, ⟨⟨rfl, rfl, rfl, rfl⟩, by decide⟩, ⟨⟨rfl, rfl, rfl, rfl⟩, by decide⟩, ⟨rfl, rfl, rfl⟩, by decide⟩

/-! ### Host registers -/

theorem witness_BusyRefusesAccesses : runningState.status.busy = true := rfl
theorem witness_TimingWriteStoresLegalValues : idleState.status.busy = false := rfl
theorem witness_FieldRegistersReadBack : idleState.status.busy = false := rfl

/-- PTR at its last index, with a byte written there and with none. -/
theorem witness_BufdataPortReadsWhatWasWritten :
    (let s := { idleState with ptr := 0xFF, buf := [(255, 0x11)] }
     s.status.busy = false ∧ s.buf.read s.ptr.toNat = some 0x11) ∧
    (let s := { idleState with ptr := 0xFF }
     s.status.busy = false ∧ s.buf.read s.ptr.toNat = none) := by decide

/-- The first and the last reserved offset, and the four byte addresses of one register. -/
theorem witness_ReservedOffsetsReadZeroIgnoreWrites :
    0x20 ≤ (0x20#6).toNat ∧ 0x20 ≤ (0x3F#6).toNat ∧ (0x08#6).toNat / 4 = (0x0B#6).toNat / 4 := by decide

theorem witness_OnlyBufdataReadHasSideEffect : HostReg.status ≠ .bufdata := by decide

/-- With no gap, and with a gap of three cycles. -/
theorem witness_HostProgramIssuesOperation :
    IsCommand (.rblk 0x0100 0x02) = true ∧ WellFormed (.rblk 0x0100 0x02) = true ∧ idleState.status.busy = false ∧
      (idleState.env.inputs.take (0 + 2)).all (fun c => c.rstN) = true ∧
      (let s := { idleState with env := { idleState.env with inputs := List.replicate 5 quietInput } }
       (s.env.inputs.take (3 + 2)).all (fun c => c.rstN) = true) := by decide

/-! ### Bounded response -/

theorem nextMeets_iff {x : Outcome State Fault Refusal} {p : State → Bool} (h : nextMeets x p = true) :
    ∃ t, x = .next t ∧ p t = true := by
  cases x with
  | next t => exact ⟨t, rfl, h⟩
  | fault r => cases h
  | refused r => cases h

/-- An operation that has finished stays as it is. -/
theorem after_stays {i : Instr} {s t : State} {σ : Nat → Bool} {n : Nat} (h : After i s σ n t)
    (he : t.seq.event = none) (k : Nat) : After i s σ (n + k) t := by
  induction k with
  | zero => exact h
  | succ k ih =>
    refine (operate_succ ih).trans ?_
    simp only [completeEvent, he]

/-- A state with a wire event in progress comes before the operation has finished. -/
theorem after_lt {i : Instr} {s t : State} {σ : Nat → Bool} {n N : Nat}
    (hN : nextMeets (operate i (samplesUpTo σ N) s) (fun t => t.seq.event.isNone) = true) (h : After i s σ n t)
    (ht : t.seq.event ≠ none) : n < N := by
  obtain ⟨u, hu, he⟩ := nextMeets_iff hN
  by_contra hn
  have h' := after_stays (σ := σ) hu (by simpa using he) (n - N)
  rw [show N + (n - N) = n by omega] at h'
  obtain rfl := Host.Outcome.next.inj (Eq.trans (Eq.symm h) h')
  exact ht (by simpa using he)

/-- A target that always answers 1: it is responsive in a DR, which waits and does not poll, and in a `WFB 0x01, 1`, which
polls. -/
theorem witness_ResponsiveTargetEndsEveryOperation :
    (IsCommand .dr = true ∧ WellFormed .dr = true ∧ idleState.status.busy = false ∧
      TargetResponsive .dr idleState fun _ => true) ∧
    IsCommand (.wfb 0x01 true) = true ∧ WellFormed (.wfb 0x01 true) = true ∧
      TargetResponsive (.wfb 0x01 true) idleState fun _ => true := by
  refine ⟨⟨rfl, rfl, rfl, fun n _ _ _ _ => ⟨n, le_refl n, rfl⟩, fun n t m e rest h hev htodo => ?_⟩, rfl, rfl,
    fun n _ _ _ _ => ⟨n, le_refl n, rfl⟩, fun n t m e rest h hev htodo => ?_⟩
  · have hn := after_lt (N := 15) (by decide) h (by rw [hev]; exact Option.some_ne_none _)
    have all : ∀ n < 15, nextMeets (operate .dr (samplesUpTo (fun _ => true) n) idleState)
        (fun t => t.seq.todo.isEmpty) = true := by decide
    have := all n hn
    rw [show operate .dr (samplesUpTo (fun _ => true) n) idleState = .next t from h] at this
    have : t.seq.todo.isEmpty = true := this
    rw [htodo] at this
    cases this
  · have hn := after_lt (N := 12) (by decide) h (by rw [hev]; exact Option.some_ne_none _)
    have all : ∀ n < 12, nextMeets (operate (.wfb 0x01 true) (samplesUpTo (fun _ => true) n) idleState)
        (fun t => decide (t.seq.todo = [.pollTest 0x01 true]) &&
          (decide (t.seq.event ≠ some (.strobe .addressRead .start)) || decide (n = 0))) = true := by decide
    have h1 := all n hn
    rw [show operate (.wfb 0x01 true) (samplesUpTo (fun _ => true) n) idleState = .next t from h] at h1
    have h2 : (decide (t.seq.todo = [.pollTest 0x01 true]) &&
      (decide (t.seq.event ≠ some (.strobe .addressRead .start)) || decide (n = 0))) = true := h1
    simp only [Bool.and_eq_true, Bool.or_eq_true, decide_eq_true_eq, hev, ne_eq, not_true, false_or] at h2
    obtain ⟨h3, rfl⟩ := h2
    rw [h3] at htodo
    injection htodo with h4 h5
    injection h4 with hm he
    subst hm he h5
    have stop : nextMeets (operate (.wfb 0x01 true) (samplesUpTo (fun _ => true) 11) idleState)
        (fun u => decide (u.seq.event = some (.strobe .addressRead .stop) ∧ u.seq.todo = [.pollTest 0x01 true]) &&
          pollMet 0x01 true u.seq.shift) = true := by decide
    obtain ⟨u, hu, h6⟩ := nextMeets_iff stop
    simp only [Bool.and_eq_true, decide_eq_true_eq] at h6
    exact ⟨11, u, by omega, hu, h6.1.1, h6.1.2, h6.2⟩

end Sys2Proof.Tests
end

section
/-! SUPPORT. What a bus cycle can do, taken apart once, and how the sequencer's edge goes with another host side. -/

namespace Sys2Proof.Machine

/-! ## The bus cycle -/

theorem isRead_not_isWrite {c : CycleInput} (h : isRead c = true) : isWrite c = false := by
  simp only [isRead, Bool.and_eq_true, Bool.not_eq_true'] at h
  simp [isWrite, h.2]

theorem busEdge_write {c : CycleInput} (h : isWrite c = true) (s : State) :
    busEdge c s = hostWrite (hostReg c.paddr) c.pwdata s := by simp [busEdge, h]

theorem busEdge_read {c : CycleInput} (h : isRead c = true) (s : State) :
    busEdge c s = .next (hostRead (hostReg c.paddr) s) := by simp [busEdge, isRead_not_isWrite h, h]

theorem busEdge_silent {c : CycleInput} (h : isAccess c = false) (s : State) : busEdge c s = .next s := by
  simp [busEdge, isWrite, isRead, h]

/-- How a bus cycle from `s` ends in `t`: a host write or a host read has completed, or the host is silent. -/
inductive BusCycle (c : CycleInput) (s : State) : State → Prop
  | write {t : State} (hc : isWrite c = true) (h : HostWritten (hostReg c.paddr) c.pwdata s t) : BusCycle c s t
  | read {t : State} (hc : isRead c = true) (h : HostRead (hostReg c.paddr) s t) : BusCycle c s t
  | silent (hc : isAccess c = false) : BusCycle c s s

theorem busEdge_cases {c : CycleInput} {s t : State} (h : busEdge c s = .next t) : BusCycle c s t := by
  by_cases hw : isWrite c = true
  · rw [busEdge_write hw] at h
    obtain ⟨u, hu, hc⟩ := hostWrite_cases (hostReg c.paddr) c.pwdata s
    rw [hu] at h
    obtain rfl := Host.Outcome.next.inj h
    exact .write hw hc
  by_cases hr : isRead c = true
  · rw [busEdge_read hr] at h
    obtain rfl := Host.Outcome.next.inj h
    exact .read hr (hostRead_cases _ s)
  · have ha : isAccess c = false := by
      cases hp : c.pwrite <;> simp_all [isWrite, isRead]
    rw [busEdge_silent ha] at h
    obtain rfl := Host.Outcome.next.inj h
    exact .silent ha

/-! ## Host accesses while an operation runs (10_state.md R46) -/

/-- The registers whose write is refused while an operation runs. -/
def refusedWrites : List HostReg := [.cmd, .timing, .devcfg, .bufptr, .bufdata]

theorem hostWrite_refused {r : HostReg} {s : State} (hr : r ∈ refusedWrites) (hb : s.status.busy = true) (w : Word) :
    hostWrite r w s = .next (raiseHostError .busyWrite s) := by
  have refused : ∀ f : State → State, unlessBusy f s = raiseHostError .busyWrite s := fun f => by simp [unlessBusy, hb]
  cases r with
  | cmd =>
    simp only [hostWrite, writeCmd, hb, if_true, refused]
    split
    · next i hi => exact exec_busy (decodeCmd_ok hi).1 hb
    · rfl
  | timing | devcfg | bufptr | bufdata => exact congrArg _ (refused _)
  | ctrl | status | result | reserved => simp [refusedWrites] at hr

theorem hostRead_bufdata_busy {s : State} (hb : s.status.busy = true) :
    hostRead .bufdata s = notePrdata 0 (raiseHostError .busyRead s) := by
  simp [hostRead, readReg, readEffect, hb]

theorem hostRead_plain {r : HostReg} (h : r ≠ .bufdata) (s : State) : hostRead r s = notePrdata (readReg r s) s := by
  cases r with
  | bufdata => exact absurd rfl h
  | _ => rfl

/-- While an operation runs a bus cycle sets nothing but the host side; of STATUS it may raise an error and clear DONE and
ERR. -/
theorem BusCycle.running {c : CycleInput} {s t : State} (h : BusCycle c s t) (hb : s.status.busy = true) :
    t = withHost (hostSide t) s ∧
      (t.status.busy = s.status.busy ∧ t.status.ok = s.status.ok ∧ t.status.fstage = s.status.fstage) ∧
      (s.status.done = false → t.status.done = false) := by
  have idle : s.status.busy = false → False := fun h => by simp [h] at hb
  cases h with
  | silent _ => exact ⟨rfl, ⟨rfl, rfl, rfl⟩, id⟩
  | read _ h =>
    cases h with
    | plain _ | busy _ _ => exact ⟨rfl, ⟨rfl, rfl, rfl⟩, id⟩
    | idle _ hb' => exact (idle hb').elim
  | write _ h =>
    cases h with
    | ignored _ | ctrl _ | error _ => exact ⟨rfl, ⟨rfl, rfl, rfl⟩, id⟩
    | status _ => exact ⟨rfl, ⟨rfl, rfl, rfl⟩, fun hd => by simp [statusAcknowledge, hd]⟩
    | timing _ hb' | devcfg _ hb' | bufptr _ hb' | bufdata _ hb' | accepted _ hb' => exact (idle hb').elim

/-! ## The sequencer's edge beside another host side -/

theorem tickEvent_withHost {e : Event} {s : State} (he : s.seq.event = some e) (h : HostSide) :
    tickEvent e (withHost h s) = overHost h (tickEvent e s) := by
  -- within an event nothing but the host side differs, and no `finish` runs
  have within : ∀ t : State, t.seq.event = some e →
      (.next (withHost h t) : Outcome State Fault Refusal) = overHost h (.next t) := by
    intro t ht
    simp [overHost, statusAfter, ht]
  have again : (.next (countDown (withHost h s)) : Outcome State Fault Refusal) = overHost h (.next (countDown s)) :=
    within (countDown s) he
  have enter : ∀ ph n b, (.next (enterPhase ph n b (withHost h s)) : Outcome State Fault Refusal) =
      overHost h (.next (enterPhase ph n b s)) := fun ph n b => within (enterPhase ph n b s) he
  simp only [tickEvent, show (withHost h s).seq = s.seq from rfl, show (withHost h s).timing = s.timing from rfl]
  split
  · exact enter _ _ _
  · split
    · exact again
    · exact enter _ _ _
  · split
    · exact again
    · exact eventDone_withHost e h s

/-- While an operation runs the edge of the sequencer does not look at the host side. -/
theorem sequencerEdge_withHost {h : HostSide} {s : State} (hs : s.status.busy = true) (hh : h.status.busy = true) :
    sequencerEdge (withHost h s) = overHost h (sequencerEdge s) := by
  simp only [sequencerEdge, hs, show (withHost h s).status = h.status from rfl, hh, if_true,
    show (withHost h s).seq = s.seq from rfl]
  split
  · exact fetch_withHost s.seq.todo h s
  · next e he => exact tickEvent_withHost he h

/-- A step with reset (70_reset_and_hazards.md R220). -/
theorem step_reset {s : State} (hr : ¬ (inputNow s).rstN = true) :
    step s = .next (dropInput (resetEdge (readDuringReset (inputNow s) s))) := by simp only [step, clockEdge, if_neg hr]

theorem readDuringReset_buf (c : CycleInput) (s : State) : (readDuringReset c s).buf = s.buf := by
  unfold readDuringReset drawForRead
  split
  · split <;> simp
  · rfl

/-- A step without reset, from what its bus cycle and its sequencer edge leave. -/
theorem step_of_edges {s u v : State} (hr : (inputNow s).rstN = true) (hu : busEdge (inputNow s) s = .next u)
    (hv : sequencerEdge u = .next v) : step s = .next (dropInput (syncEdge (inputNow s) s.lines v)) := by
  simp only [step, clockEdge, hr, if_true, hu, hv, andThen_next]

end Sys2Proof.Machine
end

section
/-! SUPPORT. The invariant of the block: what reset, a bus cycle, a fetch and an edge of the sequencer leave of it. -/

namespace Sys2Proof

open Sys2Proof.Machine

section
variable {s t : State}

/-! ## Updates the invariant does not look at -/

theorem BlockInv.notePrdata (h : BlockInv s) (v : Word) : BlockInv (notePrdata v s) := { h with }
theorem BlockInv.bumpPtr (h : BlockInv s) : BlockInv (bumpPtr s) := { h with }
theorem BlockInv.dropInput (h : BlockInv s) : BlockInv (dropInput s) := { h with }
theorem BlockInv.noteEvent (h : BlockInv s) (e : WireEvent) : BlockInv (noteEvent e s) := { h with }
theorem BlockInv.latchSample (h : BlockInv s) (b : Bool) : BlockInv (latchSample b s) := { h with }
theorem BlockInv.countDown (h : BlockInv s) : BlockInv (countDown s) := { h with }

theorem BlockInv.drawForByte (h : BlockInv s) (i : Nat) : BlockInv (drawForByte i s) := by
  rw [drawForByte_eq]
  exact { h with }

theorem BlockInv.syncEdge (h : BlockInv s) (c : CycleInput) (l : Lines) : BlockInv (syncEdge c l s) := by
  unfold Machine.syncEdge drawForPin
  split <;> exact { h with }

/-! ## Reset -/

theorem blockInv_reset : BlockInv State.reset where
  buf_wf := reset_buf_wf
  timing_legal := by decide
  no_error_no_code := fun _ => rfl
  error_code := nofun
  stage := by decide
  checks := by decide
  size := by decide
  count := by decide
  running := nofun
  idle := fun _ => ⟨rfl, rfl⟩
  lines := rfl

/-- Of the state before it a reset edge leaves BUF alone. -/
theorem blockInv_resetEdge (h : s.buf.wf = true) : BlockInv (resetEdge s) := { blockInv_reset with buf_wf := h }

/-! ## The bus cycle -/

theorem legalTlow_pos (v : Byte) : 1 ≤ (legalTlow v).toNat := by
  unfold legalTlow
  split
  · decide
  · next h =>
    have : v.toNat ≠ 0 := fun h0 => h (by simpa using BitVec.eq_of_toNat_eq h0)
    omega

theorem legalUsdiv_pos (v : Byte) : 1 ≤ (legalUsdiv v).toNat := legalTlow_pos v

theorem legalThigh_toNat (v : Byte) : (legalThigh v).toNat = max 3 v.toNat := by
  unfold legalThigh
  split
  · next h => exact (max_eq_left (le_of_lt h)).symm
  · next h => exact (max_eq_right (le_of_not_gt h)).symm

/-- A write to TIMING stores legal values (10_state.md R36). -/
theorem legalTiming_timingOfWord (w : Word) : LegalTiming (timingOfWord w) = true := by
  simp only [LegalTiming, Bool.and_eq_true, decide_eq_true_eq]
  exact ⟨⟨legalTlow_pos _, (legalThigh_toNat _).ge.trans' (le_max_left _ _)⟩, legalUsdiv_pos _⟩

theorem HostError.code_range (e : HostError) : 1 ≤ e.code.toNat ∧ e.code.toNat ≤ 4 := by
  cases e <;> decide

theorem BlockInv.raiseHostError (h : BlockInv s) (e : HostError) : BlockInv (raiseHostError e s) :=
  { h with
    no_error_no_code := nofun
    error_code := fun _ => HostError.code_range e }

theorem BlockInv.acknowledge (h : BlockInv s) (w : Word) : BlockInv (acknowledge w s) :=
  { h with
    no_error_no_code := by
      have := h.no_error_no_code
      cases hw : w.getLsbD 3 <;> simp_all [statusAcknowledge]
    error_code := by
      have := h.error_code
      cases hw : w.getLsbD 3 <;> simp_all [statusAcknowledge]
    running := fun hb => by
      obtain ⟨hd, ho, hf⟩ := h.running hb
      exact ⟨by simp [statusAcknowledge, hd], ho, hf⟩ }

/-- Acceptance while idle begins an operation with its flags and records cleared. -/
theorem BlockInv.accepted (h : BlockInv s) (hb : s.status.busy = false) {steps : List SeqStep} {n : BitVec 9}
    (hc : checksIn steps ≤ 2) (hn : n.toNat ≤ Config.bufSize) (w : Word) (fin : Finish) :
    BlockInv (accepted w steps fin n s) :=
  { h with
    stage := show (0#2) ≠ 3 by decide
    checks := show 0 + checksIn steps ≤ 2 by omega
    size := hn
    running := fun _ => ⟨rfl, rfl, rfl⟩
    idle := nofun
    lines := by
      have := h.lines
      rwa [linesFit, (h.idle hb).1] at this }

theorem BlockInv.hostWritten {r : HostReg} {w : Word} (h : BlockInv s) (hw : HostWritten r w s t) : BlockInv t := by
  cases hw with
  | ignored _ => exact h
  | ctrl _ | devcfg _ _ | bufptr _ _ => exact { h with }
  | status _ => exact h.acknowledge w
  | timing _ _ => exact { h with timing_legal := legalTiming_timingOfWord w }
  | bufdata _ _ =>
    have : BlockInv (setBufByte s.ptr.toNat (w.extractLsb' 0 8) s) :=
      { h with buf_wf := setBufByte_wf _ _ _ (ptr_lt s) h.buf_wf }
    exact this.bumpPtr
  | error e => exact h.raiseHostError e
  | accepted _ hb i steps fin n _ hc hn _ =>
    have := h.accepted hb hc hn (encodeCmd i) fin
    exact { this with }

theorem BlockInv.hostRead {r : HostReg} (h : BlockInv s) (hr : HostRead r s t) : BlockInv t := by
  cases hr with
  | plain _ => exact h.notePrdata _
  | busy _ _ => exact (h.raiseHostError _).notePrdata _
  | idle _ _ => exact (h.drawForByte _).bumpPtr.notePrdata _

theorem BlockInv.busCycle {c : CycleInput} (h : BlockInv s) (hc : BusCycle c s t) : BlockInv t := by
  cases hc with
  | write _ hw => exact h.hostWritten hw
  | read _ hr => exact h.hostRead hr
  | silent _ => exact h

/-! ## Beginning a wire event, and the fetch -/

theorem linesFit_beginStrobe (k : FrameKind) (p : WirePos) (s : State) :
    linesFit (beginStrobe k p s).seq (beginStrobe k p s).lines = true := by
  cases hd : driveBit k s.seq.shift s.seq.bitCount p <;> simp [linesFit, beginStrobe, clockFits, hd]

/-- The state in which the sequencer of a running operation, between two wire events, has come to the steps `p`. -/
def atFetch (p : List SeqStep) (s : State) : State := { s with seq := { s.seq with todo := p, event := none } }

/-- The sequencer goes on at the end of a wire event that leaves the lines idle. -/
theorem BlockInv.toFetch (h : BlockInv s) (hb : s.status.busy = true) (hl : IdleLines s.lines = true) :
    BlockInv (atFetch s.seq.todo s) :=
  { h with
    idle := fun hi => absurd (hi.symm.trans hb) (by decide)
    lines := hl }

/-- The steps that begin no wire event keep the invariant. -/
theorem BlockInv.passed {p rest : List SeqStep} (h : BlockInv (atFetch p s)) (hb : s.status.busy = true)
    (hp : Passed p s t rest) : BlockInv (atFetch rest t) := by
  have hst : (atFetch rest t).status = (atFetch p s).status := hp.host.2.1
  have hre : (atFetch rest t).result = (atFetch p s).result := hp.host.2.2.1
  have hti : (atFetch rest t).timing = (atFetch p s).timing := hp.host.2.2.2.1
  have hli : IdleLines t.lines = true := hp.lines.1 ▸ h.lines
  exact
    { buf_wf := hp.buf_wf h.buf_wf
      timing_legal := hti ▸ h.timing_legal
      no_error_no_code := hst ▸ h.no_error_no_code
      error_code := hst ▸ h.error_code
      stage := hst ▸ h.stage
      checks := hp.checks h.checks
      size := hp.size ▸ h.size
      count := hre ▸ h.count
      running := hst ▸ h.running
      idle := fun hi => absurd (hi.symm.trans (hst ▸ hb)) (by decide)
      lines := hli }

/-- However a fetch ends, its end keeps the invariant. -/
theorem BlockInv.fetched {rest : List SeqStep} (h : BlockInv (atFetch rest s)) (hb : s.status.busy = true)
    (hf : Fetched rest s t) : BlockInv t := by
  have hl : IdleLines s.lines = true := h.lines
  have running : ∀ {p : Prop}, s.status.busy = false → p := fun hi => absurd (hi.symm.trans hb) (by decide)
  have hfst : s.seq.fst.toNat ≤ 2 := le_trans (Nat.le_add_right _ _) h.checks
  have hstage : s.seq.fst ≠ 3 := fun h3 => by simp [h3] at hfst
  cases hf with
  | frame k v => exact { h with idle := running, lines := linesFit_beginStrobe k .start _ }
  | pulse => exact { h with idle := running, lines := rfl }
  | settle => exact { h with idle := running, lines := rfl }
  | finish =>
    exact
      { h with
        stage := by
          show finishStage s.seq ≠ 3
          unfold finishStage
          split
          · decide
          · exact hstage
        checks := hfst
        count := by
          show (finishCount s.seq).toNat ≤ _
          unfold finishCount
          split
          · exact h.size
          · exact Nat.zero_le _
        running := nofun
        idle := fun _ => ⟨rfl, rfl⟩
        lines := hl }
  | rejected =>
    exact
      { h with
        stage := hstage
        checks := hfst
        count := Nat.zero_le _
        running := nofun
        idle := fun _ => ⟨rfl, rfl⟩
        lines := hl }

theorem BlockInv.fetch {p : List SeqStep} (h : BlockInv (atFetch p s)) (hb : s.status.busy = true)
    (hf : Machine.fetch p s = .next t) : BlockInv t := by
  obtain ⟨u, rest, v, hv, hp, he⟩ := fetch_cases p s
  rw [hv] at hf
  obtain rfl := Host.Outcome.next.inj hf
  exact (h.passed hb hp).fetched (hp.host.2.1 ▸ hb) he

/-- The fetch at the end of a wire event that leaves the lines idle. -/
theorem BlockInv.fetchNext (h : BlockInv s) (hb : s.status.busy = true) (hl : IdleLines s.lines = true)
    (hf : Machine.fetchNext s = .next t) : BlockInv t := (h.toFetch hb hl).fetch hb hf

/-! ## The edge of the sequencer -/

/-- The next strobe of a frame begins with its lines applied, whatever the last one did to SHIFT and the bit counter. -/
theorem BlockInv.nextStrobe (h : BlockInv s) (hb : s.status.busy = true) (b : Bool) (k : FrameKind) (p q : WirePos) :
    BlockInv (beginStrobe k q (shiftData p b s)) := by
  cases p <;>
    exact { h with
      idle := fun hi => absurd (hi.symm.trans hb) (by decide)
      lines := linesFit_beginStrobe _ _ _ }

/-- Only STOP ends a frame. -/
theorem nextPos_eq_none {k : FrameKind} {bit : BitVec 3} {b : Bool} {p : WirePos} (h : nextPos k bit b p = none) :
    p = .stop := by
  cases p with
  | stop => rfl
  | _ => simp [nextPos] at h

/-- The end of a strobe: STOP, which ends the frame, leaves the lines idle. -/
theorem BlockInv.strobeDone {k : FrameKind} {p : WirePos} (h : BlockInv s) (hb : s.status.busy = true)
    (he : s.seq.event = some (.strobe k p)) (hp : s.seq.phase = .high) (ht : Machine.strobeDone k p s = .next t) :
    BlockInv t := by
  have hn := (h.latchSample s.sync.last).noteEvent (strobeEvent k s.seq.shift s.seq.bitCount s.sync.last p)
  cases hq : nextPos k s.seq.bitCount s.sync.last p with
  | some q =>
    rw [strobeDone_next hq] at ht
    obtain rfl := Host.Outcome.next.inj ht
    exact hn.nextStrobe hb _ k p q
  | none =>
    obtain rfl := nextPos_eq_none hq
    rw [strobeDone_last hq] at ht
    have hl : IdleLines s.lines = true := by
      have := h.lines
      simpa [linesFit, he, hp, clockFits, driveBit, IdleLines] using this
    exact hn.fetchNext hb hl ht

theorem BlockInv.eventDone {e : Event} (h : BlockInv s) (hb : s.status.busy = true) (he : s.seq.event = some e)
    (hp : s.seq.phase = .high) (ht : Machine.eventDone e s = .next t) : BlockInv t := by
  have hl := h.lines
  cases e with
  | strobe k p => exact h.strobeDone hb he hp ht
  | pulse =>
    have hl : IdleLines s.lines = true := by simpa [linesFit, he, hp, clockFits, IdleLines] using hl
    exact (h.noteEvent _).fetchNext hb hl ht
  | settle =>
    have hl : IdleLines s.lines = true := by simpa [linesFit, he, hp] using hl
    exact (h.noteEvent _).fetchNext hb hl ht

/-- C2CK alone moves with the phase. -/
theorem BlockInv.enterPhase {e : Event} (h : BlockInv s) (he : s.seq.event = some e) (hp : s.seq.phase ≠ .high)
    {ph : Phase} {b : Bool} (hph : ∀ l : Lines, clockFits ph { l with c2ck := b } = true) (n : BitVec 23) :
    BlockInv (enterPhase ph n b s) :=
  { h with
    lines := by
      have hl := h.lines
      cases e with
      | strobe k p | pulse =>
        simp only [linesFit, Machine.enterPhase, he, Bool.and_eq_true] at hl ⊢
        exact ⟨hph _, hl.2⟩
      | settle => simp [linesFit, he, hp] at hl }

theorem BlockInv.tickEvent {e : Event} (h : BlockInv s) (hb : s.status.busy = true) (he : s.seq.event = some e)
    (ht : Machine.tickEvent e s = .next t) : BlockInv t := by
  unfold Machine.tickEvent at ht
  split at ht
  · next hp =>
    obtain rfl := Host.Outcome.next.inj ht
    exact h.enterPhase he (by simp [hp]) (fun _ => rfl) _
  · next hp =>
    split at ht <;> obtain rfl := Host.Outcome.next.inj ht
    · exact h.countDown
    · exact h.enterPhase he (by simp [hp]) (fun _ => rfl) _
  · next hp =>
    split at ht
    · obtain rfl := Host.Outcome.next.inj ht
      exact h.countDown
    · exact h.eventDone hb he hp ht

theorem BlockInv.sequencerEdge (h : BlockInv s) (ht : Machine.sequencerEdge s = .next t) : BlockInv t := by
  unfold Machine.sequencerEdge at ht
  split at ht
  · next hb =>
    split at ht
    · next he =>
      have hl : IdleLines s.lines = true := by simpa [linesFit, he] using h.lines
      exact h.fetchNext hb hl ht
    · next e he => exact h.tickEvent hb he ht
  · obtain rfl := Host.Outcome.next.inj ht
    exact h

end

/-- Settles O41: a reset edge leaves the reset state but for BUF; else the bus cycle, the edge of the sequencer and the
synchroniser keep the invariant one after another. -/
theorem stepKeepsInvariant : Obligations.StepKeepsInvariant := by
  intro s t h ht
  by_cases hr : (inputNow s).rstN = true
  · obtain ⟨u, v, hu, hv, rfl⟩ := step_run hr ht
    exact (((h.busCycle (busEdge_cases hu)).sequencerEdge hv).syncEdge _ _).dropInput
  · obtain rfl := Host.Outcome.next.inj ((step_reset hr).symm.trans ht)
    refine (blockInv_resetEdge ?_).dropInput
    rw [readDuringReset_buf]
    exact h.buf_wf

end Sys2Proof
end

section
/-! SUPPORT and statements. Steps of a running operation, and what a step does with the host access of its cycle. -/

namespace Sys2Proof.Machine

/-! ## A step, taken apart -/

theorem step_eq {s : State} (hr : (inputNow s).rstN = true) :
    step s = andThen (busEdge (inputNow s) s) fun t => andThen (sequencerEdge t) fun v =>
      .next (dropInput (syncEdge (inputNow s) s.lines v)) := by simp only [step, clockEdge, hr, if_true]

/-- An accepted operation fetches at the edge that accepts it. -/
theorem sequencerEdge_accepted (w x : Word) (steps : List SeqStep) (fin : Finish) (n : BitVec 9) (s : State) :
    sequencerEdge (latchWord w (accepted x steps fin n s)) = fetchNext (latchWord w (accepted x steps fin n s)) := rfl

/-- A write to CMD that selects an operation, while idle. -/
theorem step_command {s : State} {w : Word} {i : Instr} (hr : (inputNow s).rstN = true)
    (hu : busEdge (inputNow s) s = hostWrite .cmd w s) (hd : decodeCmd w = .ok i) (hb : s.status.busy = false) :
    step s = andThen (exec i s) fun t => andThen (fetchNext (latchWord w t)) fun v =>
      .next (dropInput (syncEdge (inputNow s) s.lines v)) := by
  obtain ⟨hc, hw⟩ := decodeCmd_ok hd
  obtain ⟨steps, fin, n, he, -⟩ := exec_idle hc hw hb
  have hwrite : hostWrite .cmd w s = .next (latchWord w (accepted (encodeCmd i) steps fin n s)) := by
    simp [hostWrite, writeCmd, hd, hb, he]
  rw [step_eq hr, hu, hwrite, he, andThen_next, andThen_next, sequencerEdge_accepted]

/-- A write to CMD that selects no operation raises its error, while idle. -/
theorem hostWrite_illegal {s : State} {w : Word} {e : DecodeError} (hd : decodeCmd w = .error e)
    (hb : s.status.busy = false) : hostWrite .cmd w s = .next (raiseHostError (refusalError e) s) := by
  simp [hostWrite, writeCmd, hd, unlessBusy, hb]

/-- With no operation running after it, the bus cycle is all that a step does beside the synchroniser. -/
theorem step_idle {s t : State} (hr : (inputNow s).rstN = true) (hu : busEdge (inputNow s) s = .next t)
    (hb : t.status.busy = false) : step s = .next (dropInput (syncEdge (inputNow s) s.lines t)) :=
  step_of_edges hr hu (sequencerEdge_idle hb)

/-- Settles O31: the bus cycle is the access, and the sequencer's edge is the fetch, nothing, or the running event. -/
theorem stepRunsDecodedCommand : Obligations.StepRunsDecodedCommand := by
  intro s hr
  have write : ∀ {a w}, HostWrites a w s → busEdge (inputNow s) s = hostWrite (hostReg a) w s := by
    rintro a w ⟨-, hw, rfl, rfl⟩
    exact busEdge_write hw s
  have read : ∀ {a}, HostReads a s → busEdge (inputNow s) s = .next (hostRead (hostReg a) s) := by
    rintro a ⟨-, hw, rfl⟩
    exact busEdge_read hw s
  refine ⟨fun hb => ⟨?_, ?_, ?_, ?_, ?_⟩, fun _ => ⟨?_, ?_, ?_⟩, ?_⟩
  · intro a w i hw ha hd
    exact step_command hr (ha ▸ write hw) hd hb
  · intro a w e hw ha hd
    exact step_idle hr ((ha ▸ write hw).trans (hostWrite_illegal hd hb)) hb
  · intro a w hw ha
    obtain ⟨t, ht, hc⟩ := hostWrite_cases (hostReg a) w s
    exact ⟨t, ht, step_idle hr ((write hw).trans ht) ((hc.busy ha).trans hb)⟩
  · intro a hw
    exact step_idle hr (read hw) ((hostRead_cases _ s).busy_eq.trans hb)
  · intro ha
    exact step_idle hr (busEdge_silent ha s) hb
  · intro a w hw
    obtain ⟨t, ht, -⟩ := hostWrite_cases (hostReg a) w s
    exact ⟨t, ht, by rw [step_eq hr, write hw, ht, andThen_next]⟩
  · intro a hw
    rw [step_eq hr, read hw, andThen_next]
  · intro ha
    rw [step_eq hr, busEdge_silent ha, andThen_next]
  · intro a hw
    obtain ⟨v, hv⟩ := sequencerEdge_next (hostRead (hostReg a) s)
    refine ⟨_, step_of_edges hr (read hw) hv, ?_⟩
    rw [dropInput_env, syncEdge_outside]
    exact (sequencerEdge_kept hv).outside.2

/-! ## Reset -/

/-- Settles O42: the base case of O41. -/
theorem resetMeetsInvariant : Obligations.ResetMeetsInvariant := blockInv_reset

/-- Settles O43: every field as `State.reset` writes it. -/
theorem resetLeavesSpecValues : Obligations.ResetLeavesSpecValues := by
  unfold Obligations.ResetLeavesSpecValues
  decide

/-! ## A running operation and the host -/

/-- Settles O45: the bus cycle sets nothing but the host side, and no edge of the sequencer touches these registers. -/
theorem runningOperationInputsAreFixed : Obligations.RunningOperationInputsAreFixed := by
  intro s t hb hr ht
  obtain ⟨u, v, hu, hv, rfl⟩ := step_run hr ht
  obtain ⟨he, -⟩ := (busEdge_cases hu).running hb
  obtain ⟨-, htiming, hfpdat, hptr, hcur⟩ := (sequencerEdge_kept hv).registers
  simp only [dropInput_timing, dropInput_fpdat, dropInput_ptr, dropInput_cur, syncEdge_timing, syncEdge_fpdat,
    syncEdge_ptr, syncEdge_cur, htiming, hfpdat, hptr, hcur]
  rw [he]
  exact ⟨rfl, rfl, rfl, rfl⟩

/-- State `t` is what a step of a running operation leaves when its bus cycle leaves `u` and its sequencer edge would
leave `v` without the host: STATUS and the read data are the host's, with a `finish` on top, and all else is the sequencer's. -/
structure Beside (c : CycleInput) (l : Lines) (u v t : State) : Prop where
  status : t.status = statusAfter u.status v
  prdata : t.env.prdata = u.env.prdata
  seq : t.seq = v.seq
  lines : t.lines = v.lines
  sync : t.sync = { first := c2dLevel l (c.c2di.getD (Config.freePin v.env.draws)), last := v.sync.first }
  result : t.result = v.result
  buf : t.buf = v.buf
  trace : t.env.trace = v.env.trace
  draws : t.env.draws = v.env.draws + (if !l.oe && c.c2di.isNone then 1 else 0)

/-- A step of a running operation beside the host side `k`. -/
theorem step_running {s u v : State} {k : HostSide} (hs : s.status.busy = true) (hk : k.status.busy = true)
    (hr : (inputNow (withHost k s)).rstN = true) (hv : sequencerEdge s = .next v)
    (hu : busEdge (inputNow (withHost k s)) (withHost k s) = .next u) :
    ∃ t, step (withHost k s) = .next t ∧ Beside (inputNow (withHost k s)) s.lines u v t := by
  obtain ⟨he, ⟨hbusy, -, -⟩, -⟩ := (busEdge_cases hu).running hk
  have hub : u.status.busy = true := hbusy.trans hk
  have hsu : sequencerEdge u = .next (withHost { hostSide u with status := statusAfter u.status v } v) := by
    rw [show u = withHost (hostSide u) s from he, sequencerEdge_withHost hs hub, hv]
    rfl
  refine ⟨_, step_of_edges hr hu hsu, ?_⟩
  exact
    { status := by rw [dropInput_status, syncEdge_status]; rfl
      prdata := by rw [dropInput_env, syncEdge_outside]; rfl
      seq := by rw [dropInput_seq, syncEdge_seq]; rfl
      lines := by rw [dropInput_lines, syncEdge_lines]; rfl
      sync := by rw [dropInput_sync, syncEdge_sync]; rfl
      result := by rw [dropInput_result, syncEdge_result]; rfl
      buf := by rw [dropInput_buf, syncEdge_buf]; rfl
      trace := by rw [dropInput_env, syncEdge_outside]; rfl
      draws := by rw [dropInput_env, syncEdge_draws]; rfl }

/-- A sequencer edge acts alike on two STATUS that agree in BUSY, DONE, OK and FSTAGE. -/
theorem statusAfter_agree {p q : Status} (v : State) (hb : p.busy = q.busy) (hd : p.done = q.done) (ho : p.ok = q.ok)
    (hf : p.fstage = q.fstage) :
    (statusAfter p v).busy = (statusAfter q v).busy ∧ (statusAfter p v).done = (statusAfter q v).done ∧
      (statusAfter p v).ok = (statusAfter q v).ok ∧ (statusAfter p v).fstage = (statusAfter q v).fstage := by
  unfold statusAfter
  split
  · exact ⟨rfl, rfl, rfl, rfl⟩
  · exact ⟨hb, hd, ho, hf⟩

/-- Settles O46: each of the two steps is the sequencer's edge without host, beside what its bus cycle did to the host side. -/
theorem hostCannotDisturbRunningOperation : Obligations.HostCannotDisturbRunningOperation := by
  intro s t u c d r hb hd hc hdr hcd ht hu
  obtain ⟨v, hv⟩ := sequencerEdge_next s
  have beside : ∀ {a : CycleInput} {x : State}, a.rstN = true →
      step { s with env := { s.env with inputs := a :: r } } = .next x →
      ∃ y, Beside a s.lines y v x ∧ y.status.busy = true ∧ y.status.done = false ∧ y.status.ok = s.status.ok ∧
        y.status.fstage = s.status.fstage := by
    intro a x ha hx
    let k : HostSide := { hostSide s with inputs := a :: r }
    obtain ⟨y, hy⟩ := busEdge_next a (withHost k s)
    obtain ⟨-, ⟨hbusy, hok, hstage⟩, hdone⟩ := (busEdge_cases hy).running hb
    obtain ⟨x', hx', hbe⟩ := step_running (k := k) hb hb ha hv hy
    obtain rfl := Host.Outcome.next.inj (hx'.symm.trans hx)
    exact ⟨y, hbe, hbusy.trans hb, hdone hd, hok, hstage⟩
  obtain ⟨y, hy, hyb, hyd, hyo, hyf⟩ := beside hc ht
  obtain ⟨z, hz, hzb, hzd, hzo, hzf⟩ := beside hdr hu
  obtain ⟨ebusy, edone, eok, efstage⟩ := statusAfter_agree v (hyb.trans hzb.symm) (hyd.trans hzd.symm)
    (hyo.trans hzo.symm) (hyf.trans hzf.symm)
  rw [← hy.status, ← hz.status] at ebusy edone eok efstage
  exact ⟨hy.seq.trans hz.seq.symm, hy.lines.trans hz.lines.symm, hy.sync.trans (hcd ▸ hz.sync.symm),
    hy.result.trans hz.result.symm, hy.buf.trans hz.buf.symm, ebusy, edone, eok, efstage,
    hy.trace.trans hz.trace.symm, hy.draws.trans (hcd ▸ hz.draws.symm)⟩

/-! ## A finish and a host access in one cycle (10_state.md R45) -/

/-- The edge of the sequencer in the last cycle of a wire event. -/
theorem sequencerEdge_last {e : Event} {s : State} (hb : s.status.busy = true) (he : s.seq.event = some e)
    (hp : s.seq.phase = .high) (hc : s.seq.count.toNat ≤ 1) : sequencerEdge s = eventDone e s := by
  have last : ¬ 1 < s.seq.count := by
    rw [BitVec.lt_def]
    exact not_lt.mpr hc
  simp only [sequencerEdge, tickEvent, hb, he, hp, if_true, if_neg last]

/-- The end of a wire event that ends the operation leaves no wire event. -/
theorem eventDone_finished {e : Event} {s u : State} (hb : s.status.busy = true) (hu : eventDone e s = .next u)
    (hub : u.status.busy = false) : u.seq.event = none := by
  by_contra hne
  have h := eventDone_status hu
  rw [statusAfter, if_neg hne] at h
  rw [h, hb] at hub
  cases hub

/-- A step in whose cycle a finish and a host access fall: the finish is written over what the access left. -/
theorem step_finish {e : Event} {s u x : State} (hb : s.status.busy = true) (he : s.seq.event = some e)
    (hp : s.seq.phase = .high) (hc : s.seq.count.toNat ≤ 1) (hu : eventDone e s = .next u)
    (hub : u.status.busy = false) (hr : (inputNow s).rstN = true) (hx : busEdge (inputNow s) s = .next x) :
    ∃ t, step s = .next t ∧
      (t.status.busy = false ∧ t.status.done = true ∧ t.status.ok = u.status.ok ∧ t.status.fstage = u.status.fstage ∧
        t.result = u.result) ∧
      t.status.err = x.status.err ∧ t.status.errCode = x.status.errCode ∧ t.env.prdata = x.env.prdata := by
  obtain ⟨t, ht, hbe⟩ :=
    step_running (s := s) (k := hostSide s) hb hb hr ((sequencerEdge_last hb he hp hc).trans hu) hx
  have hst : t.status = statusFinish u.status.ok u.status.fstage x.status :=
    hbe.status.trans (if_pos (eventDone_finished hb hu hub))
  refine ⟨t, ht, ?_, ?_, ?_, hbe.prdata⟩
  · rw [hst]
    exact ⟨rfl, rfl, rfl, rfl, hbe.result⟩
  · rw [hst]
    rfl
  · rw [hst]
    rfl

/-- Settles O48: of the access the finish leaves ERR, ERRCODE and the read data. -/
theorem finishWinsOverClear : Obligations.FinishWinsOverClear := by
  intro e s u hb he hp hc hu hub
  refine ⟨?_, ?_, ?_⟩
  · rintro a w ⟨hr, hw, rfl, rfl⟩ ha
    obtain ⟨t, ht, hfin, herr, hcode, -⟩ :=
      step_finish (x := acknowledge (inputNow s).pwdata s) hb he hp hc hu hub hr
        ((busEdge_write hw s).trans (by rw [ha]; rfl))
    exact ⟨t, ht, hfin, herr, hcode⟩
  · rintro a w ⟨hr, hw, rfl, rfl⟩ ha
    obtain ⟨t, ht, hfin, herr, hcode, -⟩ :=
      step_finish hb he hp hc hu hub hr ((busEdge_write hw s).trans (hostWrite_refused ha hb _))
    exact ⟨t, ht, hfin, herr, hcode⟩
  · rintro a ⟨hr, hw, rfl⟩ ha
    obtain ⟨t, ht, hfin, herr, hcode, hdata⟩ :=
      step_finish hb he hp hc hu hub hr ((busEdge_read hw s).trans (by rw [ha, hostRead_bufdata_busy hb]))
    exact ⟨t, ht, hfin, herr, hcode, hdata⟩

/-! ## BUF -/

theorem fetch_buf {p : List SeqStep} {s t : State} (hp : SeqStep.storeByte ∉ p) (h : fetch p s = .next t) :
    t.buf = s.buf := by
  obtain ⟨u, rest, v, hv, hpass, hf⟩ := fetch_cases p s
  rw [hv] at h
  obtain rfl := Host.Outcome.next.inj h
  rw [← hpass.buf hp]
  cases hf <;> rfl

theorem eventDone_buf {e : Event} {s t : State} (hp : SeqStep.storeByte ∉ s.seq.todo) (h : eventDone e s = .next t) :
    t.buf = s.buf := by
  cases e with
  | strobe k p =>
    cases hn : nextPos k s.seq.bitCount s.sync.last p with
    | none =>
      obtain rfl := nextPos_eq_none hn
      rw [eventDone, strobeDone_last hn] at h
      exact (fetch_buf (p := s.seq.todo) hp h :)
    | some q =>
      obtain rfl := Host.Outcome.next.inj ((strobeDone_next hn).symm.trans h)
      simp
  | pulse | settle => exact fetch_buf (s := noteEvent _ s) hp h

theorem sequencerEdge_buf {s t : State} (hp : s.status.busy = true → SeqStep.storeByte ∉ s.seq.todo)
    (h : sequencerEdge s = .next t) : t.buf = s.buf := by
  unfold sequencerEdge at h
  split at h
  · next hb =>
    split at h
    · exact fetch_buf (hp hb) h
    · unfold tickEvent at h
      split at h
      · obtain rfl := Host.Outcome.next.inj h
        rfl
      · split at h <;> obtain rfl := Host.Outcome.next.inj h <;> rfl
      · split at h
        · obtain rfl := Host.Outcome.next.inj h
          rfl
        · exact eventDone_buf (hp hb) h
  · obtain rfl := Host.Outcome.next.inj h
    rfl

/-- A bus cycle without an idle BUFDATA write leaves BUF, and leaves no running operation a byte to store that had none. -/
theorem BusCycle.buf {c : CycleInput} {s t : State} (h : BusCycle c s t)
    (hw : isWrite c = true → hostReg c.paddr = .bufdata → s.status.busy = true)
    (hs : s.status.busy = true → SeqStep.storeByte ∉ s.seq.todo) :
    t.buf = s.buf ∧ (t.status.busy = true → SeqStep.storeByte ∉ t.seq.todo) := by
  cases h with
  | silent _ => exact ⟨rfl, hs⟩
  | read _ h =>
    cases h with
    | plain _ | busy _ _ => exact ⟨rfl, hs⟩
    | idle _ _ => simpa using hs
  | write hc h =>
    cases h with
    | ignored _ | ctrl _ | error _ | status _ | timing _ _ | devcfg _ _ | bufptr _ _ => exact ⟨rfl, hs⟩
    | bufdata hreg hb => exact absurd (hb.symm.trans (hw hc hreg)) (by decide)
    | accepted _ _ _ _ _ _ _ _ _ hsteps => exact ⟨rfl, fun _ => hsteps⟩

/-- Settles O47: neither the bus cycle nor the sequencer's edge writes BUF then, and a reset edge keeps it. -/
theorem bufferChangesOnlyByPortOrBlockRead : Obligations.BufferChangesOnlyByPortOrBlockRead := by
  intro s t hw hs ht
  by_cases hr : (inputNow s).rstN = true
  · obtain ⟨u, v, hu, hv, rfl⟩ := step_run hr ht
    obtain ⟨hbuf, hstore⟩ := (busEdge_cases hu).buf hw hs
    rw [dropInput_buf, syncEdge_buf, sequencerEdge_buf hstore hv, hbuf]
  · obtain rfl := Host.Outcome.next.inj ((step_reset hr).symm.trans ht)
    exact readDuringReset_buf _ s

end Sys2Proof.Machine
end

section
/-! SUPPORT and statements. Acceptance of a command, and the host registers one by one. -/

namespace Sys2Proof.Machine

/-! ## Commands (10_state.md R43) -/

/-- Settles O8: `exec` of a well-formed operation is `accepted`. -/
theorem idleCommandIsAccepted : Obligations.IdleCommandIsAccepted := by
  intro i s hc hw hb
  obtain ⟨steps, fin, n, he, -⟩ := exec_idle hc hw hb
  exact ⟨_, he, rfl, rfl, rfl, rfl, rfl, rfl, rfl, rfl, rfl, rfl, rfl, rfl, rfl, rfl, rfl, rfl⟩

/-- Settles O9: the decode step checks BUSY before it looks at the operation. -/
theorem busyCommandIsRefused : Obligations.BusyCommandIsRefused :=
  fun _ hb => ⟨fun _ hc => exec_busy hc hb, hostWrite_refused (by decide) hb⟩

/-! ## Words and their fields -/

theorem bit_getLsbD_zero (b : Bool) : (bit b).getLsbD 0 = b := by cases b <;> rfl

/-- The low byte of a word, zero-extended. -/
theorem byteWord_lowByte (w : Word) : byteWord (w.extractLsb' 0 8) = w &&& 0x000000FF#32 := by
  apply BitVec.eq_of_toNat_eq
  rw [byteWord, BitVec.toNat_and, BitVec.toNat_setWidth, BitVec.extractLsb'_toNat, Nat.shiftRight_zero]
  show w.toNat % 2 ^ 8 % 2 ^ 32 = w.toNat &&& (2 ^ 8 - 1)
  rw [Nat.and_two_pow_sub_one_eq_mod]
  omega

/-- STATUS with BUSY read as 0. -/
theorem statusWord_withoutBusy (s : State) :
    statusWord { s with status := { s.status with busy := false } } = statusWord s &&& 0xFFFFFFFE#32 := by
  refine Eq.symm ((BitVec.and_append (x₂ := BitVec.allOnes 31) (y₂ := 0#1)).trans ?_)
  rw [BitVec.and_allOnes, BitVec.and_zero]
  rfl

theorem statusWord_bits (s : State) :
    (statusWord s).getLsbD 0 = s.status.busy ∧ (statusWord s).getLsbD 1 = s.status.done ∧
      (statusWord s).getLsbD 2 = s.status.ok ∧ (statusWord s).getLsbD 3 = s.status.err ∧
      (statusWord s).getLsbD 16 = s.lines.c2ck ∧ (statusWord s).getLsbD 17 = s.lines.oe ∧
      (statusWord s).getLsbD 18 = s.lines.c2d ∧ (statusWord s).getLsbD 19 = s.sync.last := by
  unfold statusWord
  simp only [BitVec.getLsbD_append, Nat.reduceLT, Nat.reduceSub, if_true, if_false, bit_getLsbD_zero, and_self]

theorem statusWord_fields (s : State) :
    (statusWord s).extractLsb' 4 4 = s.status.errCode ∧ (statusWord s).extractLsb' 8 2 = s.status.fstage ∧
      (statusWord s).extractLsb' 10 6 = 0 ∧ (statusWord s).extractLsb' 20 12 = 0 := by
  unfold statusWord
  simp (disch := decide) only [BitVec.extractLsb'_append_eq_of_le, BitVec.extractLsb'_append_eq_of_add_le]
  simp

/-- Settles O58: each bit or field stands at its place in the word. -/
theorem statusWordLayout : Obligations.StatusWordLayout := by
  intro s
  obtain ⟨hbusy, hdone, hok, herr, hck, hoe, hd, hsync⟩ := statusWord_bits s
  obtain ⟨hcode, hstage, hzero, htop⟩ := statusWord_fields s
  exact ⟨hbusy, hdone, hok, herr, hcode, hstage, hzero, hck, hoe, hd, hsync, htop⟩

/-! ## Registers while an operation runs (10_state.md R46) -/

/-- Settles O49: a refused access raises its error alone, and of the other registers only STATUS shows BUSY. -/
theorem busyRefusesAccesses : Obligations.BusyRefusesAccesses := by
  intro s w hb
  refine ⟨fun r hr => hostWrite_refused hr hb w, hostRead_bufdata_busy hb,
    fun r hr => ⟨hostRead_plain hr s, ?_⟩, rfl, rfl, rfl, rfl⟩
  cases r with
  | bufdata => exact absurd rfl hr
  | status => exact statusWord_withoutBusy s
  | _ => rfl

/-! ## Registers while idle -/

/-- A write that BUSY would refuse has its effect while idle. -/
theorem unlessBusy_idle {s : State} (hb : s.status.busy = false) (f : State → State) :
    (.next (unlessBusy f s) : Outcome State Fault Refusal) = .next (f s) := by simp [unlessBusy, hb]

/-- Settles O50: the write stores `timingOfWord`, which is legal. -/
theorem timingWriteStoresLegalValues : Obligations.TimingWriteStoresLegalValues := by
  intro w s hb
  refine ⟨{ s with timing := timingOfWord w }, unlessBusy_idle hb _, rfl, ?_, legalThigh_toNat _, ?_, rfl,
    legalTiming_timingOfWord w⟩
  · simp [timingOfWord, legalTlow]
  · simp [timingOfWord, legalUsdiv]

/-- RESULT as read, field by field. -/
theorem resultWord_fields (r : Result) :
    (resultWord r).extractLsb' 0 8 = r.data ∧ (resultWord r).extractLsb' 8 8 = r.resp ∧
      (resultWord r).extractLsb' 16 9 = r.count ∧ (resultWord r).extractLsb' 25 7 = 0 := by
  unfold resultWord
  simp (disch := decide) only [BitVec.extractLsb'_append_eq_of_le, BitVec.extractLsb'_append_eq_of_add_le]
  simp

/-- Settles O51: each register stores its bits of the word, and reads them zero-extended. -/
theorem fieldRegistersReadBack : Obligations.FieldRegistersReadBack := by
  intro w s
  obtain ⟨hdata, hresp, hcount, hzero⟩ := resultWord_fields s.result
  refine ⟨fun hb => ⟨?_, ?_, ?_⟩, hdata, hresp, hcount, hzero, rfl, rfl⟩
  · exact ⟨{ s with fpdat := w.extractLsb' 0 8 }, unlessBusy_idle hb _, rfl, byteWord_lowByte w⟩
  · exact ⟨{ s with ptr := w.extractLsb' 0 8 }, unlessBusy_idle hb _, rfl, byteWord_lowByte w⟩
  · exact ⟨{ s with ie := w.getLsbD 0 }, rfl, rfl, BitVec.and_one_eq_setWidth_ofBool_getLsbD.symm⟩

/-- A read of BUFDATA while idle. -/
theorem hostRead_bufdata_idle {s : State} (hb : s.status.busy = false) :
    hostRead .bufdata s =
      notePrdata (byteWord (bufByte s s.ptr.toNat)) (bumpPtr (drawForByte s.ptr.toNat s)) := by
  simp [hostRead, readReg, readEffect, hb]

/-- Settles O52: by the law of a read after a write, and by the two cases of the byte at PTR. -/
theorem bufdataPortReadsWhatWasWritten : Obligations.BufdataPortReadsWhatWasWritten := by
  intro w s hb
  refine ⟨⟨bumpPtr (setBufByte s.ptr.toNat (w.extractLsb' 0 8) s), unlessBusy_idle hb _, rfl, ?_, ?_⟩,
    ?_, ?_⟩
  · simp [Memory.read_write]
  · intro k hk
    simp [Memory.read_write, hk]
  · intro v hv
    rw [hostRead_bufdata_idle hb]
    simp only [bufByte, drawForByte, hv]
    rfl
  · intro hv
    rw [hostRead_bufdata_idle hb]
    simp only [bufByte, drawForByte, hv]
    rfl

/-- The offsets from 0x20 on (10_state.md R40). -/
theorem hostReg_reserved {a : BitVec 6} (h : 0x20 ≤ a.toNat) : hostReg a = .reserved := by
  unfold hostReg
  split
  case h_9 => rfl
  all_goals omega

/-- Settles O53: every such offset names the reserved register. -/
theorem reservedOffsetsReadZeroIgnoreWrites : Obligations.ReservedOffsetsReadZeroIgnoreWrites := by
  refine ⟨fun a w s h => ?_, fun a b h => ?_⟩
  · rw [hostReg_reserved h]
    exact ⟨rfl, rfl, rfl⟩
  · simp only [hostReg, h]

/-- Settles O54: the write is the acknowledgement. -/
theorem statusWriteOneToClear : Obligations.StatusWriteOneToClear := by
  intro w s
  refine ⟨acknowledge w s, rfl, rfl, rfl, rfl, rfl, ?_, ?_, rfl⟩
  · show (s.status.done && !w.getLsbD 1) = _
    cases w.getLsbD 1 <;> simp
  · show (s.status.err && !w.getLsbD 3) = _
    cases w.getLsbD 3 <;> simp

end Sys2Proof.Machine
end

section
/-! Reads without a side effect (20_memory.md R69). -/

namespace Sys2Proof.Machine

/-- CMD is write-only: it reads as 0 (10_state.md R34). -/
theorem readReg_cmd (s : State) : readReg .cmd s = 0 := rfl

/-- Settles O57: a read of another register notes its data, which is the whole change of state. -/
theorem onlyBufdataReadHasSideEffect : Obligations.OnlyBufdataReadHasSideEffect :=
  fun _ s h => ⟨hostRead_plain h s, readReg_cmd s⟩

end Sys2Proof.Machine
end

section
/-! SUPPORT and statements. The decoder on a CMD word with given fields, and the round trip at the three levels of
encoding (30_encoding.md R80-R104). -/

namespace Sys2Proof

/-! ## The operation each OP value selects, whatever stands in the fields it does not use (R89, R90, R99) -/

section
variable (b : Byte) (w : Half)

theorem decodeCmd_aw : decodeCmd (cmdWord 0x01 b w) = .ok (.aw b) := by simp [decodeCmd]
theorem decodeCmd_ar : decodeCmd (cmdWord 0x02 b w) = .ok .ar := by simp [decodeCmd]
theorem decodeCmd_dw : decodeCmd (cmdWord 0x03 b w) = .ok (.dw b) := by simp [decodeCmd]
theorem decodeCmd_dr : decodeCmd (cmdWord 0x04 b w) = .ok .dr := by simp [decodeCmd]
theorem decodeCmd_okq : decodeCmd (cmdWord 0x09 b w) = .ok .okq := by simp [decodeCmd]
theorem decodeCmd_cinit : decodeCmd (cmdWord 0x0A b w) = .ok (.cinit b) := by simp [decodeCmd]
theorem decodeCmd_wrb : decodeCmd (cmdWord 0x0B b w) = .ok (.wrb b) := by simp [decodeCmd]
theorem decodeCmd_rdr : decodeCmd (cmdWord 0x0C b w) = .ok .rdr := by simp [decodeCmd]
theorem decodeCmd_reset : decodeCmd (cmdWord 0x10 b w) = .ok .reset := by simp [decodeCmd]
theorem decodeCmd_init : decodeCmd (cmdWord 0x11 b w) = .ok .init := by simp [decodeCmd]
theorem decodeCmd_wsfr : decodeCmd (cmdWord 0x12 b w) = .ok (.wsfr b (lowByte w)) := by simp [decodeCmd]
theorem decodeCmd_rsfr : decodeCmd (cmdWord 0x13 b w) = .ok (.rsfr b) := by simp [decodeCmd]
theorem decodeCmd_wdir : decodeCmd (cmdWord 0x14 b w) = .ok (.wdir b (lowByte w)) := by simp [decodeCmd]
theorem decodeCmd_rdir : decodeCmd (cmdWord 0x15 b w) = .ok (.rdir b) := by simp [decodeCmd]
theorem decodeCmd_erase : decodeCmd (cmdWord 0x16 b w) = .ok .erase := by simp [decodeCmd]
theorem decodeCmd_wblk : decodeCmd (cmdWord 0x17 b w) = .ok (.wblk w b) := by simp [decodeCmd]
theorem decodeCmd_rblk : decodeCmd (cmdWord 0x18 b w) = .ok (.rblk w b) := by simp [decodeCmd]

end

/-- WFB decodes when its operands are legal (R92). -/
theorem decodeCmd_wfb {b : Byte} {w : Half} (h : WellFormed (.wfb b (expectedBit w)) = true) :
    decodeCmd (cmdWord 0x08 b w) = .ok (.wfb b (expectedBit w)) := by
  have legal : ¬ (b == 0x00#8 && expectedBit w) = true := by simpa [WellFormed, ← imp_iff_not_or] using h
  simp [decodeCmd, legal]

/-- The combination of R92 names no operation. -/
theorem decodeCmd_wfb_illegal {w : Word} (hop : opField w = 0x08) (hb : bField w = 0x00)
    (he : expectedBit (wField w) = true) : decodeCmd w = .error .illegalOperand := by
  simp [decodeCmd, hop, hb, he]

/-- The OP values of R91 select no operation. -/
theorem decodeCmd_illegalOp {w : Word}
    (h : opField w = 0x00 ∨ (0x05 ≤ (opField w).toNat ∧ (opField w).toNat ≤ 0x07) ∨
      (0x0D ≤ (opField w).toNat ∧ (opField w).toNat ≤ 0x0F) ∨ 0x19 ≤ (opField w).toNat) :
    decodeCmd w = .error .illegalOp := by
  rw [← BitVec.toNat_inj, show (0x00 : Byte).toNat = 0 from rfl] at h
  unfold decodeCmd
  split
  case h_19 => rfl
  all_goals omega

/-! ## Statements about words -/

/-- Settles O1: each OP value selects its operation, and the field encodings of WFB, WSFR and WDIR read back. -/
theorem decodeEncodeRoundTrip : Obligations.DecodeEncodeRoundTrip := by
  intro i hw
  cases i with
  | aw a => exact decodeCmd_aw _ _
  | ar => exact decodeCmd_ar 0 0
  | dw v => exact decodeCmd_dw _ _
  | dr => exact decodeCmd_dr 0 0
  | wfb m e =>
    have h := decodeCmd_wfb (b := m) (w := expectedField e) (by rwa [expectedBit_expectedField])
    rwa [expectedBit_expectedField] at h
  | okq => exact decodeCmd_okq 0 0
  | cinit c => exact decodeCmd_cinit _ _
  | wrb v => exact decodeCmd_wrb _ _
  | rdr => exact decodeCmd_rdr 0 0
  | reset => exact decodeCmd_reset 0 0
  | init => exact decodeCmd_init 0 0
  | wsfr a v => exact (decodeCmd_wsfr _ _).trans (by rw [lowByte_valueField])
  | rsfr a => exact decodeCmd_rsfr _ _
  | wdir a v => exact (decodeCmd_wdir _ _).trans (by rw [lowByte_valueField])
  | rdir a => exact decodeCmd_rdir _ _
  | erase => exact decodeCmd_erase 0 0
  | wblk fa n => exact decodeCmd_wblk _ _
  | rblk fa n => exact decodeCmd_rblk _ _
  -- the other two levels compare constants only
  | c2Dr | c2Dw _ | c2Ar | c2Aw _ => rfl
  | fpGetVersion | fpGetDerivative | fpDeviceErase | fpBlockRead | fpBlockWrite | fpPageErase | fpDirectRead
  | fpDirectWrite | fpIndirectRead | fpIndirectWrite => rfl

/-- The word of an operation decodes to it. -/
theorem decodeCmd_encodeCmd {i : Instr} (hc : IsCommand i = true) (hw : WellFormed i = true) :
    decodeCmd (encodeCmd i) = .ok i := by
  have h := decodeEncodeRoundTrip i hw
  unfold IsCommand at hc
  unfold encodeCmd
  cases he : encode i with
  | hostCommand w => rwa [he] at h
  | wireFrame ins b => simp [he] at hc
  | commandByte c => simp [he] at hc

/-- Settles O2: closed words, evaluated. -/
theorem specWordsDecode : Obligations.SpecWordsDecode := by
  unfold Obligations.SpecWordsDecode
  decide

/-- Settles O3: the equation of each operation holds for every value of the other fields. -/
theorem unusedCommandBitsAreIgnored : Obligations.UnusedCommandBitsAreIgnored := fun b w =>
  ⟨decodeCmd_aw b w, decodeCmd_ar b w, decodeCmd_dw b w, decodeCmd_dr b w, decodeCmd_wfb, decodeCmd_okq b w,
    decodeCmd_cinit b w, decodeCmd_wrb b w, decodeCmd_rdr b w, decodeCmd_reset b w, decodeCmd_init b w,
    decodeCmd_wsfr b w, decodeCmd_rsfr b w, decodeCmd_wdir b w, decodeCmd_rdir b w, decodeCmd_erase b w⟩

end Sys2Proof
end

section
/-! SUPPORT and statements. The words that are refused (30_encoding.md R91, R92), and the wire monitor (R103). -/

namespace Sys2Proof.Machine

/-! ## Refused words -/

/-- Settles O4: the word names no operation, so an idle write of it raises the error of its decoding. -/
theorem illegalOpcodeRaisesIllegalOp : Obligations.IllegalOpcodeRaisesIllegalOp := by
  intro w s hb hop
  have hd := decodeCmd_illegalOp hop
  exact ⟨hd, hostWrite_illegal hd hb⟩

/-- The one combination of R92. -/
theorem wellFormed_eq_false_iff (i : Instr) : WellFormed i = false ↔ i = .wfb 0x00 true := by
  cases i with
  | wfb m e => simp [WellFormed]
  | _ => exact ⟨nofun, nofun⟩

/-- Settles O5: the refused WFB is the ill-formed instruction, as a meaning and as a word; its neighbour is accepted. -/
theorem wfbZeroMaskExpectedOneIsRefused : Obligations.WfbZeroMaskExpectedOneIsRefused := by
  refine ⟨wellFormed_eq_false_iff, fun s hb => ⟨exec_illFormed rfl hb, fun w hop hmask he => ?_, ?_⟩⟩
  · exact hostWrite_illegal (decodeCmd_wfb_illegal hop hmask he) hb
  · obtain ⟨steps, fin, n, hexec, -⟩ := exec_idle (i := .wfb 0x00 false) rfl rfl hb
    exact ⟨_, hexec, rfl⟩

/-! ## The wire monitor -/

/-- Bit `j` of the number whose bits are the list, lowest first. -/
theorem testBit_foldr_bits (bs : List Bool) (j : Nat) :
    (bs.foldr (fun (b : Bool) n => b.toNat + 2 * n) 0).testBit j = bs.getD j false := by
  induction bs generalizing j with
  | nil => simp
  | cons b bs ih =>
    rw [List.foldr_cons, Nat.add_comm, ← Nat.bit_val]
    cases j with
    | zero => simp
    | succ j => simpa [Nat.testBit_bit_succ] using ih j

/-- The bits of a byte in wire order give the byte (40_signal_byte.md R123). -/
@[simp] theorem byteOfBits_byteBits (v : Byte) : byteOfBits (byteBits v) = v := by
  apply BitVec.eq_of_getLsbD_eq
  intro j hj
  rw [byteOfBits, BitVec.getLsbD_ofNat, testBit_foldr_bits]
  simp [byteBits, hj]

/-- The monitor takes data strobes as the bits they show. -/
theorem takeBits_map {ev : Bool → WireEvent} (hev : ∀ b, (ev b).level = some b) (bs : List Bool)
    (rest : List WireEvent) : takeBits bs.length (bs.map ev ++ rest) = some (bs, rest) := by
  induction bs with
  | nil => rfl
  | cons b bs ih => simp [takeBits, hev, ih]

theorem takeBits_sent (v : Byte) (rest : List WireEvent) :
    takeBits 8 ((byteBits v).map .o ++ rest) = some (byteBits v, rest) := takeBits_map (fun _ => rfl) (byteBits v) rest

theorem takeBits_read (v : Byte) (rest : List WireEvent) :
    takeBits 8 ((byteBits v).map .i ++ rest) = some (byteBits v, rest) := takeBits_map (fun _ => rfl) (byteBits v) rest

/-- The two strobes of the instruction code or of the reserved field. -/
theorem takeBits_two (a b : Bool) (rest : List WireEvent) :
    takeBits 2 (.o a :: .o b :: rest) = some ([a, b], rest) := rfl

/-- The monitor takes a WAIT up to its first sample 1 (40_signal_byte.md R120). -/
theorem takeWait_waitTrace (n : Nat) (rest : List WireEvent) : takeWait (waitTrace n ++ rest) = some (n, rest) := by
  induction n with
  | zero => rfl
  | succ n ih =>
    rw [waitTrace, List.append_assoc] at ih ⊢
    rw [List.replicate_succ, List.cons_append, takeWait, ih]
    rfl

theorem takeMark_z (rest : List WireEvent) : takeMark (.z :: rest) = some rest := rfl

/-- Settles O6: the instruction code tells the kind, and each part of the frame is taken off in turn. -/
theorem monitorReadsEveryFrame : Obligations.MonitorReadsEveryFrame := by
  intro f rest
  cases f with
  | addressWrite a => simp [Frame.trace, readFrame, takeMark_z, takeBits_two, takeBits_sent]
  | addressRead x => simp [Frame.trace, readFrame, takeMark_z, takeBits_two, takeBits_read]
  | dataWrite v w => simp [Frame.trace, readFrame, takeMark_z, takeBits_two, takeBits_sent, takeWait_waitTrace]
  | dataRead w d => simp [Frame.trace, readFrame, takeMark_z, takeBits_two, takeBits_read, takeWait_waitTrace]

end Sys2Proof.Machine
end

section
/-! SUPPORT and statements. Wire instructions and command codes as the sequencer runs them, and words of the opcode
table placed for a step. -/

namespace Sys2Proof.Machine

/-! ## Wire instructions -/

/-- Settles O29: the instruction begins its frame, and the run of a whole frame leaves `frameEnd`. -/
theorem wireInstructionRunsItsFrame : Obligations.WireInstructionRunsItsFrame := by
  intro f s bs h i
  obtain ⟨b, hrun⟩ := runEvents_frame f bs h
  let u := frameEnd f.kind s f.byte f.lastBit b (s.env.trace ++ f.trace)
  have begins : exec i s = .next (f.begin s) := by cases f <;> rfl
  have runs : runEvents bs (f.begin s) = fetchNext u := by
    have h0 := hrun s []
    rwa [List.append_nil, show runEvents [] = .next from funext runEvents_nil, andThen_right] at h0
  exact ⟨f.begin s, u, begins, rfl, rfl, runs, rfl, rfl, rfl, (lastDriven_frame f _).symm, by cases f <;> rfl, rfl, rfl,
    rfl, rfl, rfl, rfl, rfl, rfl, rfl, rfl, rfl, rfl, rfl, rfl, rfl, rfl, rfl, rfl, rfl⟩

/-! ## Command codes -/

/-- A command code of the table runs `command_init` of its byte. -/
theorem exec_commandCode {i : Instr} {c : Byte} (h : decodeCommand c = .ok i) (s : State) :
    exec i s = .next (commandInit c s) := by
  have hc := issueCommand_eq c s
  rwa [issueCommand, h] at hc

/-- The table of command codes (30_encoding.md R95). -/
def commandTable : List (Instr × Byte) :=
  [(.fpGetVersion, 0x01), (.fpGetDerivative, 0x02), (.fpDeviceErase, 0x03), (.fpBlockRead, 0x06), (.fpBlockWrite, 0x07),
    (.fpPageErase, 0x08), (.fpDirectRead, 0x09), (.fpDirectWrite, 0x0A), (.fpIndirectRead, 0x0B),
    (.fpIndirectWrite, 0x0C)]

theorem decodeCommand_of_mem : ∀ x ∈ commandTable, decodeCommand x.2 = .ok x.1 := by decide

/-- Settles O30: `exec` of the code is `commandInit` of its byte. -/
theorem commandCodeBeginsCommandInit : Obligations.CommandCodeBeginsCommandInit := fun i c s h =>
  ⟨commandInit c s, exec_commandCode (decodeCommand_of_mem (i, c) h) s, rfl, rfl, rfl, rfl, rfl, rfl, rfl, rfl, rfl, rfl,
    rfl, rfl, rfl, rfl, rfl, rfl, rfl, rfl, rfl, rfl, rfl, rfl, rfl, rfl⟩

/-! ## Words of the opcode table -/

theorem decodeWire_not_command (ins : BitVec 2) (b : Byte) : IsCommand (decodeWire ins b) = false := by
  unfold decodeWire
  split_ifs <;> rfl

theorem decodeCommand_not_command {c : Byte} {i : Instr} (h : decodeCommand c = .ok i) : IsCommand i = false := by
  unfold decodeCommand at h
  split at h <;> cases h <;> rfl

theorem hostReg_hostOffset (r : HostReg) : hostReg (hostOffset r) = r := by cases r <;> decide

/-- A host write to the offset of a register writes that register. -/
theorem busEdge_writeTo {c : CycleInput} {r : HostReg} {w : Word} {s : State} (hc : isWrite c = true)
    (ha : c.paddr = hostOffset r) (hw : c.pwdata = w) : busEdge c s = hostWrite r w s := by
  rw [busEdge_write hc, ha, hostReg_hostOffset, hw]

/-- A CMD word of the opcode table is the number itself. -/
theorem tableEncoding_hostCommand {nbits w : Nat} {v : Word} (h : tableEncoding nbits w = some (.hostCommand v)) :
    v = BitVec.ofNat 32 w := by
  unfold tableEncoding at h
  split_ifs at h <;> cases h <;> rfl

/-- A placed step is fetched by the next edge. -/
theorem step_placeStep (st : SeqStep) (s : State) :
    step (placeEncoding.placeStep st s) = andThen (fetch [st] (placeEncoding.placeStep st s)) fun v =>
      .next (dropInput (syncEdge (inputNow (placeEncoding.placeStep st s)) s.lines v)) := step_quiet rfl

/-- Settles O33: the placed CMD word is a host write in this cycle; a placed frame or code is the step the edge fetches. -/
theorem placedTableWordIsRun : Obligations.PlacedTableWordIsRun := by
  intro nbits w i s hd hb p
  unfold decodeTableWord at hd
  cases he : tableEncoding nbits w with
  | none => simp [he] at hd
  | some e =>
    have hp : p = placeEncoding e s := by simp only [p, State.withFetchWord, he]
    have hi : decode e = .ok i := by
      rw [he] at hd
      cases h : decode e with
      | error x => simp [h, Except.toOption] at hd
      | ok j => simpa [h, Except.toOption] using hd
    cases e with
    | hostCommand v =>
      obtain rfl := tableEncoding_hostCommand he
      refine ⟨fun _ => ?_, fun hc => by simp [(decodeCmd_ok hi).1] at hc⟩
      rw [hp]
      let q := placeEncoding (.hostCommand (BitVec.ofNat 32 w)) s
      exact step_command (s := q) rfl (busEdge_writeTo (r := .cmd) rfl rfl rfl) hi hb
    | wireFrame ins byte =>
      obtain rfl := Except.ok.inj hi
      refine ⟨fun hc => by simp [decodeWire_not_command] at hc, fun _ => ?_⟩
      rw [hp]
      exact step_placeStep _ s
    | commandByte code =>
      refine ⟨fun hc => by simp [decodeCommand_not_command hi] at hc, fun _ => ?_⟩
      rw [hp, exec_commandCode hi, ← issueCommand_eq]
      exact step_placeStep _ s

end Sys2Proof.Machine
end

section
/-! SUPPORT and statement. A host program of one operation (30_encoding.md R105). -/

namespace Sys2Proof.Machine

/-! ## The first wire event of an operation -/

/-- The steps that begin a wire event in every state. -/
def beginsEvent : SeqStep → Bool
  | .frame _ _ => true
  | .command _ => true
  | .poll _ _ => true
  | .check => true
  | .pulse => true
  | .settle => true
  | .pollTest _ _ => false
  | .checkRecord => false
  | .stopIfRejected => false
  | .sendBlock => false
  | .receiveBlock => false
  | .storeByte => false
  | .nextIndex => false

/-- The fetch of such a step finishes nothing. -/
theorem fetch_beginsEvent {st : SeqStep} (h : beginsEvent st = true) (rest : List SeqStep) (s : State) :
    ∃ t, fetch (st :: rest) s = .next t ∧ t.status = s.status := by
  cases st with
  | frame ins b =>
    obtain ⟨k, v, hf⟩ := issueFrame_begins ins b (withTodo rest s)
    exact ⟨_, hf, rfl⟩
  | command c => exact ⟨_, issueCommand_eq c _, rfl⟩
  | poll _ _ | check | pulse | settle => exact ⟨_, rfl, rfl⟩
  | pollTest _ _ | checkRecord | stopIfRejected | sendBlock | receiveBlock | storeByte | nextIndex => cases h

/-- The first step of every operation begins a wire event. -/
theorem exec_firstStep {i : Instr} {s : State} (hc : IsCommand i = true) (hw : WellFormed i = true)
    (hb : s.status.busy = false) :
    ∃ st rest fin n, exec i s = .next (accepted (encodeCmd i) (st :: rest) fin n s) ∧ beginsEvent st = true := by
  cases i with
  | wfb m e =>
    simp only [exec, execWfb, hw, Bool.not_true, Bool.and_false, Bool.false_eq_true, if_false]
    exact ⟨_, _, _, _, acceptOp_idle hb _ _ _ _, rfl⟩
  | c2Dr | c2Dw _ | c2Ar | c2Aw _ | fpGetVersion | fpGetDerivative | fpDeviceErase | fpBlockRead | fpBlockWrite
  | fpPageErase | fpDirectRead | fpDirectWrite | fpIndirectRead | fpIndirectWrite => cases hc
  | _ => exact ⟨_, _, _, _, acceptOp_idle hb _ _ _ _, rfl⟩

/-! ## Cycles of the host -/

/-- An idle block in a cycle that completes no access. -/
theorem step_driveBus_silent {s : State} (hb : s.status.busy = false) (hr : (inputNow s).rstN = true)
    (psel penable pwrite : Bool) (a : BitVec 6) (v : Word) (ha : (psel && penable) = false) :
    ∃ t, step (driveBus psel penable pwrite a v s) = .next t ∧ t.status.busy = false ∧
      t.env.inputs = s.env.inputs.tail := by
  let d := driveBus psel penable pwrite a v s
  refine ⟨_, step_idle (s := d) hr (busEdge_silent (c := inputNow d) ha d) hb, ?_, ?_⟩
  · rw [dropInput_status, syncEdge_status]
    exact hb
  · rw [dropInput_env, syncEdge_inputs]
    rfl

/-- An idle block in the access cycle of an operation: the operation is accepted and runs. -/
theorem step_driveBus_command {i : Instr} {s : State} (hc : IsCommand i = true) (hw : WellFormed i = true)
    (hb : s.status.busy = false) (hr : (inputNow s).rstN = true) :
    ∃ t, step (driveBus true true true (hostOffset .cmd) (encodeCmd i) s) = .next t ∧ t.status.busy = true ∧
      t.cur = latchedOf (encodeCmd i) := by
  let d := driveBus true true true (hostOffset .cmd) (encodeCmd i) s
  obtain ⟨st, rest, fin, n, hexec, hst⟩ := exec_firstStep (s := d) hc hw hb
  obtain ⟨t, ht, hbusy⟩ :=
    fetch_beginsEvent hst rest (latchWord (encodeCmd i) (accepted (encodeCmd i) (st :: rest) fin n d))
  obtain ⟨-, -, -, -, hcur⟩ := (fetch_kept ht).registers
  have hstep : step d = .next (dropInput (syncEdge (inputNow d) d.lines t)) := by
    rw [step_command (s := d) hr (busEdge_writeTo (r := .cmd) rfl rfl rfl) (decodeCmd_encodeCmd hc hw) hb, hexec,
      andThen_next]
    exact congrArg (andThen · _) ht
  refine ⟨_, hstep, ?_, ?_⟩
  · rw [dropInput_status, syncEdge_status, hbusy]
    rfl
  · rw [dropInput_cur, syncEdge_cur, hcur]
    rfl

/-- A host at the one statement `op`, in the given phase of its transfer. -/
def issuing (i : Instr) (gap : Nat) (phase : BusPhase) (s : State) : HostRun :=
  { HostRun.start [stmtOp i] gap s with phase := phase }

theorem hostCycles_succ {k : Nat} {h h' : HostRun} (hh : hostCycle h = .next h') :
    hostCycles (k + 1) h = hostCycles k h' := by rw [hostCycles, hh]

theorem hostCycle_gap {i : Instr} {gap n : Nat} {s t : State} (h : silentCycle s = .next t) :
    hostCycle (issuing i gap (.idle (n + 1)) s) = .next (issuing i gap (.idle n) t) := by
  show afterCycle (silentCycle s) _ = _
  rw [h]
  rfl

theorem hostCycle_setup {i : Instr} {gap : Nat} {s t : State}
    (h : step (driveBus true false true (hostOffset .cmd) (encodeCmd i) s) = .next t) :
    hostCycle (issuing i gap (.idle 0) s) = .next (issuing i gap .access t) := by
  show afterCycle (step (driveBus true false true (hostOffset .cmd) (encodeCmd i) s)) _ = _
  rw [h]
  rfl

theorem hostCycle_access {i : Instr} {gap : Nat} {s t : State}
    (h : step (driveBus true true true (hostOffset .cmd) (encodeCmd i) s) = .next t) :
    hostCycle (issuing i gap .access s) = .next ((issuing i gap .access s).goto 1 t) := by
  show afterCycle (step (driveBus true true true (hostOffset .cmd) (encodeCmd i) s)) _ = _
  rw [h]
  rfl

/-- Without reset in the coming cycles there is none in this one; after the last given input there is none. -/
theorem rstN_of_take {n : Nat} {s : State} (h : (s.env.inputs.take (n + 1)).all (fun c => c.rstN) = true) :
    (inputNow s).rstN = true ∧ (s.env.inputs.tail.take n).all (fun c => c.rstN) = true := by
  cases hi : s.env.inputs with
  | nil => simp [inputNow, hi, quietInput]
  | cons c r => simpa [inputNow, hi] using h

/-- From `n` idle cycles before its setup cycle on, the host ends its transfer with the operation accepted. -/
theorem hostCycles_issuing {i : Instr} (hc : IsCommand i = true) (hw : WellFormed i = true) (gap n : Nat) {s : State}
    (hb : s.status.busy = false) (hin : (s.env.inputs.take (n + 2)).all (fun c => c.rstN) = true) :
    ∃ h, hostCycles (n + 2) (issuing i gap (.idle n) s) = .next h ∧ h.machine.status.busy = true ∧
      h.machine.cur = latchedOf (encodeCmd i) ∧ h.current = none := by
  obtain ⟨hr, hrest⟩ := rstN_of_take hin
  induction n generalizing s with
  | zero =>
    obtain ⟨t, ht, htb, hti⟩ :=
      step_driveBus_silent hb hr true false true (hostOffset .cmd) (encodeCmd i) rfl
    obtain ⟨hr', -⟩ := rstN_of_take (s := t) (hti ▸ hrest)
    obtain ⟨u, hu, hub, hcur⟩ := step_driveBus_command hc hw htb hr'
    refine ⟨(issuing i gap .access t).goto 1 u, ?_, hub, hcur, rfl⟩
    rw [hostCycles_succ (hostCycle_setup ht), hostCycles_succ (hostCycle_access hu)]
    rfl
  | succ n ih =>
    obtain ⟨t, ht, htb, hti⟩ := step_driveBus_silent hb hr false false false 0 0 rfl
    rw [← hti] at hrest
    obtain ⟨hr', hrest'⟩ := rstN_of_take hrest
    rw [hostCycles_succ (hostCycle_gap ht)]
    exact ih htb hrest hr' hrest'

/-- Settles O59: a program starts in the idle cycles before its transfer. -/
theorem hostProgramIssuesOperation : Obligations.HostProgramIssuesOperation :=
  fun _ gap _ hc hw hb hin => hostCycles_issuing hc hw gap gap hb hin

end Sys2Proof.Machine
end

section
/-! SUPPORT and statements. The signal and byte level (40_signal_byte.md): the strobe from cycle to cycle, its sample, the
WAIT of a silent target, the byte round trip, and the edge at the end of a frame. -/

namespace Sys2Proof.Machine

/-! ## Runs of quiet cycles -/

/-- Every step answers a next state. -/
theorem step_next (s : State) : ∃ t, step s = .next t := by
  by_cases hr : (inputNow s).rstN = true
  · obtain ⟨u, hu⟩ := busEdge_next (inputNow s) s
    obtain ⟨v, hv⟩ := sequencerEdge_next u
    exact ⟨_, step_of_edges hr hu hv⟩
  · exact ⟨_, step_reset hr⟩

/-- The step between two states of one run. -/
theorem step_of_run {n : Nat} {s t u : State} (ht : Host.Core.run core n s = .next t)
    (hu : Host.Core.run core (n + 1) s = .next u) : step t = .next u := by
  obtain ⟨v, hv⟩ := step_next t
  exact hv.trans ((run_step ht hv).symm.trans hu)

theorem quietCycle_rstN {c : CycleInput} (h : QuietCycle c = true) : c.rstN = true := by
  simp only [QuietCycle, Bool.and_eq_true] at h
  exact h.1

/-- The cycle after the first `m` of a quiet run is quiet. -/
theorem quietFor_inputNow {m n : Nat} {s t : State} (h : QuietFor n s = true) (hm : m < n)
    (ht : t.env.inputs = s.env.inputs.drop m) : QuietCycle (inputNow t) = true :=
  (quietFor_succ (n := 0) (quietFor_drop m 1 s (quietFor_le h hm) t ht)).1

/-! ## A strobe from cycle to cycle (40_signal_byte.md R110) -/

/-- Where a strobe is after `j` cycles, for every `j` before its end. -/
theorem run_strobe {k : FrameKind} {p : WirePos} {s : State} (hb : s.status.busy = true)
    (he : s.seq.event = some (.strobe k p)) (hp : s.seq.phase = .setup) (hc : s.lines.c2ck = true)
    (ht : LegalTiming s.timing = true) (hq : QuietFor (strobeCycles s.timing) s = true) {j : Nat}
    (hj : j < strobeCycles s.timing) :
    ∃ v ph n, Host.Core.run core j s = .next v ∧ Within ph n (decide (j = 0 ∨ s.timing.tlow.toNat < j)) s v ∧
      v.env.inputs = s.env.inputs.drop j ∧
      (j = s.timing.tlow.toNat + s.timing.thigh.toNat → ph = .high ∧ ¬ 1 < n) := by
  simp only [LegalTiming, Bool.and_eq_true, decide_eq_true_eq] at ht
  obtain ⟨⟨hlow, hhigh⟩, -⟩ := ht
  have cycles : ∀ v : Byte, (v.setWidth 23).toNat = v.toNat := fun v =>
    BitVec.toNat_setWidth_of_le (by decide)
  exact run_event hb he hp hc (cycles _) (cycles _) hlow (by omega) hq j hj

/-- State `v` is in the last cycle of the strobe at `p`, a cycle without a reset or a host access. -/
structure LastCycle (k : FrameKind) (p : WirePos) (v : State) : Prop where
  quiet : QuietCycle (inputNow v) = true
  busy : v.status.busy = true
  event : v.seq.event = some (.strobe k p)
  phase : v.seq.phase = .high
  count : ¬ 1 < v.seq.count

/-- The edge that ends the last cycle completes the strobe. -/
theorem LastCycle.step {k : FrameKind} {p : WirePos} {v : State} (h : LastCycle k p v) :
    step v = andThen (strobeDone k p v) fun u => .next (dropInput (syncEdge (inputNow v) v.lines u)) :=
  step_high_end h.quiet h.busy h.event h.phase h.count

/-- It leaves the last synchroniser stage in SAMPLE_LATCH. -/
theorem LastCycle.sample {k : FrameKind} {p : WirePos} {v t : State} (h : LastCycle k p v)
    (ht : Machine.step v = .next t) : t.seq.sampleLatch = v.sync.last := by
  rw [h.step] at ht
  cases hu : strobeDone k p v with
  | next u =>
    rw [hu, andThen_next] at ht
    obtain rfl := Host.Outcome.next.inj ht
    rw [dropInput_seq, syncEdge_seq, strobeDone_sample hu]
  | fault r => rw [hu] at ht; cases ht
  | refused r => rw [hu] at ht; cases ht

/-- A strobe comes to its last cycle. -/
theorem run_strobe_last {k : FrameKind} {p : WirePos} {s : State} (hb : s.status.busy = true)
    (he : s.seq.event = some (.strobe k p)) (hp : s.seq.phase = .setup) (hc : s.lines.c2ck = true)
    (ht : LegalTiming s.timing = true) (hq : QuietFor (strobeCycles s.timing) s = true) :
    ∃ v, Host.Core.run core (strobeCycles s.timing - 1) s = .next v ∧ LastCycle k p v := by
  obtain ⟨hlast, hlt⟩ : strobeCycles s.timing - 1 = s.timing.tlow.toNat + s.timing.thigh.toNat ∧
      strobeCycles s.timing - 1 < strobeCycles s.timing := by
    unfold strobeCycles
    omega
  obtain ⟨v, ph, n, hv, hw, hi, hend⟩ := run_strobe hb he hp hc ht hq hlt
  obtain ⟨rfl, hn⟩ := hend hlast
  obtain ⟨-, hstatus, -⟩ := hw.host
  exact ⟨v, hv, quietFor_inputNow hq hlt hi, hstatus ▸ hb, by rw [hw.seq]; exact he, by rw [hw.seq],
    by rw [hw.seq]; exact hn⟩

/-- Settles O34: before its last edge a strobe moves nothing but its phase, its counter, C2CK and the synchroniser. -/
theorem strobeLastsOnePlusLowPlusHigh : Obligations.StrobeLastsOnePlusLowPlusHigh := by
  intro k p s hb he hp hc ht hq
  refine ⟨fun j hj => ?_, ?_⟩
  · obtain ⟨v, ph, n, hv, hw, -, -⟩ := run_strobe hb he hp hc ht hq hj
    obtain ⟨hie, hstatus, hresult, htiming, hfpdat, hptr, hbuf, hcur⟩ := hw.host
    exact ⟨v, hv, hw.lines, by rw [hw.seq], hstatus, hresult, hbuf, hptr, hcur, hie, htiming, hfpdat, hw.trace.1⟩
  · obtain ⟨v, hv, hlast⟩ := run_strobe_last hb he hp hc ht hq
    exact ⟨v, hv, hlast.step, fun _ => hlast.sample⟩

/-! ## The sample of a strobe (40_signal_byte.md R111) -/

/-- The edge that ends a SETUP cycle sets C2CK low, whatever it was. -/
theorem step_setup_c2ck {s : State} {e : Event} (hq : QuietCycle (inputNow s) = true) (hb : s.status.busy = true)
    (he : s.seq.event = some e) (hp : s.seq.phase = .setup) (ck : Bool) :
    step { s with lines := { s.lines with c2ck := ck } } = step s := by
  rw [step_tick hq hb he, step_tick (s := { s with lines := { s.lines with c2ck := ck } }) hq hb he]
  simp only [tickEvent, hp]
  rfl

/-- The first synchroniser stage two edges before holds what the last stage holds now. -/
theorem sync_last_of_two_steps {a b v : State} (ha : (inputNow a).rstN = true) (hb : (inputNow b).rstN = true)
    (hab : step a = .next b) (hbv : step b = .next v) :
    (a.lines.oe = true → v.sync.last = a.lines.c2d) ∧
      ∀ x, (inputNow a).c2di = some x → v.sync.last = c2dLevel a.lines x := by
  obtain ⟨-, -, hdriven, hgiven⟩ := step_sync ha hab
  obtain ⟨hlast, -⟩ := step_sync hb hbv
  exact ⟨fun h => hlast.trans (hdriven h), fun x h => hlast.trans (hgiven x h)⟩

/-- The inputs of the cycle after the first `m`. -/
theorem inputNow_of_drop {l : List CycleInput} {m : Nat} {c : CycleInput} {a : State} (ha : a.env.inputs = l.drop m)
    (hc : l[m]? = some c) : inputNow a = c := by
  rw [inputNow, ha, List.headD_eq_head?_getD, List.head?_drop, hc, Option.getD_some]

/-- In the last cycle of a strobe the last synchroniser stage holds the level of C2D two cycles before. -/
theorem strobe_sample {k : FrameKind} {p : WirePos} {s : State} (hb : s.status.busy = true)
    (he : s.seq.event = some (.strobe k p)) (hp : s.seq.phase = .setup) (hc : s.lines.c2ck = true)
    (ht : LegalTiming s.timing = true) (hq : QuietFor (strobeCycles s.timing) s = true) :
    ∃ v, Host.Core.run core (strobeCycles s.timing - 1) s = .next v ∧ LastCycle k p v ∧
      (s.lines.oe = true → v.sync.last = s.lines.c2d) ∧
      ∀ c x, s.env.inputs[s.timing.tlow.toNat + s.timing.thigh.toNat - 2]? = some c → c.c2di = some x →
        v.sync.last = c2dLevel s.lines x := by
  obtain ⟨m, hm, hS⟩ : ∃ m, s.timing.tlow.toNat + s.timing.thigh.toNat - 2 = m ∧ strobeCycles s.timing = m + 3 := by
    simp only [LegalTiming, Bool.and_eq_true, decide_eq_true_eq] at ht
    unfold strobeCycles
    exact ⟨_, rfl, by omega⟩
  obtain ⟨a, _, _, hra, hwa, hia, -⟩ := run_strobe hb he hp hc ht hq (j := m) (by omega)
  obtain ⟨b, _, _, hrb, -, hib, -⟩ := run_strobe hb he hp hc ht hq (j := m + 1) (by omega)
  obtain ⟨v, hrv, hlast⟩ := run_strobe_last hb he hp hc ht hq
  have hbv : step b = .next v := step_of_run hrb (by rw [hS] at hrv; exact hrv)
  obtain ⟨hdriven, hgiven⟩ := sync_last_of_two_steps (quietCycle_rstN (quietFor_inputNow hq (by omega) hia))
    (quietCycle_rstN (quietFor_inputNow hq (by omega) hib)) (step_of_run hra hrb) hbv
  rw [hwa.lines] at hdriven hgiven
  exact ⟨v, hrv, hlast, hdriven, fun c x hi hx => hgiven x (by rw [inputNow_of_drop hia (hm ▸ hi), hx])⟩

/-- Settles O35: C2CK at the first cycle has no effect on the sample, and the level two cycles before the last is the pin
or what the block drives. -/
theorem sampleIsPinTwoCyclesBeforeLast : Obligations.SampleIsPinTwoCyclesBeforeLast := by
  intro k p s hb he hp ht hq
  let u : State := { s with lines := { s.lines with c2ck := true } }
  obtain ⟨v, hrv, hlast, hdriven, hgiven⟩ := strobe_sample (s := u) hb he hp rfl ht hq
  obtain ⟨t, hvt⟩ := step_next v
  obtain ⟨n, hn⟩ : ∃ n, strobeCycles s.timing - 1 = n + 1 := by
    simp only [LegalTiming, Bool.and_eq_true, decide_eq_true_eq] at ht
    unfold strobeCycles
    exact ⟨s.timing.tlow.toNat + s.timing.thigh.toNat - 1, by omega⟩
  have hstart : step u = step s :=
    step_setup_c2ck (quietFor_inputNow (t := s) hq (m := 0) (by omega) rfl) hb he hp true
  have hrun : Host.Core.run core (strobeCycles s.timing - 1) s = .next v := by
    rw [← hrv, show u.timing = s.timing from rfl, hn]
    simp only [Host.Core.run, core, hstart]
  refine ⟨fun c x hoe hi hx => ?_, fun hoe => ?_⟩
  · have hpin : v.sync.last = x := (hgiven c x hi hx).trans (c2dLevel_released hoe x)
    exact ⟨v, t, hrun, hpin, hvt, (hlast.sample hvt).trans hpin⟩
  · exact ⟨v, t, hrun, hdriven hoe, hvt, (hlast.sample hvt).trans (hdriven hoe)⟩

/-! ## A silent target (40_signal_byte.md R120, 60_exceptions.md R203) -/

/-- The operation of a frame of kind `k` waits: a strobe of the WAIT runs, with C2D released, and the synchroniser has
seen nothing but 0. -/
structure Waiting (k : FrameKind) (s : State) : Prop where
  busy : s.status.busy = true
  event : s.seq.event = some (.strobe k .wait)
  released : s.lines.oe = false
  silent : s.sync = { first := false, last := false }

/-- An edge of the sequencer goes on with the strobe, or begins the next strobe of the WAIT after a sample 0. -/
theorem Waiting.sequencerEdge {k : FrameKind} {s : State} (h : Waiting k s) :
    ∃ v, sequencerEdge s = .next v ∧ v.status = s.status ∧ v.seq.event = some (.strobe k .wait) ∧
      v.lines.oe = false := by
  have hedge : Machine.sequencerEdge s = tickEvent (.strobe k .wait) s := by
    simp only [Machine.sequencerEdge, h.busy, if_true, h.event]
  have hnext : nextPos k s.seq.bitCount s.sync.last .wait = some .wait := by rw [h.silent]; rfl
  rw [hedge, tickEvent]
  split
  · exact ⟨_, rfl, rfl, h.event, h.released⟩
  · split
    · exact ⟨_, rfl, rfl, h.event, h.released⟩
    · exact ⟨_, rfl, rfl, h.event, h.released⟩
  · split
    · exact ⟨_, rfl, rfl, h.event, h.released⟩
    · exact ⟨_, strobeDone_next hnext, rfl, rfl, rfl⟩

/-- A quiet cycle with the pin low leaves the operation waiting. -/
theorem Waiting.step {k : FrameKind} {s : State} (h : Waiting k s) (hq : QuietCycle (inputNow s) = true)
    (hpin : (inputNow s).c2di = some false) :
    ∃ t, Machine.step s = .next t ∧ Waiting k t ∧ t.status = s.status ∧ t.env.inputs = s.env.inputs.tail := by
  obtain ⟨v, hv, hstatus, hevent, hoe⟩ := h.sequencerEdge
  have ht : Machine.step s = .next (dropInput (syncEdge (inputNow s) s.lines v)) := by
    rw [step_quiet hq, hv, andThen_next]
  obtain ⟨hlast, hinputs, -, hfirst⟩ := step_sync (quietCycle_rstN hq) ht
  rw [h.silent] at hlast
  refine ⟨_, ht, ⟨?_, ?_, ?_, ?_⟩, ?_, hinputs⟩
  · rw [dropInput_status, syncEdge_status, hstatus, h.busy]
  · rw [dropInput_seq, syncEdge_seq, hevent]
  · rw [dropInput_lines, syncEdge_lines, hoe]
  · exact congrArg₂ Sync.mk ((hfirst _ hpin).trans (c2dLevel_released h.released _)) hlast
  · rw [dropInput_status, syncEdge_status, hstatus]

/-- After any number of such cycles it still waits. -/
theorem Waiting.run {k : FrameKind} {n : Nat} {s : State} (h : Waiting k s) (hn : n ≤ s.env.inputs.length)
    (hin : (s.env.inputs.take n).all (fun c => QuietCycle c && c.c2di == some false) = true) :
    ∃ t, Host.Core.run core n s = .next t ∧ Waiting k t ∧ t.status = s.status := by
  induction n generalizing s with
  | zero => exact ⟨s, rfl, h, rfl⟩
  | succ n ih =>
    cases hi : s.env.inputs with
    | nil => simp [hi] at hn
    | cons c r =>
      have hnow : inputNow s = c := by rw [inputNow, hi, List.headD_cons]
      simp only [hi, List.take_succ_cons, List.all_cons, Bool.and_eq_true, beq_iff_eq] at hin
      obtain ⟨⟨hq, hpin⟩, hrest⟩ := hin
      obtain ⟨t, ht, hwait, hstatus, hinputs⟩ := h.step (hnow ▸ hq) (hnow ▸ hpin)
      rw [hi, List.tail_cons] at hinputs
      obtain ⟨u, hu, hwait', hstatus'⟩ :=
        ih hwait (by simpa [hi, hinputs] using hn) (by simpa only [hinputs, Bool.and_eq_true, beq_iff_eq] using hrest)
      exact ⟨u, (run_succ ht).trans hu, hwait', hstatus'.trans hstatus⟩

/-- Settles O39: that the operation waits is kept by every cycle with the pin low. -/
theorem waitHangsWhilePinStaysLow : Obligations.WaitHangsWhilePinStaysLow := by
  intro k n s _ hb he hoe hsync hn hin
  obtain ⟨t, ht, hwait, hstatus⟩ := Waiting.run ⟨hb, he, hoe, hsync⟩ hn hin
  exact ⟨t, ht, hwait.busy, hwait.event, congrArg Status.done hstatus⟩

/-! ## Bytes (40_signal_byte.md R123) -/

/-- The data strobes drive the bits of the byte in wire order. -/
theorem dataOut_bits (k : FrameKind) (v : Byte) :
    ((List.range 8).filterMap fun j => driveBit k v (BitVec.ofNat 3 j) .dataOut) = byteBits v := rfl

/-- The bits of a gathered byte are the samples, whatever SHIFT held. -/
theorem byteBits_gather (v : Byte) (b0 b1 b2 b3 b4 b5 b6 b7 : Bool) :
    byteBits (gather v b0 b1 b2 b3 b4 b5 b6 b7) = [b0, b1, b2, b3, b4, b5, b6, b7] := by
  simp (disch := decide) only [byteBits_eq, gather, getLsbD_setBit]
  rfl

/-- Settles O7: the strobes drive the bits of the byte, and each sample takes its own place. -/
theorem byteRoundTrip : Obligations.ByteRoundTrip :=
  ⟨fun k v => (congrArg byteOfBits (dataOut_bits k v)).trans (byteOfBits_byteBits v), byteBits_gather⟩

/-! ## The end of a frame (40_signal_byte.md R118) -/

/-- The edge that ends the last cycle of STOP goes through the steps the sequencer holds. -/
theorem step_frame_end {k : FrameKind} {s : State} (hq : QuietCycle (inputNow s) = true) (hb : s.status.busy = true)
    (he : s.seq.event = some (.strobe k .stop)) (hp : s.seq.phase = .high) (hc : s.seq.count.toNat ≤ 1) :
    step s = andThen (fetch s.seq.todo (noteEvent .z (latchSample s.sync.last s))) fun u =>
      .next (dropInput (syncEdge (inputNow s) s.lines u)) := by
  have hlast : nextPos k s.seq.bitCount s.sync.last .stop = none := rfl
  rw [step_quiet hq, sequencerEdge_last hb he hp hc]
  exact congrArg (andThen · _) (strobeDone_last hlast)

/-- Settles O32: the head of the steps is fetched at the edge that ends STOP, and its fetch is the decoded instruction. -/
theorem stepRunsNextWireInstruction : Obligations.StepRunsNextWireInstruction := by
  intro k s rest hq hb he hp hc t
  have hstep := step_frame_end hq hb he hp hc
  refine ⟨fun ins byte htodo => ?_, fun code i htodo hd => ?_⟩
  · rw [hstep, htodo]
    rfl
  · rw [hstep, htodo, fetch, issueCommand, hd]

end Sys2Proof.Machine
end

section
/-! SUPPORT and statements. The transaction framing operations (41_transactions.md): one frame, then `finish`. -/

namespace Sys2Proof.Machine

/-! ## An operation of one frame (41_transactions.md R130-R133) -/

/-- An operation that checks nothing finishes with OK. -/
theorem finishOp_unchecked {s : State} (hc : s.seq.fin.checked = false) (hn : s.seq.fin.counted = false)
    (hr : s.seq.respValid = false) : finishOp s = finishWith true (finishData s.seq) 0 0 0 s := by
  simp [finishOp, finishOk, finishStage, finishCount, respv, hc, hn, hr]

/-- An operation whose one step is the frame `f` sends it and finishes with OK, no response and no count. -/
theorem oneFrame_finishes {i : Instr} (f : Frame) (src : DataSource) {data : Byte}
    (hexec : ∀ s, exec i s =
      acceptOp i [.frame (frameCode f.kind) f.sent] { data := src, checked := false, counted := false } 0 s)
    (hdata : ∀ q : Sequencer, q.fin.data = src → q.shift = f.byte → finishData q = data)
    {s : State} {bs : List Bool} (hb : s.status.busy = false) (hfit : samplesFit (framesTrace [f]) bs = true) :
    ∃ t, CompletesTo i bs s t ∧ Finished i s t (framesTrace [f]) true data 0 0 0 ∧ t.buf = s.buf ∧ OutsideKept s t := by
  simp only [framesTrace_cons, framesTrace_nil, List.append_nil] at hfit ⊢
  obtain ⟨t, hran, -, hgo⟩ := goes_frame f _ bs hfit
  have hcomplete := CompletesTo.of_goes ((hexec s).trans (acceptOp_idle hb i _ _ _)) hgo
  have hfin := hran.fin
  rw [finishOp_unchecked (congrArg Finish.checked hfin) (congrArg Finish.counted hfin) hran.respValid,
    hdata _ (congrArg Finish.data hfin) hran.shift] at hcomplete
  exact ⟨_, hcomplete, hran.finished rfl rfl rfl rfl ⟨rfl, rfl, rfl, rfl⟩, hran.buf, hran.outside⟩

/-- `finish` with DATA 0, and with the byte of the last frame. -/
theorem finishData_zero {q : Sequencer} (h : q.fin.data = .zero) : finishData q = 0 := by simp [finishData, h]
theorem finishData_frameByte {q : Sequencer} (h : q.fin.data = .frameByte) : finishData q = q.shift := by
  simp [finishData, h]

/-- Settles O10: the one frame is an address write, which needs no sample. -/
theorem awSendsAddressWriteFrame : Obligations.AwSendsAddressWriteFrame := fun a _ _ hb hfit =>
  oneFrame_finishes (.addressWrite a) .zero (fun _ => rfl) (fun _ hq _ => finishData_zero hq) hb hfit

/-- Settles O11: the byte in SHIFT at the end of the address read is DATA. -/
theorem arReadsStatusByte : Obligations.ArReadsStatusByte := fun x _ _ hb hfit =>
  oneFrame_finishes (.addressRead x) .frameByte (fun _ => rfl) (fun _ hq hs => (finishData_frameByte hq).trans hs) hb hfit

/-- Settles O12: the one frame is a data write, whose WAIT lasts as the samples say. -/
theorem dwSendsDataWriteFrame : Obligations.DwSendsDataWriteFrame := fun v zeros _ _ hb hfit =>
  oneFrame_finishes (.dataWrite v zeros) .zero (fun _ => rfl) (fun _ hq _ => finishData_zero hq) hb hfit

/-- Settles O13: the byte in SHIFT at the end of the data read is DATA. -/
theorem drReadsDataByte : Obligations.DrReadsDataByte := fun zeros d _ _ hb hfit =>
  oneFrame_finishes (.dataRead zeros d) .frameByte (fun _ => rfl) (fun _ hq hs => (finishData_frameByte hq).trans hs) hb
    hfit

end Sys2Proof.Machine
end

section
/-! SUPPORT and statement. AW from cycle to cycle (41_transactions.md R135): each of its strobes, taken through its
cycles, leaves what the completed event leaves at trace level. -/

namespace Sys2Proof.Machine

/-! ## What the cycles move and the trace level does not -/

/-- What the cycles of a wire event move beside what its completion moves. -/
structure CycleSide where
  phase : Phase
  count : BitVec 23
  sync : Sync
  inputs : List CycleInput
  draws : Nat

/-- The cycle side of a state, and a state with another cycle side. -/
def cycleSide (s : State) : CycleSide :=
  { phase := s.seq.phase, count := s.seq.count, sync := s.sync, inputs := s.env.inputs, draws := s.env.draws }
def withCycle (x : CycleSide) (s : State) : State :=
  { s with
    seq := { s.seq with phase := x.phase, count := x.count }
    sync := x.sync
    env := { s.env with inputs := x.inputs, draws := x.draws } }

/-- State `s` of a run from edge to edge is the trace-level state `t`, but for its cycle side. -/
def AtCycle (s t : State) : Prop := ∃ x, s = withCycle x t

theorem AtCycle.refl (s : State) : AtCycle s s := ⟨cycleSide s, rfl⟩

/-- The synchroniser and the inputs of an edge are cycle side. -/
theorem AtCycle.edge {s t : State} (h : AtCycle s t) (c : CycleInput) (l : Lines) :
    AtCycle (dropInput (syncEdge c l s)) t := by
  obtain ⟨x, rfl⟩ := h
  refine ⟨cycleSide (dropInput (syncEdge c l (withCycle x t))), ?_⟩
  unfold syncEdge drawForPin
  split <;> rfl

/-- Cycles within one wire event move the cycle side alone, once C2CK is back at its level. -/
theorem AtCycle.within {ph : Phase} {n : BitVec 23} {s t v : State} (h : AtCycle s t)
    (hw : Within ph n s.lines.c2ck s v) : AtCycle v t := by
  obtain ⟨x, rfl⟩ := h
  obtain ⟨hlines, hseq, ⟨hie, hstatus, hresult, htiming, hfpdat, hptr, hbuf, hcur⟩, htrace, hprdata⟩ := hw
  refine ⟨cycleSide v, ?_⟩
  obtain ⟨ie, status, result, timing, fpdat, ptr, buf, cur, seq, lines, sync, ⟨inputs, draws, trace, prdata⟩⟩ := v
  dsimp only at hlines hseq hie hstatus hresult htiming hfpdat hptr hbuf hcur htrace hprdata
  subst hlines hseq hie hstatus hresult htiming hfpdat hptr hbuf hcur htrace hprdata
  rfl

/-- The results of an operation do not depend on the cycle side. -/
theorem AtCycle.finished {i : Instr} {s t u : State} {tr : List WireEvent} {ok : Bool} {data resp : Byte}
    {count : BitVec 9} {fstage : BitVec 2} (hu : AtCycle u t) (h : Finished i s t tr ok data resp count fstage) :
    Finished i s u tr ok data resp count fstage := by
  obtain ⟨x, rfl⟩ := hu
  exact ⟨h.status, h.result, h.trace, h.lines, h.last_driven, h.sequencer_idle, h.latched, h.registers⟩

theorem AtCycle.buf {s t : State} (h : AtCycle s t) : s.buf = t.buf := by
  obtain ⟨x, rfl⟩ := h
  rfl

theorem AtCycle.wire {s t : State} (h : AtCycle s t) :
    t.seq.event = s.seq.event ∧ t.seq.todo = s.seq.todo ∧ t.lines = s.lines := by
  obtain ⟨x, rfl⟩ := h
  exact ⟨rfl, rfl, rfl⟩

/-- The sample of a completed strobe is cycle side. -/
theorem AtCycle.sampled {s t : State} (h : AtCycle s t) (b : Bool) :
    AtCycle s { t with sync := { t.sync with last := b } } := by
  obtain ⟨x, hx⟩ := h
  exact ⟨x, hx⟩

theorem fetchNext_done {s : State} (h : s.seq.todo = []) : fetchNext s = .next (finishOp s) := by
  rw [fetchNext, h, fetch]

/-- A strobe of the last frame of an operation completes alike in both. -/
theorem AtCycle.strobeDone {k : FrameKind} {p : WirePos} {s t : State} (h : AtCycle s t) (htodo : t.seq.todo = [])
    (hsample : s.sync.last = t.sync.last) :
    ∃ u v, strobeDone k p t = .next u ∧ strobeDone k p s = .next v ∧ AtCycle v u := by
  obtain ⟨x, rfl⟩ := h
  cases hn : nextPos k t.seq.bitCount t.sync.last p with
  | some q =>
    have hs := strobeDone_next (s := withCycle x t) ((congrArg (nextPos k _ · p) hsample).trans hn)
    rw [hsample] at hs
    refine ⟨_, _, strobeDone_next hn, hs, ?_⟩
    cases p <;> exact ⟨cycleSide (beginStrobe k q (withCycle x t)), rfl⟩
  | none =>
    obtain rfl : p = .stop := by cases p <;> first | rfl | cases hn
    have hs := strobeDone_last (s := withCycle x t) ((congrArg (nextPos k _ · .stop) hsample).trans hn)
    rw [hsample] at hs
    refine ⟨_, _, (strobeDone_last hn).trans (fetchNext_done htodo), hs.trans (fetchNext_done htodo), ?_⟩
    exact ⟨cycleSide (withCycle x t), rfl⟩

/-! ## One strobe of the last frame -/

/-- State `s` is in the SETUP cycle of a strobe, and the frame of the strobe is the last step of the operation. -/
structure AtStrobe (k : FrameKind) (p : WirePos) (s : State) : Prop where
  busy : s.status.busy = true
  event : s.seq.event = some (.strobe k p)
  phase : s.seq.phase = .setup
  c2ck : s.lines.c2ck = true
  todo : s.seq.todo = []

theorem AtStrobe.edge {k : FrameKind} {p : WirePos} {s : State} (h : AtStrobe k p s) (c : CycleInput) (l : Lines) :
    AtStrobe k p (dropInput (syncEdge c l s)) :=
  ⟨by simpa using h.busy, by simpa using h.event, by simpa using h.phase, by simpa using h.c2ck, by simpa using h.todo⟩

/-- The end of a strobe before STOP is the SETUP cycle of the next one. -/
theorem atStrobe_of_strobeDone {k : FrameKind} {p q : WirePos} {s t : State} (hb : s.status.busy = true)
    (htodo : s.seq.todo = []) (hn : nextPos k s.seq.bitCount s.sync.last p = some q)
    (h : strobeDone k p s = .next t) : AtStrobe k q t ∧ t.seq.bitCount = bitAfter p s.seq.bitCount := by
  rw [strobeDone_next hn] at h
  obtain rfl := Host.Outcome.next.inj h
  cases p <;> exact ⟨⟨hb, rfl, rfl, rfl, htodo⟩, rfl⟩

/-- The last cycle of a strobe, `m` cycles after its first, with what has moved since then. -/
theorem AtStrobe.run_last {k : FrameKind} {p : WirePos} {s : State} (hs : AtStrobe k p s)
    (htiming : LegalTiming s.timing = true) (hq : QuietFor (strobeCycles s.timing) s = true) :
    ∃ m n w, strobeCycles s.timing = m + 1 ∧ Host.Core.run core m s = .next w ∧ LastCycle k p w ∧
      Within .high n true s w ∧ (s.lines.oe = true → w.sync.last = s.lines.c2d) ∧
      w.env.inputs = s.env.inputs.drop m := by
  have hcycles : strobeCycles s.timing = s.timing.tlow.toNat + s.timing.thigh.toNat + 1 := by
    unfold strobeCycles
    omega
  obtain ⟨w, hw, hlast, hdriven, -⟩ := strobe_sample hs.busy hs.event hs.phase hs.c2ck htiming hq
  rw [hcycles, Nat.add_sub_cancel] at hw
  obtain ⟨v, ph, n, hv, hwithin, hinputs, hhigh⟩ := run_strobe hs.busy hs.event hs.phase hs.c2ck htiming hq
    (j := s.timing.tlow.toNat + s.timing.thigh.toNat) (by omega)
  obtain rfl := Host.Outcome.next.inj (hw.symm.trans hv)
  obtain ⟨rfl, -⟩ := hhigh rfl
  have hrisen : s.timing.tlow.toNat < s.timing.tlow.toNat + s.timing.thigh.toNat := by
    simp only [LegalTiming, Bool.and_eq_true, decide_eq_true_eq] at htiming
    omega
  rw [decide_eq_true (.inr hrisen)] at hwithin
  exact ⟨_, n, w, hcycles, hw, hlast, hwithin, hdriven, hinputs⟩

/-- A sample that agrees with what the block drives is heard as it is. -/
theorem c2dLevel_eq_self {l : Lines} {b : Bool} (h : l.oe = true → b = l.c2d) : c2dLevel l b = b := by
  cases hoe : l.oe with
  | true => rw [c2dLevel_driven hoe, h hoe]
  | false => exact c2dLevel_released hoe b

theorem completeEvent_strobe {k : FrameKind} {p : WirePos} {b : Bool} {s : State}
    (he : s.seq.event = some (.strobe k p)) (hb : c2dLevel s.lines b = b) :
    completeEvent b s = strobeDone k p { s with sync := { s.sync with last := b } } := by
  simp only [completeEvent, he, hb, eventDone]

/-- A strobe of the last frame, taken through its cycles, completes as at trace level with some sample. -/
theorem AtStrobe.run {k : FrameKind} {p : WirePos} {s t : State} (hs : AtStrobe k p s) (h : AtCycle s t)
    (htiming : LegalTiming s.timing = true) (hq : QuietFor (strobeCycles s.timing) s = true) :
    ∃ b u v, completeEvent b t = .next u ∧ Host.Core.run core (strobeCycles s.timing) s = .next v ∧ AtCycle v u ∧
      v.timing = s.timing ∧ v.env.inputs = s.env.inputs.drop (strobeCycles s.timing) ∧
      ∀ q, (∀ x, nextPos k s.seq.bitCount x p = some q) →
        AtStrobe k q v ∧ v.seq.bitCount = bitAfter p s.seq.bitCount := by
  obtain ⟨m, n, w, hcycles, hw, hlast, hwithin, hdriven, hinputs⟩ := hs.run_last htiming hq
  obtain ⟨hevent, htodo, hlines⟩ := h.wire
  have hheard : c2dLevel t.lines w.sync.last = w.sync.last := c2dLevel_eq_self (hlines ▸ hdriven)
  have hnow : AtCycle w t := h.within (hs.c2ck ▸ hwithin)
  obtain ⟨u, v, hu, hv, hvu⟩ := (hnow.sampled w.sync.last).strobeDone (k := k) (p := p) (htodo.trans hs.todo) rfl
  have hstep : step w = .next (dropInput (syncEdge (inputNow w) w.lines v)) := by rw [hlast.step, hv, andThen_next]
  refine ⟨w.sync.last, u, _, (completeEvent_strobe (hevent.trans hs.event) hheard).trans hu,
    hcycles ▸ run_step hw hstep, hvu.edge _ _, ?_, ?_, fun q hnext => ?_⟩
  · obtain ⟨-, hkept, -⟩ := (eventDone_kept (e := .strobe k p) hv).registers
    obtain ⟨-, -, -, hmoved, -⟩ := hwithin.host
    rw [dropInput_timing, syncEdge_timing, hkept, hmoved]
  · obtain ⟨-, htail, -⟩ := step_sync (quietCycle_rstN hlast.quiet) hstep
    rw [htail, hinputs, List.tail_drop, hcycles]
  · have hbit : w.seq.bitCount = s.seq.bitCount := by rw [hwithin.seq]
    have hdone : w.seq.todo = [] := by rw [hwithin.seq, hs.todo]
    obtain ⟨hat, hcount⟩ := atStrobe_of_strobeDone hlast.busy hdone (hbit ▸ hnext _) hv
    exact ⟨hat.edge _ _, by rw [dropInput_seq, syncEdge_seq, hcount, hbit]⟩

/-! ## The strobes of AW -/

/-- How many strobes of an address write are left from position `p` on, this one included; 0 where it has none. -/
def strobesLeft (bit : BitVec 3) : WirePos → Nat
  | .start => 9 - bit.toNat + 3
  | .ins0 => 9 - bit.toNat + 2
  | .ins1 => 9 - bit.toNat + 1
  | .dataOut => 9 - bit.toNat
  | .stop => 1
  | .rsv0 => 0
  | .rsv1 => 0
  | .wait => 0
  | .dataIn => 0

/-- An address write goes on alike whatever its strobes sample. -/
theorem strobesLeft_next {bit : BitVec 3} {p : WirePos} {n : Nat} (h : strobesLeft bit p = n + 2) :
    ∃ q, (∀ x, nextPos .addressWrite bit x p = some q) ∧ strobesLeft (bitAfter p bit) q = n + 1 := by
  cases p with
  | start => exact ⟨.ins0, fun _ => rfl, Nat.succ.inj h⟩
  | ins0 => exact ⟨.ins1, fun _ => rfl, Nat.succ.inj h⟩
  | ins1 => exact ⟨.dataOut, fun _ => rfl, Nat.succ.inj h⟩
  | dataOut =>
    by_cases hbit : bit = 7
    · subst hbit
      exact ⟨.stop, fun _ => rfl, Nat.succ.inj h⟩
    · refine ⟨.dataOut, fun _ => by simp only [nextPos, if_neg hbit], ?_⟩
      change 9 - bit.toNat = n + 2 at h
      change 9 - (bit + 1).toNat = n + 1
      bv_omega
  | stop | rsv0 | rsv1 | wait | dataIn => cases h

/-- The last frame of the operation is an address write with `n` strobes left. -/
def Sends : Nat → State → Prop
  | 0, _ => True
  | n + 1, s => ∃ p, AtStrobe .addressWrite p s ∧ strobesLeft s.seq.bitCount p = n + 1

/-- The strobes of the last address write, taken through their cycles: the block is busy in each, and in the end the
strobes have completed as at trace level with some samples. -/
theorem Sends.run {n : Nat} {s t : State} (hs : Sends n s) (h : AtCycle s t) (htiming : LegalTiming s.timing = true)
    (hq : QuietFor (n * strobeCycles s.timing) s = true) :
    (∀ j < n * strobeCycles s.timing, ∃ v, Host.Core.run core j s = .next v ∧ v.status.busy = true) ∧
    ∃ bs u v, bs.length = n ∧ runEvents bs t = .next u ∧
      Host.Core.run core (n * strobeCycles s.timing) s = .next v ∧ AtCycle v u := by
  induction n generalizing s t with
  | zero =>
    rw [Nat.zero_mul]
    exact ⟨nofun, [], t, s, rfl, rfl, rfl, h⟩
  | succ n ih =>
    obtain ⟨p, hat, hleft⟩ := hs
    rw [Nat.succ_mul, Nat.add_comm] at hq ⊢
    have hq1 := quietFor_le hq (Nat.le_add_right _ _)
    obtain ⟨b, t1, s1, ht1, hs1, h1, htiming1, hinputs1, hnext⟩ := hat.run h htiming hq1
    have hsends : Sends n s1 := by
      cases n with
      | zero => trivial
      | succ n =>
        obtain ⟨q, hpos, hq⟩ := strobesLeft_next hleft
        obtain ⟨hat1, hbit⟩ := hnext q hpos
        exact ⟨q, hat1, hbit ▸ hq⟩
    have hq2 := quietFor_drop _ _ s hq s1 hinputs1
    rw [← htiming1] at hq2 htiming
    obtain ⟨hbusy, bs, u, v, hlen, hbs, hv, huv⟩ := ih hsends h1 htiming hq2
    rw [htiming1] at hbusy hv
    refine ⟨fun j hj => ?_, b :: bs, u, v, congrArg Nat.succ hlen, ?_, (run_add _ _ _ _ hs1).trans hv, huv⟩
    · rcases lt_or_ge j (strobeCycles s.timing) with hlt | hge
      · obtain ⟨v, ph, m, hv, hw, -⟩ := run_strobe hat.busy hat.event hat.phase hat.c2ck (htiming1 ▸ htiming) hq1 hlt
        obtain ⟨-, hstatus, -⟩ := hw.host
        exact ⟨v, hv, hstatus ▸ hat.busy⟩
      · obtain ⟨d, rfl⟩ := Nat.exists_eq_add_of_le hge
        obtain ⟨v, hv, hb⟩ := hbusy d (by omega)
        exact ⟨v, (run_add _ _ _ _ hs1).trans hv, hb⟩
    · rw [runEvents_cons, ht1, andThen_next, hbs]

/-- A trace that shows no sample fits any levels, one for each event. -/
theorem samplesFit_of_length {tr : List WireEvent} {bs : List Bool} (htr : ∀ b, tr.all (WireEvent.fits b) = true)
    (hlen : bs.length = tr.length) : samplesFit tr bs = true := by
  induction tr generalizing bs with
  | nil => exact samplesFit_nil.mpr (List.length_eq_zero_iff.mp hlen)
  | cons e tr ih =>
    obtain ⟨b, cs, rfl⟩ := List.exists_cons_of_length_eq_add_one hlen
    simp only [List.all_cons, Bool.and_eq_true] at htr
    exact samplesFit_cons.mpr ⟨b, cs, rfl, (htr b).1, ih (fun x => (htr x).2) (Nat.succ.inj hlen)⟩

/-- AW accepted in state `s`, in the SETUP cycle of its START strobe. -/
def awBegun (a : Byte) (s : State) : State :=
  beginAddressWrite a (accepted (encodeCmd (.aw a)) [] { data := .zero, checked := false, counted := false } 0 s)

theorem awBegun_atStrobe (a : Byte) (s : State) : AtStrobe .addressWrite .start (awBegun a s) :=
  ⟨rfl, rfl, rfl, rfl, rfl⟩

/-- The accepting edge of AW begins its frame. -/
theorem step_aw {a : Byte} {s : State} (hw : HostWrites 0x08 (encodeCmd (.aw a)) s) (hb : s.status.busy = false) :
    ∃ c l, step s = .next (dropInput (syncEdge c l (awBegun a s))) := by
  obtain ⟨hr, hwrite, haddr, hdata⟩ := hw
  refine ⟨inputNow s, s.lines, ?_⟩
  rw [step_command hr (busEdge_writeTo (r := .cmd) hwrite haddr hdata) (decodeCmd_encodeCmd rfl rfl) hb,
    show exec (.aw a) s = _ from acceptOp_idle hb _ _ _ _]
  rfl

/-- Settles O37: the twelve strobes are those of the frame, and with any samples AW leaves its results (O10). -/
theorem awTakesTwelveStrobes : Obligations.AwTakesTwelveStrobes := by
  intro a s hw hb htiming hquiet
  obtain ⟨c, l, hstep⟩ := step_aw hw hb
  let s1 := dropInput (syncEdge c l (awBegun a s))
  have htiming1 : s1.timing = s.timing := by rw [dropInput_timing, syncEdge_timing]; rfl
  have hinputs1 : s1.env.inputs = s.env.inputs.tail := by rw [dropInput_env, syncEdge_inputs]; rfl
  have hsends : Sends 12 s1 := ⟨.start, (awBegun_atStrobe a s).edge c l, by rw [dropInput_seq, syncEdge_seq]; rfl⟩
  obtain ⟨hbusy, bs, u, v, hlen, hu, hv, hvu⟩ := hsends.run ((AtCycle.refl _).edge c l) (htiming1 ▸ htiming)
    (by rwa [QuietFor, hinputs1, htiming1])
  rw [htiming1] at hbusy hv
  obtain ⟨t, ⟨w, hexec, -, hrun⟩, hfinished, hbuf, -⟩ := awSendsAddressWriteFrame a s bs hb
    (samplesFit_of_length (fun _ => rfl) hlen)
  obtain rfl := Host.Outcome.next.inj (hexec.symm.trans (acceptOp_idle hb _ _ _ _))
  obtain rfl : u = t := Host.Outcome.next.inj (hu.symm.trans hrun)
  refine ⟨fun j hj => ?_, v, ?_, hvu.finished hfinished, hvu.buf.trans hbuf⟩
  · rw [Nat.add_comm, run_succ hstep]
    exact hbusy j hj
  · rw [Nat.add_comm, run_succ hstep]
    exact hv

end Sys2Proof.Machine
end

section
/-! SUPPORT and statements. The operations of the status polling engine (42_status_polling.md): an operation that checks
nothing, and one that ends with `ok_or_not`, each from acceptance to `finish`. -/

namespace Sys2Proof.Machine

/-! ## From acceptance to `finish` with or without a check -/

/-- An operation without a check whose steps run through finishes with OK, no response and no count. -/
theorem unchecked_finishes {i : Instr} {s t : State} {steps : List SeqStep} {fin : Finish} {bs : List Bool}
    {tr : List WireEvent} {x data : Byte} (hexec : exec i s = .next (accepted (encodeCmd i) steps fin 0 s))
    (hgo : Goes (accepted (encodeCmd i) steps fin 0 s) steps bs t)
    (hran : Ran (accepted (encodeCmd i) steps fin 0 s) t tr x) (hchecked : fin.checked = false)
    (hcounted : fin.counted = false) (hdata : finishData t.seq = data) :
    ∃ u, CompletesTo i bs s u ∧ Finished i s u tr true data 0 0 0 ∧ u.buf = s.buf ∧ OutsideKept s u := by
  have hfin : t.seq.fin = fin := hran.fin
  have hcomplete := CompletesTo.of_goes hexec hgo
  rw [finishOp_unchecked (hfin ▸ hchecked) (hfin ▸ hcounted) hran.respValid, hdata] at hcomplete
  exact ⟨_, hcomplete, hran.finished rfl rfl rfl rfl ⟨rfl, rfl, rfl, rfl⟩, hran.buf, hran.outside⟩

/-- The `finish` of OKQ and CINIT: `finish(ok, LAST_RESP, LAST_RESP, 0, (ok == 1) ? 0 : FST)` (R143, R149). -/
def finishResponse : Finish := { data := .response, checked := true, counted := false }

/-- After one `ok_or_not`, which read the byte `r`, OK says whether `r` is the success byte and FSTAGE is 1 if not. -/
theorem finishOp_response {s : State} {r : Byte} (hfin : s.seq.fin = finishResponse) (hresp : s.seq.lastResp = r)
    (hvalid : s.seq.respValid = true) (hfst : s.seq.fst = 1) :
    finishOp s = finishWith (r == 0x0D#8) r r 0 (if r = 0x0D#8 then 0 else 1) s := by
  simp [finishOp, finishOk, finishData, finishCount, finishStage, respv, isSuccess, Config.successByte, finishResponse,
    hfin, hresp, hvalid, hfst]

/-- An operation whose only check is its last step reports the byte `r` that the check read. -/
theorem checked_finishes {i : Instr} {s t : State} {steps : List SeqStep} {bs : List Bool} {tr : List WireEvent}
    {r : Byte} (hexec : exec i s = .next (accepted (encodeCmd i) steps finishResponse 0 s))
    (hgo : Goes (accepted (encodeCmd i) steps finishResponse 0 s) steps bs t)
    (hran : Ran (withResponse r (accepted (encodeCmd i) steps finishResponse 0 s)) t tr r) :
    ∃ u, CompletesTo i bs s u ∧ Finished i s u tr (r == 0x0D#8) r r 0 (if r = 0x0D#8 then 0 else 1) ∧ u.buf = s.buf ∧
      OutsideKept s u := by
  have hcomplete := CompletesTo.of_goes hexec hgo
  rw [finishOp_response hran.fin hran.lastResp hran.respValid hran.fst] at hcomplete
  exact ⟨_, hcomplete, hran.finished rfl rfl rfl rfl ⟨rfl, rfl, rfl, rfl⟩, hran.buf, hran.outside⟩

/-- `finish` with DATA the status byte that met the condition. -/
theorem finishData_status {q : Sequencer} (h : q.fin.data = .status) : finishData q = q.lastStatus := by
  simp [finishData, h]

/-! ## WFB (R140, R141) -/

/-- What WFB hands to the sequencer at acceptance. -/
def wfbAccepted (m : Byte) (e : Bool) (s : State) : State :=
  accepted (encodeCmd (.wfb m e)) [.poll m e] { data := .status, checked := false, counted := false } 0 s

theorem exec_wfb {m : Byte} {e : Bool} {s : State} (hw : WellFormed (.wfb m e) = true) (hb : s.status.busy = false) :
    exec (.wfb m e) s = .next (wfbAccepted m e s) := by
  simp only [exec, execWfb, hw, Bool.not_true, Bool.and_false, Bool.false_eq_true, if_false]
  exact acceptOp_idle hb _ _ _ _

/-- Settles O14: the poll runs through with the status byte that met the condition in LAST_STATUS. -/
theorem wfbPollsUntilConditionMet : Obligations.WfbPollsUntilConditionMet := by
  intro m e p s bs hw hb hp hfit
  obtain ⟨t, hran, hlast, hgo⟩ := goes_poll m e p (wfbAccepted m e s) bs hp hfit
  exact unchecked_finishes (exec_wfb hw hb) hgo hran rfl rfl
    ((finishData_status (congrArg Finish.data hran.fin)).trans hlast)

/-- Settles O19: after the address reads that do not meet the condition the poll stands where it began, and begins the
next one. -/
theorem wfbHangsWhileConditionUnmet : Obligations.WfbHangsWhileConditionUnmet := by
  intro m e xs s bs hw hb hx hfit
  obtain ⟨t, hstatus, hgo⟩ := poll_unmet m e xs (wfbAccepted m e s) bs hx hfit
  have hrun : andThen (fetchNext (wfbAccepted m e s)) (runEvents bs) =
      .next (beginAddressRead (withTodo [.pollTest m e] t)) := by
    have h := hgo [] []
    rw [List.append_nil] at h
    exact h
  refine ⟨_, ⟨_, exec_wfb hw hb, rfl, hrun⟩, ?_, ?_, rfl⟩
  · exact congrArg Status.busy hstatus
  · exact congrArg Status.done hstatus

/-! ## OKQ, WRB, RDR, CINIT (R142-R149) -/

/-- Settles O15: the one step is `ok_or_not`. -/
theorem okqAcceptsSuccessByteOnly : Obligations.OkqAcceptsSuccessByteOnly := by
  intro zeros r s bs hb hfit
  obtain ⟨t, hran, hgo⟩ := goes_check zeros r (accepted (encodeCmd .okq) [.check] finishResponse 0 s) bs hfit
  exact checked_finishes (acceptOp_idle hb _ _ _ _) hgo hran

/-- Settles O16: the steps are those of `write_with_busy`. -/
theorem wrbWritesThenPollsInputBusy : Obligations.WrbWritesThenPollsInputBusy := by
  intro v x s bs hb hx hfit
  obtain ⟨t, hran, hgo⟩ := goes_writeWithBusy v x _ bs hx hfit
  exact unchecked_finishes (acceptOp_idle hb _ _ _ _) hgo hran rfl rfl
    (finishData_zero (congrArg Finish.data hran.fin))

/-- Settles O17: the steps are those of `read_with_ready`, whose byte is in SHIFT at the end. -/
theorem rdrPollsReadyThenReads : Obligations.RdrPollsReadyThenReads := by
  intro x s bs hb hx hfit
  obtain ⟨t, hran, hgo⟩ := goes_readWithReady x _ bs hx hfit
  exact unchecked_finishes (acceptOp_idle hb _ _ _ _) hgo hran rfl rfl
    ((finishData_frameByte (congrArg Finish.data hran.fin)).trans hran.shift)

/-- Settles O18: the one step is `command_init` of the byte, which ends with the one check. -/
theorem cinitRunsCommandInit : Obligations.CinitRunsCommandInit := by
  intro c x s bs hb hx hfit
  obtain ⟨t, hran, hgo⟩ :=
    goes_command c x (accepted (encodeCmd (.cinit c)) [.command c] finishResponse 0 s) bs hx hfit
  exact checked_finishes (acceptOp_idle hb _ _ _ _) hgo hran

end Sys2Proof.Machine
end

section
/-! SUPPORT and statements. The flash programming operations without a check (43_flash_programming.md R160-R165): the
reset pulse, the settle delay and frames one after another. -/

namespace Sys2Proof.Machine

/-! ## Steps without a poll or a check -/

/-- The state after the wire event `w`, which ended in state `s`, where the pin was at `b`. -/
def eventEnd (w : WireEvent) (b : Bool) (s : State) : State :=
  noteEvent w { s with sync := { s.sync with last := c2dLevel s.lines b } }

/-- A step whose one wire event begins in state `u` and is followed by the next fetch. -/
theorem goes_event {st : SeqStep} {e : Event} {w : WireEvent} {s u : State} (b : Bool)
    (hbegin : ∀ rest, fetch (st :: rest) s = .next (withTodo rest u)) (he : u.seq.event = some e)
    (hdone : ∀ v : State, v.timing = u.timing → eventDone e v = fetchNext (noteEvent w v)) :
    Goes s [st] [b] (eventEnd w b u) := by
  intro rest more
  have hcomplete : completeEvent b (withTodo rest u) = fetch rest (withTodo rest (eventEnd w b u)) := by
    rw [completeEvent, show (withTodo rest u).seq.event = some e from he]
    exact hdone _ rfl
  rw [List.singleton_append, List.singleton_append, hbegin, andThen_next, runEvents_cons, hcomplete, fetch_withTodo]

/-- A wire event that leaves C2D released, from its begin to its end. -/
theorem ran_eventEnd {w : WireEvent} (hw : ∀ d, lastDriven d [w] = d) (b : Bool) (e : Event) (ph : Phase)
    (n : BitVec 23) (s : State) :
    Ran s (eventEnd w b { s with
      seq := { s.seq with event := some e, phase := ph, count := n }
      lines := { s.lines with c2ck := true, oe := false } }) [w] s.seq.shift :=
  ⟨rfl, rfl, rfl, rfl, rfl, rfl, rfl, rfl, rfl, rfl, rfl, rfl, rfl, rfl, rfl, ⟨rfl, rfl, (hw _).symm⟩, rfl,
    ⟨rfl, rfl, rfl⟩⟩

/-- The reset pulse (R160). -/
theorem goes_pulse (b : Bool) (s : State) :
    ∃ t, Ran s t [.pulse (20 * s.timing.usdiv.toNat) (2 * s.timing.usdiv.toNat)] s.seq.shift ∧
      Goes s [.pulse] [b] t :=
  ⟨eventEnd _ b (beginPulse s), ran_eventEnd (fun _ => rfl) b .pulse .setup 0 s,
    goes_event b (fun _ => rfl) rfl fun _ hv => by rw [eventDone, hv]; rfl⟩

/-- The settle delay (R161). -/
theorem goes_settle (b : Bool) (s : State) :
    ∃ t, Ran s t [.idle (20000 * s.timing.usdiv.toNat)] s.seq.shift ∧ Goes s [.settle] [b] t :=
  ⟨eventEnd _ b (beginSettle s), ran_eventEnd (fun _ => rfl) b .settle .high _ s,
    goes_event b (fun _ => rfl) rfl fun _ hv => by rw [eventDone, hv]; rfl⟩

/-- The step that sends a frame. -/
def Frame.step (f : Frame) : SeqStep := .frame (frameCode f.kind) f.sent

/-- Frames one after another leave the byte of the last one in SHIFT. -/
theorem goes_frames (f : Frame) (fs : List Frame) (s : State) (bs : List Bool)
    (h : samplesFit (framesTrace (f :: fs)) bs = true) :
    ∃ t, Ran s t (framesTrace (f :: fs)) ((f :: fs).getLast (List.cons_ne_nil f fs)).byte ∧
      Goes s ((f :: fs).map Frame.step) bs t := by
  induction fs generalizing f s bs with
  | nil =>
    simp only [framesTrace_cons, framesTrace_nil, List.append_nil] at h ⊢
    obtain ⟨t, hran, -, hgo⟩ := goes_frame f s bs h
    exact ⟨t, hran, hgo⟩
  | cons g fs ih =>
    rw [framesTrace_cons, samplesFit_append] at h
    obtain ⟨b1, b2, rfl, h1, h2⟩ := h
    obtain ⟨t, hran, -, hgo⟩ := goes_frame f s b1 h1
    obtain ⟨u, hran', hgo'⟩ := ih g t b2 h2
    exact ⟨u, hran.trans hran', hgo.trans hgo'⟩

/-! ## RESET, INIT, WSFR, RSFR -/

/-- Settles O20: the one step is the reset pulse. -/
theorem resetPulsesTarget : Obligations.ResetPulsesTarget := by
  intro b s hb
  obtain ⟨t, hran, hgo⟩ := goes_pulse b (accepted (encodeCmd .reset) [.pulse] _ 0 s)
  exact unchecked_finishes (acceptOp_idle hb _ _ _ _) hgo hran rfl rfl
    (finishData_zero (congrArg Finish.data hran.fin))

/-- Settles O21: between the pulse and the settle delay stand four frames and no poll. -/
theorem initSendsKeySequence : Obligations.InitSendsKeySequence := by
  intro w0 w1 w2 s bs hb tr hfit
  obtain ⟨_, b3, rfl, hfit', h3⟩ := samplesFit_append.mp hfit
  obtain ⟨b1, b2, rfl, h1, h2⟩ := samplesFit_append.mp hfit'
  obtain ⟨p, _, rfl, -, h1⟩ := samplesFit_cons.mp h1
  obtain rfl := samplesFit_nil.mp h1
  obtain ⟨q, _, rfl, -, h3⟩ := samplesFit_cons.mp h3
  obtain rfl := samplesFit_nil.mp h3
  obtain ⟨t1, hran1, hgo1⟩ := goes_pulse p (accepted (encodeCmd .init) _ _ 0 s)
  obtain ⟨t2, hran2, hgo2⟩ := goes_frames _ _ t1 b2 h2
  obtain ⟨t3, hran3, hgo3⟩ := goes_settle q t2
  rw [(hran1.trans hran2).timing] at hran3
  have hran := (hran1.trans hran2).trans hran3
  exact unchecked_finishes (acceptOp_idle hb _ _ _ _) ((hgo1.trans hgo2).trans hgo3) hran rfl rfl
    (finishData_zero (congrArg Finish.data hran.fin))

/-- Settles O22: two frames each, the byte of the second of RSFR in SHIFT at the end. -/
theorem sfrAccessIsTwoFrames : Obligations.SfrAccessIsTwoFrames := by
  intro a v zeros s bs hb
  refine ⟨fun hfit => ?_, fun hfit => ?_⟩
  · obtain ⟨t, hran, hgo⟩ := goes_frames _ _ (accepted (encodeCmd (.wsfr a v)) _ _ 0 s) bs hfit
    exact unchecked_finishes (acceptOp_idle hb _ _ _ _) hgo hran rfl rfl
      (finishData_zero (congrArg Finish.data hran.fin))
  · obtain ⟨t, hran, hgo⟩ := goes_frames _ _ (accepted (encodeCmd (.rsfr a)) _ _ 0 s) bs hfit
    exact unchecked_finishes (acceptOp_idle hb _ _ _ _) hgo hran rfl rfl
      ((finishData_frameByte (congrArg Finish.data hran.fin)).trans hran.shift)

end Sys2Proof.Machine
end

section
/-! SUPPORT and statements. The flash programming operations that begin with a command and stop when it is rejected
(43_flash_programming.md R166-R170). -/

namespace Sys2Proof.Machine

/-! ## The command, accepted or rejected -/

theorem isSuccess_iff {r : Byte} : isSuccess r = true ↔ r = 0x0D := by simp [isSuccess, Config.successByte]

/-- `command_init(c)` whose response is the success byte goes on. -/
theorem goes_commandAccepted (c : Byte) (x : CommandScript) (s : State) (bs : List Bool) (hx : x.fits = true)
    (hr : x.response.byte = 0x0D) (h : samplesFit (framesTrace (x.frames s.fpdat c)) bs = true) :
    ∃ t, Ran (withResponse 0x0D s) t (framesTrace (x.frames s.fpdat c)) 0x0D ∧ Goes s (commandOrStop c) bs t := by
  obtain ⟨t, hran, hgo⟩ := goes_command c x s bs hx h
  rw [hr] at hran
  have hstop := hgo.trans (goes_stopIfRejected (isSuccess_iff.mpr hran.lastResp))
  rw [List.append_nil] at hstop
  exact ⟨t, hran, hstop⟩

/-- An accepted command and then two bytes with busy framing: what WDIR and RDIR begin with. -/
theorem goes_commandTwoWrites (c v0 v1 : Byte) (x : CommandScript) (x0 x1 : WriteScript) (s : State) (bs : List Bool)
    (hx : x.fits = true) (hx0 : x0.fits = true) (hx1 : x1.fits = true) (hr : x.response.byte = 0x0D)
    (h : samplesFit (framesTrace (x.frames s.fpdat c ++ x0.frames v0 ++ x1.frames v1)) bs = true) :
    ∃ t, Ran (withResponse 0x0D s) t (framesTrace (x.frames s.fpdat c ++ x0.frames v0 ++ x1.frames v1)) x1.poll.last ∧
      Goes s (commandOrStop c ++ writeWithBusy v0 ++ writeWithBusy v1) bs t := by
  simp only [framesTrace_append, samplesFit_append] at h ⊢
  obtain ⟨_, b2, rfl, ⟨b0, b1, rfl, h0, h1⟩, h2⟩ := h
  obtain ⟨t0, hran0, hgo0⟩ := goes_commandAccepted c x s b0 hx hr h0
  obtain ⟨t1, hran1, hgo1⟩ := goes_writeWithBusy v0 x0 t0 b1 hx0 h1
  obtain ⟨t2, hran2, hgo2⟩ := goes_writeWithBusy v1 x1 t1 b2 hx1 h2
  exact ⟨t2, (hran0.trans hran1).trans hran2, (hgo0.trans hgo1).trans hgo2⟩

/-- `finish(0, 0x00, RESPV, 0, FST)` after a check that read `r`. -/
theorem finishRejected_response {s : State} {r : Byte} (hresp : s.seq.lastResp = r) (hvalid : s.seq.respValid = true) :
    finishRejected s = finishWith false 0 r 0 s.seq.fst s := by
  simp [finishRejected, respv, hresp, hvalid]

/-- An operation whose check read `r`, not the success byte, stops there. -/
theorem completesTo_rejected {i : Instr} {s t : State} {steps rest : List SeqStep} {fin : Finish} {n : BitVec 9}
    {bs : List Bool} {r : Byte}
    (hexec : exec i s = .next (accepted (encodeCmd i) (steps ++ .stopIfRejected :: rest) fin n s))
    (hgo : Goes (accepted (encodeCmd i) (steps ++ .stopIfRejected :: rest) fin n s) steps bs t)
    (hresp : t.seq.lastResp = r) (hvalid : t.seq.respValid = true) (hr : r ≠ 0x0D) :
    CompletesTo i bs s (finishWith false 0 r 0 t.seq.fst t) := by
  have hreject : isSuccess t.seq.lastResp = false := by
    rw [hresp, ← Bool.not_eq_true, isSuccess_iff]
    exact hr
  rw [← finishRejected_response hresp hvalid]
  exact CompletesTo.of_rejected rfl hexec hgo hreject

/-- An operation whose command is rejected sends nothing after it and finishes with OK = 0 and FSTAGE = 1. -/
theorem rejectedCommand_finishes {i : Instr} {c : Byte} {rest : List SeqStep} {fin : Finish} {n : BitVec 9} {s : State}
    {bs : List Bool} (x : CommandScript)
    (hexec : exec i s = .next (accepted (encodeCmd i) (commandOrStop c ++ rest) fin n s)) (hx : x.fits = true)
    (hr : x.response.byte ≠ 0x0D) (hfit : samplesFit (framesTrace (x.frames s.fpdat c)) bs = true) :
    ∃ t, CompletesTo i bs s t ∧ Finished i s t (framesTrace (x.frames s.fpdat c)) false 0 x.response.byte 0 1 ∧
      t.buf = s.buf ∧ OutsideKept s t := by
  obtain ⟨t, hran, hgo⟩ := goes_command c x (accepted (encodeCmd i) (commandOrStop c ++ rest) fin n s) bs hx hfit
  have hcomplete := completesTo_rejected hexec hgo hran.lastResp hran.respValid hr
  rw [hran.fst] at hcomplete
  exact ⟨_, hcomplete, hran.finished rfl rfl rfl rfl ⟨rfl, rfl, rfl, rfl⟩, hran.buf, hran.outside⟩

/-! ## WDIR, RDIR (R166, R167) -/

/-- The plain `finish` after an accepted check: `finish(1, data, RESPV, count, 0)`. -/
theorem finishOp_accepted {s : State} {r : Byte} (hchecked : s.seq.fin.checked = false) (hresp : s.seq.lastResp = r)
    (hvalid : s.seq.respValid = true) :
    finishOp s = finishWith true (finishData s.seq) r (finishCount s.seq) 0 s := by
  simp [finishOp, finishOk, finishStage, respv, hchecked, hresp, hvalid]

/-- `finish` with COUNT 0, and with the normalised size. -/
theorem finishCount_uncounted {q : Sequencer} (h : q.fin.counted = false) : finishCount q = 0 := by
  simp [finishCount, h]
theorem finishCount_counted {q : Sequencer} (h : q.fin.counted = true) : finishCount q = q.loopN := by
  simp [finishCount, h]

/-- A direct access whose command was accepted finishes with OK and the success byte in RESP. -/
theorem direct_finishes {i : Instr} {s t : State} {steps : List SeqStep} {fin : Finish} {bs : List Bool}
    {tr : List WireEvent} {x data : Byte} (hexec : exec i s = .next (accepted (encodeCmd i) steps fin 0 s))
    (hgo : Goes (accepted (encodeCmd i) steps fin 0 s) steps bs t)
    (hran : Ran (withResponse 0x0D (accepted (encodeCmd i) steps fin 0 s)) t tr x) (hchecked : fin.checked = false)
    (hcounted : fin.counted = false) (hdata : finishData t.seq = data) :
    ∃ u, CompletesTo i bs s u ∧ Finished i s u tr true data 0x0D 0 0 ∧ u.buf = s.buf ∧ OutsideKept s u := by
  have hfin : t.seq.fin = fin := hran.fin
  have hcomplete := CompletesTo.of_goes hexec hgo
  rw [finishOp_accepted (hfin ▸ hchecked) hran.lastResp hran.respValid, hdata,
    finishCount_uncounted (hfin ▸ hcounted)] at hcomplete
  exact ⟨_, hcomplete, hran.finished rfl rfl rfl rfl ⟨rfl, rfl, rfl, rfl⟩, hran.buf, hran.outside⟩

/-- Settles O23: after the accepted command three bytes go with busy framing. -/
theorem wdirWritesOrStops : Obligations.WdirWritesOrStops := by
  intro a v x xa xc xv s bs hb hx hxa hxc hxv
  refine ⟨fun hr hfit => ?_, fun hr hfit => ?_⟩
  · rw [framesTrace_append] at hfit ⊢
    obtain ⟨b1, b2, rfl, h1, h2⟩ := samplesFit_append.mp hfit
    obtain ⟨t1, hran1, hgo1⟩ := goes_commandTwoWrites Config.cmdDirectWrite a Config.directCount x xa xc
      (accepted (encodeCmd (.wdir a v)) _ _ 0 s) b1 hx hxa hxc hr h1
    obtain ⟨t2, hran2, hgo2⟩ := goes_writeWithBusy v xv t1 b2 hxv h2
    exact direct_finishes (acceptOp_idle hb _ _ _ _) (hgo1.trans hgo2) (hran1.trans hran2) rfl rfl
      (finishData_zero (congrArg Finish.data (hran1.trans hran2).fin))
  · exact rejectedCommand_finishes x (acceptOp_idle hb _ _ _ _) hx hr hfit

/-- Settles O24: after the accepted command and two bytes come a poll for output-ready clear and `read_with_ready`. -/
theorem rdirReadsOrStops : Obligations.RdirReadsOrStops := by
  intro a x xa xc p y s bs hb hx hxa hxc hp hy
  refine ⟨fun hr hfit => ?_, fun hr hfit => ?_⟩
  · rw [framesTrace_append, framesTrace_append] at hfit ⊢
    obtain ⟨_, b3, rfl, hfit', h3⟩ := samplesFit_append.mp hfit
    obtain ⟨b1, b2, rfl, h1, h2⟩ := samplesFit_append.mp hfit'
    obtain ⟨t1, hran1, hgo1⟩ := goes_commandTwoWrites Config.cmdDirectRead a Config.directCount x xa xc
      (accepted (encodeCmd (.rdir a)) _ _ 0 s) b1 hx hxa hxc hr h1
    obtain ⟨t2, hran2, -, hgo2⟩ := goes_poll Config.maskOutputReady false p t1 b2 hp h2
    obtain ⟨t3, hran3, hgo3⟩ := goes_readWithReady y t2 b3 hy h3
    have hran := (hran1.trans hran2).trans hran3
    exact direct_finishes (acceptOp_idle hb _ _ _ _) ((hgo1.trans hgo2).trans hgo3) hran rfl rfl
      ((finishData_frameByte (congrArg Finish.data hran.fin)).trans hran.shift)
  · exact rejectedCommand_finishes x (acceptOp_idle hb _ _ _ _) hx hr hfit

/-! ## ERASE (R168) -/

/-- The `finish` of ERASE after its second check, which read `r`. -/
theorem finishOp_secondCheck {s : State} {r : Byte}
    (hfin : s.seq.fin = { data := .zero, checked := true, counted := false }) (hresp : s.seq.lastResp = r)
    (hvalid : s.seq.respValid = true) (hfst : s.seq.fst = 2) :
    finishOp s = finishWith (r == 0x0D#8) 0 r 0 (if r = 0x0D#8 then 0 else 2) s := by
  simp [finishOp, finishOk, finishData, finishCount, finishStage, respv, isSuccess, Config.successByte, hfin, hresp,
    hvalid, hfst]

/-- ERASE on the wire is a block header: the arming bytes stand where that has its address and its size. -/
def eraseScript (x : CommandScript) (x0 x1 x2 : WriteScript) (y : ReadScript) : HeaderScript :=
  { command := x, high := x0, low := x1, size := x2, response := y }

/-- Settles O25: the second check is the last step, so its response decides. -/
theorem eraseArmsOnlyAfterAcceptance : Obligations.EraseArmsOnlyAfterAcceptance := by
  intro x x0 x1 x2 y s bs hb hx hx0 hx1 hx2 hy
  refine ⟨fun hr hfit => ?_, fun hr hfit => ?_⟩
  · have hscript : (eraseScript x x0 x1 x2 y).fits = true := by
      simp [HeaderScript.fits, eraseScript, hx, hx0, hx1, hx2, hy]
    obtain ⟨t, hran, hgo⟩ := goes_headerBody Config.cmdDeviceErase 0xDEAD 0xA5 (eraseScript x x0 x1 x2 y)
      (accepted (encodeCmd .erase) _ _ 0 s) bs hscript hr hfit
    have hcomplete := CompletesTo.of_goes (i := .erase) (acceptOp_idle hb _ _ _ _) hgo
    rw [finishOp_secondCheck hran.fin hran.lastResp hran.respValid hran.fst] at hcomplete
    exact ⟨_, hcomplete, hran.finished rfl rfl rfl rfl ⟨rfl, rfl, rfl, rfl⟩, hran.buf, hran.outside⟩
  · exact rejectedCommand_finishes x (acceptOp_idle hb _ _ _ _) hx hr hfit

end Sys2Proof.Machine
end

section
/-! SUPPORT and statements. The block operations WBLK and RBLK (43_flash_programming.md R169, R170): the header with its
two checks, then the byte loop. -/

namespace Sys2Proof.Machine

/-! ## The size and the header -/

/-- The normalised size as a number, at most 256 (30_encoding.md R93). -/
theorem blockSize_eq {size : Byte} {n : Nat} (hn : n = if size = 0 then 256 else size.toNat) :
    blockSize size = BitVec.ofNat 9 n ∧ n ≤ 256 := by
  by_cases h : size = 0
  · subst h hn
    exact ⟨rfl, le_rfl⟩
  · rw [if_neg h] at hn
    subst hn
    refine ⟨?_, size.isLt.le⟩
    rw [blockSize, if_neg (by simpa using h)]
    exact (BitVec.ofNat_toNat 9 size).symm

/-- The header of a block operation with both checks passed. -/
theorem goes_blockHeader (c : Byte) (fa : Half) (size : Byte) (x : HeaderScript) (s : State) (bs : List Bool)
    (hx : x.fits = true) (hc : x.command.response.byte = 0x0D) (hr : x.response.byte = 0x0D)
    (h : samplesFit (framesTrace (x.frames s.fpdat c fa size)) bs = true) :
    ∃ t, Ran (withResponse 0x0D (withResponse 0x0D s)) t (framesTrace (x.frames s.fpdat c fa size)) 0x0D ∧
      Goes s (blockHeader c fa size) bs t := by
  obtain ⟨t, hran, hgo⟩ := goes_headerBody c fa size x s bs hx hc h
  rw [hc, hr] at hran
  have hstop := hgo.trans (goes_stopIfRejected (isSuccess_iff.mpr hran.lastResp))
  rw [List.append_nil] at hstop
  exact ⟨t, hran, hstop⟩

/-- The `finish` of WBLK and RBLK. -/
def finishBlock : Finish := { data := .zero, checked := false, counted := true }

/-- A block operation after acceptance: the steps `loop` stand behind its header. -/
def blockAccepted (i : Instr) (c : Byte) (fa : Half) (size : Byte) (loop : List SeqStep) (s : State) : State :=
  accepted (encodeCmd i) (blockHeader c fa size ++ loop) finishBlock (blockSize size) s

/-- After both checks and `n` bytes a block operation finishes with OK and COUNT = n. -/
theorem finishOp_block {s : State} {n : BitVec 9} (hfin : s.seq.fin = finishBlock) (hresp : s.seq.lastResp = 0x0D)
    (hvalid : s.seq.respValid = true) (hn : s.seq.loopN = n) : finishOp s = finishWith true 0 0x0D n 0 s := by
  rw [finishOp_accepted (congrArg Finish.checked hfin) hresp hvalid, finishData_zero (congrArg Finish.data hfin),
    finishCount_counted (congrArg Finish.counted hfin), hn]

/-! ## The byte loops -/

/-- Settles O26: the loop sends the bytes of BUF from index 0, and the last poll reads no response. -/
theorem wblkSendsBlock : Obligations.WblkSendsBlock := by
  intro fa size n x xs p s bs hn hb hx hc hr hlen hxs hp tr hfit
  obtain ⟨hsize, hmax⟩ := blockSize_eq hn
  simp only [tr, framesTrace_append, samplesFit_append] at hfit ⊢
  obtain ⟨_, b3, rfl, ⟨b1, b2, rfl, h1, h2⟩, h3⟩ := hfit
  obtain ⟨t1, hran1, hgo1⟩ := goes_blockHeader Config.cmdBlockWrite fa size x
    (blockAccepted (.wblk fa size) Config.cmdBlockWrite fa size [.sendBlock, .poll Config.maskOutputReady true] s) b1
    hx hc hr h1
  obtain ⟨t2, y, d, hran2, hgo2⟩ := goes_sendBlock xs 0 n _ t1 _ _ b2 hran1 rfl hsize
    ((Nat.zero_add _).trans hlen) hmax hxs (hlen ▸ h2)
  obtain ⟨t3, hran3, -, hgo3⟩ := goes_poll Config.maskOutputReady true p t2 b3 hp h3
  have hran := hran2.trans hran3
  have hcomplete := CompletesTo.of_goes (i := .wblk fa size) (acceptOp_idle hb _ _ _ _) ((hgo1.trans hgo2).trans hgo3)
  rw [finishOp_block hran.fin hran.lastResp hran.respValid (hran.loopN.trans hsize)] at hcomplete
  obtain ⟨hinputs, -, hprdata⟩ := hran.outside
  exact ⟨_, hcomplete, hlen ▸ hran.finished rfl rfl rfl rfl ⟨rfl, rfl, rfl, rfl⟩, hran.buf, hinputs, hprdata⟩

/-- Settles O27: the loop stores the bytes read at the indices from 0 on. -/
theorem rblkFillsBuffer : Obligations.RblkFillsBuffer := by
  intro fa size n x xs s bs hn hb hx hc hr hlen hxs tr hfit
  obtain ⟨hsize, hmax⟩ := blockSize_eq hn
  simp only [tr, framesTrace_append, samplesFit_append] at hfit ⊢
  obtain ⟨b1, b2, rfl, h1, h2⟩ := hfit
  obtain ⟨t1, hran1, hgo1⟩ := goes_blockHeader Config.cmdBlockRead fa size x
    (blockAccepted (.rblk fa size) Config.cmdBlockRead fa size [.receiveBlock] s) b1 hx hc hr h1
  obtain ⟨t2, y, hran, hgo2⟩ := goes_receiveBlock xs 0 n _ t1 _ _ b2 hran1 rfl hsize
    ((Nat.zero_add _).trans hlen) hmax hxs h2
  have hcomplete := CompletesTo.of_goes (i := .rblk fa size) (acceptOp_idle hb _ _ _ _) (hgo1.trans hgo2)
  rw [finishOp_block hran.fin hran.lastResp hran.respValid (hran.loopN.trans hsize)] at hcomplete
  have hread : ∀ k, t2.buf.read k = if k < n then (xs.map ReadScript.byte)[k]? else s.buf.read k := by
    intro k
    rw [hran.buf, ← hlen]
    exact (read_storeBytes _ 0 k s.buf).trans (by simp)
  refine ⟨_, hcomplete, hran.finished rfl rfl rfl rfl ⟨rfl, rfl, rfl, rfl⟩, fun k z hk => ?_, fun k hk => ?_,
    hran.outside⟩
  · obtain ⟨hlt, -⟩ := List.getElem?_eq_some_iff.mp hk
    exact (hread k).trans (by rw [if_pos (hlen ▸ hlt), List.getElem?_map, hk, Option.map_some])
  · exact (hread k).trans (if_neg (Nat.not_lt.mpr hk))

/-! ## Rejection -/

/-- A block operation begins with the header of its command. -/
theorem exec_block {i : Instr} {c : Byte} {fa : Half} {size : Byte} {s : State}
    (hi : i = .wblk fa size ∧ c = 0x07 ∨ i = .rblk fa size ∧ c = 0x06) (hb : s.status.busy = false) :
    ∃ loop, exec i s = .next (blockAccepted i c fa size loop s) := by
  obtain ⟨rfl, rfl⟩ | ⟨rfl, rfl⟩ := hi
  · exact ⟨_, acceptOp_idle hb _ _ _ _⟩
  · exact ⟨_, acceptOp_idle hb _ _ _ _⟩

/-- Settles O28: the first check stops the operation after its command, the second after its header. -/
theorem rejectedBlockTransfersNothing : Obligations.RejectedBlockTransfersNothing := by
  intro i c fa size x s bs hi hb hx
  obtain ⟨loop, hexec⟩ := exec_block hi hb
  refine ⟨fun hr hfit => ?_, fun hc hr hfit => ?_⟩
  · simp only [HeaderScript.fits, Bool.and_eq_true] at hx
    obtain ⟨⟨⟨⟨hcommand, -⟩, -⟩, -⟩, -⟩ := hx
    exact rejectedCommand_finishes x.command hexec hcommand hr hfit
  · obtain ⟨t, hran, hgo⟩ := goes_headerBody c fa size x (blockAccepted i c fa size loop s) bs hx hc hfit
    have hcomplete := completesTo_rejected (rest := loop) hexec hgo hran.lastResp hran.respValid hr
    rw [hran.fst] at hcomplete
    exact ⟨_, hcomplete, hran.finished rfl rfl rfl rfl ⟨rfl, rfl, rfl, rfl⟩, hran.buf, hran.outside⟩

end Sys2Proof.Machine
end

section
/-! SUPPORT and statements. The reset pulse and the settle delay from cycle to cycle (43_flash_programming.md R160,
R161), and RESET from its accepting edge to `finish` (70_reset_and_hazards.md R233). -/

namespace Sys2Proof.Machine

/-! ## Cycle counts -/

/-- The phases of the reset pulse (R160). -/
theorem pulse_cycles (t : Timing) :
    (lowCycles t .pulse).toNat = 20 * t.usdiv.toNat ∧ (highCycles t .pulse).toNat = 2 * t.usdiv.toNat := by
  have := t.usdiv.isLt
  constructor
  · exact (BitVec.toNat_ofNat ..).trans (Nat.mod_eq_of_lt (by simp only [Config.rstLowUs]; omega))
  · exact (BitVec.toNat_ofNat ..).trans (Nat.mod_eq_of_lt (by simp only [Config.rstHighUs]; omega))

/-- The length of the settle delay (R161). -/
theorem settle_cycles (t : Timing) : (highCycles t .settle).toNat = 20000 * t.usdiv.toNat := by
  have := t.usdiv.isLt
  exact (BitVec.toNat_ofNat ..).trans (Nat.mod_eq_of_lt (by simp only [Config.settleMs]; omega))

theorem usdiv_pos {t : Timing} (h : LegalTiming t = true) : 1 ≤ t.usdiv.toNat := by
  simp only [LegalTiming, Bool.and_eq_true, decide_eq_true_eq] at h
  exact h.2

/-! ## The pulse -/

/-- Where the reset pulse is after `j` cycles, for every `j` before its end. -/
theorem run_pulse {s : State} (hb : s.status.busy = true) (he : s.seq.event = some .pulse) (hp : s.seq.phase = .setup)
    (hc : s.lines.c2ck = true) (ht : LegalTiming s.timing = true)
    (hq : QuietFor (1 + 22 * s.timing.usdiv.toNat) s = true) {j : Nat} (hj : j < 1 + 22 * s.timing.usdiv.toNat) :
    ∃ v ph n, Host.Core.run core j s = .next v ∧ Within ph n (decide (j = 0 ∨ 20 * s.timing.usdiv.toNat < j)) s v ∧
      v.env.inputs = s.env.inputs.drop j ∧ (j = 22 * s.timing.usdiv.toNat → ph = .high ∧ ¬ 1 < n) := by
  have hU := usdiv_pos ht
  obtain ⟨hlow, hhigh⟩ := pulse_cycles s.timing
  have hlen : 1 + 22 * s.timing.usdiv.toNat = 1 + 20 * s.timing.usdiv.toNat + 2 * s.timing.usdiv.toNat := by omega
  obtain ⟨v, ph, n, hv, hw, hi, hend⟩ :=
    run_event hb he hp hc hlow hhigh (by omega) (by omega) (hlen ▸ hq) j (hlen ▸ hj)
  exact ⟨v, ph, n, hv, hw, hi, fun h => hend (by omega)⟩

/-- The reset pulse comes to its last cycle, whose edge completes it. -/
theorem run_pulse_last {s : State} (hb : s.status.busy = true) (he : s.seq.event = some .pulse)
    (hp : s.seq.phase = .setup) (hc : s.lines.c2ck = true) (ht : LegalTiming s.timing = true)
    (hq : QuietFor (1 + 22 * s.timing.usdiv.toNat) s = true) :
    ∃ v ph n, Host.Core.run core (22 * s.timing.usdiv.toNat) s = .next v ∧ Within ph n true s v ∧
      step v = andThen (eventDone .pulse v) fun u => .next (dropInput (syncEdge (inputNow v) v.lines u)) := by
  have hU := usdiv_pos ht
  have hlt : 22 * s.timing.usdiv.toNat < 1 + 22 * s.timing.usdiv.toNat := by omega
  obtain ⟨v, ph, n, hv, hw, hi, hend⟩ := run_pulse hb he hp hc ht hq hlt
  obtain ⟨rfl, hn⟩ := hend rfl
  obtain ⟨-, hstatus, -⟩ := hw.host
  rw [decide_eq_true (.inr (by omega))] at hw
  exact ⟨v, _, n, hv, hw, step_high_end (quietFor_inputNow hq hlt hi) (hstatus ▸ hb) (by rw [hw.seq]; exact he)
    (by rw [hw.seq]) (by rw [hw.seq]; exact hn)⟩

/-! ## The settle delay -/

/-- The settle delay begun in state `s`. -/
def settling (rest : List SeqStep) (s : State) : State := beginSettle (withTodo rest s)

/-- Where the settle delay is after `j` cycles, for every `j` before its end. -/
theorem run_settle {rest : List SeqStep} {s : State} (hb : s.status.busy = true)
    (hq : QuietFor (20000 * s.timing.usdiv.toNat) s = true) {j : Nat} (hj : j < 20000 * s.timing.usdiv.toNat) :
    ∃ v, Host.Core.run core j (settling rest s) = .next v ∧
      Within .high (highCycles s.timing .settle - BitVec.ofNat 23 j) true (settling rest s) v ∧
      v.env.inputs = s.env.inputs.drop j :=
  run_phase j (settling rest s) .settle (quietFor_le hq hj.le) hb rfl nofun
    (lt_of_lt_of_eq hj (settle_cycles s.timing).symm)

/-- The settle delay comes to its last cycle, whose edge completes it. -/
theorem run_settle_last {rest : List SeqStep} {s : State} (hb : s.status.busy = true)
    (ht : LegalTiming s.timing = true) (hq : QuietFor (20000 * s.timing.usdiv.toNat) s = true) :
    ∃ v, Host.Core.run core (20000 * s.timing.usdiv.toNat - 1) (settling rest s) = .next v ∧
      step v = andThen (eventDone .settle v) fun u => .next (dropInput (syncEdge (inputNow v) v.lines u)) := by
  have hU := usdiv_pos ht
  have hlt : 20000 * s.timing.usdiv.toNat - 1 < 20000 * s.timing.usdiv.toNat := by omega
  obtain ⟨v, hv, hw, hi⟩ := run_settle (rest := rest) hb hq hlt
  rw [count_left (settle_cycles s.timing) (by omega)] at hw
  obtain ⟨-, hstatus, -⟩ := hw.host
  exact ⟨v, hv, step_high_end (quietFor_inputNow hq hlt hi) (hstatus ▸ hb) (by rw [hw.seq]; rfl) (by rw [hw.seq])
    (by rw [hw.seq]; exact BitVec.lt_irrefl 1)⟩

/-- Settles O36: before their last edge the two events move their phase, its counter and C2CK alone. -/
theorem pulseAndSettleLengths : Obligations.PulseAndSettleLengths := by
  intro s hb ht
  refine ⟨fun he hp hl hq => ⟨fun j hj => ?_, ?_⟩,
    fun rest => ⟨settling rest s, rfl, rfl, fun hq => ⟨fun j hj => ?_, ?_⟩⟩⟩
  · obtain ⟨v, ph, n, hv, hw, -, -⟩ := run_pulse hb he hp (congrArg Lines.c2ck hl) ht hq hj
    exact ⟨v, hv, hw.lines, by rw [hw.seq]; exact he⟩
  · obtain ⟨v, ph, n, hv, -, hstep⟩ := run_pulse_last hb he hp (congrArg Lines.c2ck hl) ht hq
    exact ⟨v, hv, hstep⟩
  · obtain ⟨v, hv, hw, -⟩ := run_settle (rest := rest) hb hq hj
    exact ⟨v, hv, hw.lines, by rw [hw.seq]; rfl, by rw [hw.seq]; rfl⟩
  · exact run_settle_last hb ht hq

/-! ## RESET -/

/-- RESET accepted in state `s`, in the SETUP cycle of its pulse. -/
def resetBegun (s : State) : State :=
  beginPulse (accepted (encodeCmd .reset) [] { data := .zero, checked := false, counted := false } 0 s)

/-- The accepting edge of RESET begins its pulse. -/
theorem step_resetCommand {s : State} (hw : HostWrites 0x08 (encodeCmd .reset) s) (hb : s.status.busy = false) :
    ∃ c l, step s = .next (dropInput (syncEdge c l (resetBegun s))) := by
  obtain ⟨hr, hwrite, haddr, hdata⟩ := hw
  refine ⟨inputNow s, s.lines, ?_⟩
  rw [step_command hr (busEdge_writeTo (r := .cmd) hwrite haddr hdata) (decodeCmd_encodeCmd rfl rfl) hb,
    show exec .reset s = _ from acceptOp_idle hb _ _ _ _]
  rfl

/-- A pulse that is the last step of an operation completes alike from edge to edge and at trace level. -/
theorem AtCycle.pulseDone {s t : State} (h : AtCycle s t) (he : t.seq.event = some .pulse) (htodo : t.seq.todo = [])
    (b : Bool) : ∃ u v, completeEvent b t = .next u ∧ eventDone .pulse s = .next v ∧ AtCycle v u := by
  obtain ⟨x, rfl⟩ := h
  let w : WireEvent := .pulse (Config.rstLowUs * t.timing.usdiv.toNat) (Config.rstHighUs * t.timing.usdiv.toNat)
  refine ⟨finishOp (eventEnd w b t), finishOp (noteEvent w (withCycle x t)), ?_, fetchNext_done htodo, ⟨x, rfl⟩⟩
  rw [completeEvent, he]
  exact fetchNext_done (s := eventEnd w b t) htodo

/-- Settles O38: the last edge of the pulse is that of `finish`, with the results of O20. -/
theorem resetOperationCycles : Obligations.ResetOperationCycles := by
  intro s hw hb ht hquiet
  obtain ⟨c, l, hstep⟩ := step_resetCommand hw hb
  let s1 := dropInput (syncEdge c l (resetBegun s))
  have hedge : AtCycle s1 (resetBegun s) := (AtCycle.refl _).edge c l
  have htiming : s1.timing = s.timing := by rw [dropInput_timing, syncEdge_timing]; rfl
  have hinputs : s1.env.inputs = s.env.inputs.tail := by rw [dropInput_env, syncEdge_inputs]; rfl
  obtain ⟨hevent, -, hlines⟩ := hedge.wire
  have hbusy : s1.status.busy = true := by rw [dropInput_status, syncEdge_status]; rfl
  have hphase : s1.seq.phase = .setup := by rw [dropInput_seq, syncEdge_seq]; rfl
  have hc2ck : s1.lines.c2ck = true := congrArg Lines.c2ck hlines.symm
  have hq : QuietFor (1 + 22 * s1.timing.usdiv.toNat) s1 = true := by rwa [QuietFor, hinputs, htiming]
  obtain ⟨v, ph, n, hv, hwithin, hlast⟩ := run_pulse_last hbusy hevent.symm hphase hc2ck (htiming ▸ ht) hq
  obtain ⟨u, w, hu, hdone, hwu⟩ := (hedge.within (hc2ck ▸ hwithin)).pulseDone rfl rfl false
  rw [hdone, andThen_next] at hlast
  obtain ⟨t, ⟨a, hexec, -, hrun⟩, hfinished, hbuf, -⟩ := resetPulsesTarget false s hb
  obtain rfl := Host.Outcome.next.inj (hexec.symm.trans (acceptOp_idle hb _ _ _ _))
  obtain rfl : u = t := Host.Outcome.next.inj ((andThen_right _).symm.trans (hu ▸ hrun))
  have hend := hwu.edge (inputNow v) v.lines
  refine ⟨fun j hj => ?_, _, ?_, hend.finished hfinished, hend.buf.trans hbuf⟩
  · obtain ⟨v, ph, n, hv, hwithin, -⟩ := run_pulse hbusy hevent.symm hphase hc2ck (htiming ▸ ht) hq (htiming ▸ hj)
    obtain ⟨-, hstatus, -⟩ := hwithin.host
    exact ⟨v, by rw [Nat.add_comm, run_succ hstep, hv], hstatus ▸ hbusy⟩
  · rw [htiming] at hv
    rw [Nat.add_comm, run_succ hstep]
    exact run_step hv hlast

end Sys2Proof.Machine
end

section
/-! The exceptions of the block (60_exceptions.md): a HostError is recorded and traps nothing, and the interrupt request
follows the pending bits. -/

namespace Sys2Proof.Machine

/-- Settles O40: with `rst_n` at 1 the host access and the sequencer each have a next state, and a reset edge has one. -/
theorem everyStepHasNextState : Obligations.EveryStepHasNextState := step_next

/-- The latest error wins (10_state.md R30): a second error leaves nothing of the first. -/
theorem raiseHostError_raiseHostError (e d : HostError) (s : State) :
    raiseHostError e (raiseHostError d s) = raiseHostError e s := rfl

/-- Settles O55: ERR and ERRCODE are all a HostError writes, so the latest one decides them; the codes are those of the
table of R201. -/
theorem hostErrorRecordsLatestCode : Obligations.HostErrorRecordsLatestCode := by
  intro e d s
  refine ⟨raiseHostError_raiseHostError e d s, rfl, ?_⟩
  cases e <;> rfl

/-- The request is up exactly when it is enabled and a bit is pending. -/
theorem irq_eq_true_iff (s : State) :
    irq s = true ↔ s.ie = true ∧ (s.status.done = true ∨ s.status.err = true) := by
  rw [irq, Bool.and_eq_true, Bool.or_eq_true]

/-- A write that enables the interrupt shows the pending bits, one that disables it hides them. -/
theorem irq_withIe (b : Bool) (s : State) :
    irq { s with ie := b } = (b && (s.status.done || s.status.err)) := rfl

/-- An acknowledgement of both pending bits (10_state.md R33) drops the request. -/
theorem irq_acknowledge_both {w : Word} (hdone : w.getLsbD 1 = true) (herr : w.getLsbD 3 = true) (s : State) :
    irq (acknowledge w s) = false := by
  simp [irq, statusAcknowledge, hdone, herr]

/-- Settles O56: CTRL writes IE alone, and 0x0000000A acknowledges both DONE and ERR. -/
theorem interruptFollowsPendingBits : Obligations.InterruptFollowsPendingBits := fun s =>
  ⟨irq_eq_true_iff s,
    ⟨{ s with ie := false }, rfl, irq_withIe false s, rfl⟩,
    ⟨{ s with ie := true }, rfl, irq_withIe true s, rfl⟩,
    ⟨acknowledge 0x0000000A s, rfl, irq_acknowledge_both (by decide) (by decide) s⟩⟩

end Sys2Proof.Machine
end

section
/-! The statement about reset (70_reset_and_hazards.md R220, R221). -/

namespace Sys2Proof.Machine

theorem readDuringReset_inputs (c : CycleInput) (s : State) :
    (readDuringReset c s).env.inputs = s.env.inputs := by
  have drawn (i : Nat) : (drawForByte i s).env.inputs = s.env.inputs := by rw [drawForByte_eq]; rfl
  unfold readDuringReset drawForRead
  split
  · split
    · exact drawn _
    · rfl
  · rfl

/-- Settles O44: the edge leaves the reset state but for BUF and the model's own fields, whatever its cycle held. -/
theorem resetEdgeAbandonsOperation : Obligations.ResetEdgeAbandonsOperation := by
  intro s hr
  have hstep := step_reset (s := s) (by simp [hr])
  have hinputs := congrArg List.tail (readDuringReset_inputs (inputNow s) s)
  exact ⟨_, hstep, rfl, rfl, rfl, rfl, rfl, rfl, rfl, rfl, rfl, rfl, readDuringReset_buf _ s, hinputs⟩

end Sys2Proof.Machine
end

section
/-! Every operation ends when the target is responsive (70_reset_and_hazards.md R235): each step on the sequencer's list
is passed after finitely many wire events, whatever stands on the list after it. -/

namespace Sys2Proof.Machine

/-- Operation `i`, issued in state `s`, has finished after some number of wire events with the sampled levels `σ`. -/
def Ends (i : Instr) (s : State) (σ : Nat → Bool) : Prop :=
  ∃ n t, operate i (samplesUpTo σ n) s = .next t ∧ t.status.busy = false ∧ t.status.done = true ∧
    t.seq.event = none ∧ IdleLines t.lines = true

variable {i : Instr} {s : State} {σ : Nat → Bool}

/-- `finish` touches no line (10_state.md R44). -/
theorem ends_finishWith {n : Nat} {r : State} {ok : Bool} {data resp : Byte} {count : BitVec 9} {fstage : BitVec 2}
    (hl : IdleLines r.lines = true)
    (h : operate i (samplesUpTo σ n) s = .next (finishWith ok data resp count fstage r)) : Ends i s σ :=
  ⟨n, _, h, rfl, rfl, rfl, hl⟩

/-- A step that begins a wire event is passed, whatever the lines were before it. -/
theorem reaches_eventStep (hR : TargetResponsive i s σ) {n : Nat} {st : SeqStep} {rest : List SeqStep} {r : State}
    (hst : beginsEvent st = true) (h : operate i (samplesUpTo σ n) s = fetch (st :: rest) r) :
    ∃ n' r', Reaches i s σ rest r n' r' := by
  cases st with
  | frame ins b => exact reaches_frameStep hR h
  | command c => exact reaches_command hR h
  | poll m e => exact reaches_poll hR h
  | check => exact reaches_check hR h
  | pulse => exact reaches_pulse h
  | settle => exact reaches_settle h
  | pollTest _ _ | checkRecord | stopIfRejected | sendBlock | receiveBlock | storeByte | nextIndex => cases hst

/-- An operation that has come to the fetch of steps `p` with the lines idle ends: by `finish` when no step is left, and
earlier when a check rejects. -/
theorem ends_of_fetch (hR : TargetResponsive i s σ) (p : List SeqStep) {n : Nat} {r : State}
    (hl : IdleLines r.lines = true) (hN : r.seq.loopN.toNat ≤ Config.bufSize)
    (h : operate i (samplesUpTo σ n) s = fetch p r) : Ends i s σ := by
  induction p generalizing n r with
  | nil => exact ends_finishWith hl h
  | cons st rest ih =>
    have passed {n' : Nat} {r' : State} (hreach : Reaches i s σ rest r n' r') : Ends i s σ :=
      ih hreach.lines (hreach.loop.2 ▸ hN) hreach.run
    cases st with
    | frame _ _ | command _ | poll _ _ | check | pulse | settle =>
      obtain ⟨_, _, hreach⟩ := reaches_eventStep hR rfl h
      exact passed hreach
    | pollTest m e =>
      cases hmet : pollMet m e r.seq.shift with
      | true => exact ih (r := recordStatus r) hl hN (h.trans (fetch_pollTest_met hmet rest))
      | false =>
        -- another address read, and the poll goes on from there
        obtain ⟨_, _, hreach⟩ := reaches_poll hR (h.trans (fetch_pollTest_unmet hmet rest))
        exact passed ⟨hreach.run, hreach.lines, hreach.loop⟩
    | stopIfRejected =>
      by_cases hok : isSuccess r.seq.lastResp = true
      · exact ih hl hN (h.trans (if_pos hok))
      · exact ends_finishWith hl (h.trans (if_neg hok))
    | sendBlock =>
      obtain ⟨_, _, hrun, hidle, hsize⟩ := reaches_sendBlock hR _ hl hN le_rfl h
      exact ih hidle (hsize ▸ hN) hrun
    | receiveBlock =>
      obtain ⟨_, _, hrun, hidle, hsize⟩ := reaches_receiveBlock hR _ hl hN le_rfl h
      exact ih hidle (hsize ▸ hN) hrun
    | checkRecord => exact ih (r := recordResponse r) hl hN h
    | storeByte => exact ih (r := setBufByte (bufIndex r.seq) r.seq.shift r) hl hN h
    | nextIndex => exact ih (r := bumpIndex r) hl hN h

/-- An accepted operation with a first step that begins a wire event ends; the lines need not be idle at acceptance. -/
theorem ends_of_accepted (hR : TargetResponsive i s σ) {w : Word} {st : SeqStep} {rest : List SeqStep} {fin : Finish}
    {n : BitVec 9} (hexec : exec i s = .next (accepted w (st :: rest) fin n s)) (hst : beginsEvent st = true)
    (hn : n.toNat ≤ Config.bufSize) : Ends i s σ := by
  have hstart : operate i (samplesUpTo σ 0) s = fetch (st :: rest) (accepted w (st :: rest) fin n s) := by
    rw [operate, hexec, andThen_next]
    exact andThen_right _
  obtain ⟨_, _, hreach⟩ := reaches_eventStep hR hst hstart
  exact ends_of_fetch hR rest hreach.lines (hreach.loop.2 ▸ hn) hreach.run

/-- The byte loops of an accepted operation run over at most the whole of BUF. -/
theorem accepted_size {steps : List SeqStep} {fin : Finish} {n : BitVec 9} (hc : IsCommand i = true)
    (hw : WellFormed i = true) (hb : s.status.busy = false)
    (hexec : exec i s = .next (accepted (encodeCmd i) steps fin n s)) : n.toNat ≤ Config.bufSize := by
  obtain ⟨_, _, m, hexec', -, hm, -⟩ := exec_idle hc hw hb
  have hnm : n = m := congrArg (·.seq.loopN) (Host.Outcome.next.inj (hexec.symm.trans hexec'))
  exact hnm ▸ hm

/-- Settles O60: the first step begins a wire event, which leaves the lines idle, and the steps after it run out. -/
theorem responsiveTargetEndsEveryOperation : Obligations.ResponsiveTargetEndsEveryOperation := by
  intro i s σ hc hw hb hR
  obtain ⟨st, rest, fin, size, hexec, hst⟩ := exec_firstStep hc hw hb
  obtain ⟨n, t, hrun, hends⟩ := ends_of_accepted hR hexec hst (accepted_size hc hw hb hexec)
  rw [operate, hexec, andThen_next] at hrun
  exact ⟨n, t, ⟨_, hexec, rfl, hrun⟩, hends⟩

end Sys2Proof.Machine
end
